-- ==== Sys2Proof/Word.lean ====
section
/-!
DEFINITION. The word types of the core: 32-bit registers and addresses, 8-bit bytes, 16-bit THUMB
halfwords (spec/00_scope.md R6), and the 4-bit register number of an encoded instruction.
-/

namespace Sys2Proof

/-- A 32-bit register, address or ARM instruction word (00_scope.md R6). -/
abbrev Word := BitVec 32

/-- A 16-bit halfword (00_scope.md R6). -/
abbrev Half := BitVec 16

/-- The smallest addressable unit (00_scope.md R6). -/
abbrev Byte := BitVec 8

/-- A register number as an instruction word holds it: 4 bits, 15 naming the program counter
(10_state.md R22, R31). -/
abbrev RegNum := BitVec 4

end Sys2Proof
end

