-- ==== Sys2Proof/Syntax.lean ====
section
/-!
DEFINITION. The instructions of the admitted subset: one constructor of `Instr` per row of
spec/opcode_table.json (30_encoding.md R96). Operand fields are the fields of the encodings (R94, R95);
a THUMB register number is already assembled to 4 bits (R101).
-/

namespace Sys2Proof

/-- The sixteen values of the condition field (30_encoding.md R93), in the order of their codes.
`nv` is the code 1111, which R93 refuses when the condition is tested. -/
inductive Cond where
  | eq | ne | cs | cc | mi | pl | vs | vc | hi | ls | ge | lt | gt | le | al | nv
  deriving DecidableEq, Repr

/-- The admitted instructions. Flags named `sf` are the S bit of data processing; `p u w` (and `sbit`) are the
P, U, W (and S) bits of a transfer; `spsr` is the R bit of a PSR access; `mask` is the field mask f s x c. -/
inductive Instr where
  /-- BX Rm, ARM state (R120). -/
  | bx (cond : Cond) (rm : RegNum)
  /-- B target, ARM state (R121). -/
  | b (cond : Cond) (offset : BitVec 24)
  /-- BL target (R122). -/
  | bl (cond : Cond) (offset : BitVec 24)
  /-- MOV{S} Rd, Rm (R131). -/
  | movReg (cond : Cond) (sf : Bool) (rd rm : RegNum)
  /-- MOV{S} Rd, #imm (R131). -/
  | movImm (cond : Cond) (sf : Bool) (rd : RegNum) (rot : BitVec 4) (imm : Byte)
  /-- ADD{S} Rd, Rn, Rm (R132). -/
  | addReg (cond : Cond) (sf : Bool) (rn rd rm : RegNum)
  /-- ADD{S} Rd, Rn, #imm (R132). -/
  | addImm (cond : Cond) (sf : Bool) (rn rd : RegNum) (rot : BitVec 4) (imm : Byte)
  /-- SUB{S} Rd, Rn, Rm (R133). -/
  | subReg (cond : Cond) (sf : Bool) (rn rd rm : RegNum)
  /-- SUB{S} Rd, Rn, #imm (R133). -/
  | subImm (cond : Cond) (sf : Bool) (rn rd : RegNum) (rot : BitVec 4) (imm : Byte)
  /-- CMP Rn, Rm (R134). -/
  | cmpReg (cond : Cond) (rn rm : RegNum)
  /-- CMP Rn, #imm (R134). -/
  | cmpImm (cond : Cond) (rn : RegNum) (rot : BitVec 4) (imm : Byte)
  /-- MRS Rd, CPSR or SPSR (R151). -/
  | mrs (cond : Cond) (spsr : Bool) (rd : RegNum)
  /-- MSR psr_fields, Rm (R152). -/
  | msrReg (cond : Cond) (spsr : Bool) (mask : BitVec 4) (rm : RegNum)
  /-- MSR psr_fields, #imm (R152). -/
  | msrImm (cond : Cond) (spsr : Bool) (mask : BitVec 4) (rot : BitVec 4) (imm : Byte)
  /-- LDR Rd, address (R160). -/
  | ldr (cond : Cond) (p u w : Bool) (rn rd : RegNum) (offset : BitVec 12)
  /-- STR Rd, address (R161). -/
  | str (cond : Cond) (p u w : Bool) (rn rd : RegNum) (offset : BitVec 12)
  /-- LDRB Rd, address (R162). -/
  | ldrb (cond : Cond) (p u w : Bool) (rn rd : RegNum) (offset : BitVec 12)
  /-- STRB Rd, address (R163). -/
  | strb (cond : Cond) (p u w : Bool) (rn rd : RegNum) (offset : BitVec 12)
  /-- LDRH Rd, address (R164). -/
  | ldrh (cond : Cond) (p u w : Bool) (rn rd : RegNum) (immH immL : BitVec 4)
  /-- STRH Rd, address (R165). -/
  | strh (cond : Cond) (p u w : Bool) (rn rd : RegNum) (immH immL : BitVec 4)
  /-- LDM (R166). -/
  | ldm (cond : Cond) (p u sbit w : Bool) (rn : RegNum) (list : BitVec 16)
  /-- STM (R167). -/
  | stm (cond : Cond) (p u sbit w : Bool) (rn : RegNum) (list : BitVec 16)
  /-- SWP Rd, Rm, [Rn] (R168). -/
  | swp (cond : Cond) (rn rd rm : RegNum)
  /-- SWPB Rd, Rm, [Rn] (R169). -/
  | swpb (cond : Cond) (rn rd rm : RegNum)
  /-- SWI comment, ARM state (R190). -/
  | swi (cond : Cond) (comment : BitVec 24)
  /-- The architecturally undefined space, ARM state (R191): bits [24:5] and [3:0] are free. -/
  | und (cond : Cond) (high : BitVec 20) (low : BitVec 4)
  /-- ADD Rd, Rs, THUMB high registers (R201). -/
  | tAdd (rd rs : RegNum)
  /-- CMP Rd, Rs, THUMB high registers (R202). -/
  | tCmp (rd rs : RegNum)
  /-- MOV Rd, Rs, THUMB high registers (R203). -/
  | tMov (rd rs : RegNum)
  /-- BX Rs, THUMB state (R204). -/
  | tBx (rs : RegNum)
  /-- B<cond> target, THUMB state (R205). -/
  | tB (cond : Cond) (offset : Byte)
  /-- SWI value8, THUMB state (R206). -/
  | tSwi (value : Byte)
  deriving DecidableEq, Repr

end Sys2Proof
end

