-- ==== Sys2Proof/WellFormed.lean ====
section
/-!
DEFINITION. Which instruction terms an encoding can hold. The operand types already bound every field; the
one check left is the condition of the THUMB branch, which is 0000 to 1101 (30_encoding.md R95). The operand
combinations a rule refuses (an R15 operand, an empty register list, …) are well formed: the spec refuses them
only after the condition has passed (R93), so they are the machine's matter.
-/

namespace Sys2Proof

/-- The conditions that format T-BC can hold (30_encoding.md R95). -/
def Cond.thumbBranch : Cond → Bool
  | .al => false
  | .nv => false
  | .eq | .ne | .cs | .cc | .mi | .pl | .vs | .vc | .hi | .ls | .ge | .lt | .gt | .le => true

/-- The instruction has an encoding (30_encoding.md R94, R95). -/
def Instr.wellFormed : Instr → Bool
  | .tB cond _ => cond.thumbBranch
  | .bx .. | .b .. | .bl .. | .movReg .. | .movImm .. | .addReg .. | .addImm .. | .subReg .. | .subImm ..
  | .cmpReg .. | .cmpImm .. | .mrs .. | .msrReg .. | .msrImm .. | .ldr .. | .str .. | .ldrb .. | .strb ..
  | .ldrh .. | .strh .. | .ldm .. | .stm .. | .swp .. | .swpb .. | .swi .. | .und .. | .tAdd .. | .tCmp ..
  | .tMov .. | .tBx .. | .tSwi .. => true

end Sys2Proof
end

