-- ==== Sys2Proof/Decode.lean ====
section
/-!
DEFINITION. The assembly of values from bytes (20_memory.md R63), the decoder (30_encoding.md R90 to R103), total on
any bytes and rejecting by name, and after it the encoder, written from the same tables.
-/

namespace Sys2Proof

/-! ## Bytes and values -/

/-- The value of 1, 2 or 4 bytes in address order (20_memory.md R63), zero-extended to a word. No access
has another length. -/
def assemble (bigEndian : Bool) : List Byte → Word
  | [b0] => b0.setWidth 32
  | [b0, b1] => (if bigEndian then b0 ++ b1 else b1 ++ b0).setWidth 32
  | [b0, b1, b2, b3] => if bigEndian then b0 ++ b1 ++ b2 ++ b3 else b3 ++ b2 ++ b1 ++ b0
  | _ => 0

/-- The four bytes of a word in address order (20_memory.md R63). -/
def wordBytes (bigEndian : Bool) (v : Word) : List Byte :=
  if bigEndian then
    [v.extractLsb' 24 8, v.extractLsb' 16 8, v.extractLsb' 8 8, v.extractLsb' 0 8]
  else
    [v.extractLsb' 0 8, v.extractLsb' 8 8, v.extractLsb' 16 8, v.extractLsb' 24 8]

/-- The two bytes of a halfword in address order (20_memory.md R63). -/
def halfBytes (bigEndian : Bool) (v : Half) : List Byte :=
  if bigEndian then [v.extractLsb' 8 8, v.extractLsb' 0 8] else [v.extractLsb' 0 8, v.extractLsb' 8 8]

/-! ## The condition field -/

/-- The condition of a 4-bit code (30_encoding.md R93). -/
def Cond.ofBits (c : BitVec 4) : Cond :=
  match c.toNat with
  | 0 => .eq | 1 => .ne | 2 => .cs | 3 => .cc | 4 => .mi | 5 => .pl | 6 => .vs | 7 => .vc
  | 8 => .hi | 9 => .ls | 10 => .ge | 11 => .lt | 12 => .gt | 13 => .le | 14 => .al | _ => .nv

/-- The 4-bit code of a condition (30_encoding.md R93). -/
def Cond.bits : Cond → BitVec 4
  | .eq => 0b0000#4 | .ne => 0b0001#4 | .cs => 0b0010#4 | .cc => 0b0011#4
  | .mi => 0b0100#4 | .pl => 0b0101#4 | .vs => 0b0110#4 | .vc => 0b0111#4
  | .hi => 0b1000#4 | .ls => 0b1001#4 | .ge => 0b1010#4 | .lt => 0b1011#4
  | .gt => 0b1100#4 | .le => 0b1101#4 | .al => 0b1110#4 | .nv => 0b1111#4

/-! ## The decoder -/

/-- Why the decoder rejects. -/
inductive DecodeError where
  /-- No row of 30_encoding.md R96 matches: `refuse(not in the admitted subset)` (R103). -/
  | notInSubset
  /-- Not four bytes in ARM state or two in THUMB state (R90): no fetch delivers such a list. -/
  | badLength
  deriving DecidableEq, Repr

/-- The condition field of an ARM word (30_encoding.md R92). -/
def condField (w : Word) : Cond := Cond.ofBits (w.extractLsb' 28 4)

/-- One ARM row of 30_encoding.md R96: a word `w` selects it when `w &&& mask = value`. The condition field is
in no mask. -/
structure ArmRow where
  mask : Word
  value : Word
  build : Word → Instr

/-- The ARM rows of 30_encoding.md R96, in its order, with the fields of R94. -/
def armTable : List ArmRow :=
  [ ⟨0x0FFFFFF0, 0x012FFF10, fun w => .bx (condField w) (w.extractLsb' 0 4)⟩,
    ⟨0x0F000000, 0x0A000000, fun w => .b (condField w) (w.extractLsb' 0 24)⟩,
    ⟨0x0F000000, 0x0B000000, fun w => .bl (condField w) (w.extractLsb' 0 24)⟩,
    ⟨0x0FEF0FF0, 0x01A00000, fun w =>
      .movReg (condField w) (w.getLsbD 20) (w.extractLsb' 12 4) (w.extractLsb' 0 4)⟩,
    ⟨0x0FEF0000, 0x03A00000, fun w =>
      .movImm (condField w) (w.getLsbD 20) (w.extractLsb' 12 4) (w.extractLsb' 8 4) (w.extractLsb' 0 8)⟩,
    ⟨0x0FE00FF0, 0x00800000, fun w =>
      .addReg (condField w) (w.getLsbD 20) (w.extractLsb' 16 4) (w.extractLsb' 12 4) (w.extractLsb' 0 4)⟩,
    ⟨0x0FE00000, 0x02800000, fun w =>
      .addImm (condField w) (w.getLsbD 20) (w.extractLsb' 16 4) (w.extractLsb' 12 4) (w.extractLsb' 8 4)
        (w.extractLsb' 0 8)⟩,
    ⟨0x0FE00FF0, 0x00400000, fun w =>
      .subReg (condField w) (w.getLsbD 20) (w.extractLsb' 16 4) (w.extractLsb' 12 4) (w.extractLsb' 0 4)⟩,
    ⟨0x0FE00000, 0x02400000, fun w =>
      .subImm (condField w) (w.getLsbD 20) (w.extractLsb' 16 4) (w.extractLsb' 12 4) (w.extractLsb' 8 4)
        (w.extractLsb' 0 8)⟩,
    ⟨0x0FF0FFF0, 0x01500000, fun w =>
      .cmpReg (condField w) (w.extractLsb' 16 4) (w.extractLsb' 0 4)⟩,
    ⟨0x0FF0F000, 0x03500000, fun w =>
      .cmpImm (condField w) (w.extractLsb' 16 4) (w.extractLsb' 8 4) (w.extractLsb' 0 8)⟩,
    ⟨0x0FBF0FFF, 0x010F0000, fun w => .mrs (condField w) (w.getLsbD 22) (w.extractLsb' 12 4)⟩,
    ⟨0x0FB0FFF0, 0x0120F000, fun w =>
      .msrReg (condField w) (w.getLsbD 22) (w.extractLsb' 16 4) (w.extractLsb' 0 4)⟩,
    ⟨0x0FB0F000, 0x0320F000, fun w =>
      .msrImm (condField w) (w.getLsbD 22) (w.extractLsb' 16 4) (w.extractLsb' 8 4) (w.extractLsb' 0 8)⟩,
    ⟨0x0E500000, 0x04100000, fun w =>
      .ldr (condField w) (w.getLsbD 24) (w.getLsbD 23) (w.getLsbD 21) (w.extractLsb' 16 4)
        (w.extractLsb' 12 4) (w.extractLsb' 0 12)⟩,
    ⟨0x0E500000, 0x04000000, fun w =>
      .str (condField w) (w.getLsbD 24) (w.getLsbD 23) (w.getLsbD 21) (w.extractLsb' 16 4)
        (w.extractLsb' 12 4) (w.extractLsb' 0 12)⟩,
    ⟨0x0E500000, 0x04500000, fun w =>
      .ldrb (condField w) (w.getLsbD 24) (w.getLsbD 23) (w.getLsbD 21) (w.extractLsb' 16 4)
        (w.extractLsb' 12 4) (w.extractLsb' 0 12)⟩,
    ⟨0x0E500000, 0x04400000, fun w =>
      .strb (condField w) (w.getLsbD 24) (w.getLsbD 23) (w.getLsbD 21) (w.extractLsb' 16 4)
        (w.extractLsb' 12 4) (w.extractLsb' 0 12)⟩,
    ⟨0x0E5000F0, 0x005000B0, fun w =>
      .ldrh (condField w) (w.getLsbD 24) (w.getLsbD 23) (w.getLsbD 21) (w.extractLsb' 16 4)
        (w.extractLsb' 12 4) (w.extractLsb' 8 4) (w.extractLsb' 0 4)⟩,
    ⟨0x0E5000F0, 0x004000B0, fun w =>
      .strh (condField w) (w.getLsbD 24) (w.getLsbD 23) (w.getLsbD 21) (w.extractLsb' 16 4)
        (w.extractLsb' 12 4) (w.extractLsb' 8 4) (w.extractLsb' 0 4)⟩,
    ⟨0x0E100000, 0x08100000, fun w =>
      .ldm (condField w) (w.getLsbD 24) (w.getLsbD 23) (w.getLsbD 22) (w.getLsbD 21) (w.extractLsb' 16 4)
        (w.extractLsb' 0 16)⟩,
    ⟨0x0E100000, 0x08000000, fun w =>
      .stm (condField w) (w.getLsbD 24) (w.getLsbD 23) (w.getLsbD 22) (w.getLsbD 21) (w.extractLsb' 16 4)
        (w.extractLsb' 0 16)⟩,
    ⟨0x0FF00FF0, 0x01000090, fun w =>
      .swp (condField w) (w.extractLsb' 16 4) (w.extractLsb' 12 4) (w.extractLsb' 0 4)⟩,
    ⟨0x0FF00FF0, 0x01400090, fun w =>
      .swpb (condField w) (w.extractLsb' 16 4) (w.extractLsb' 12 4) (w.extractLsb' 0 4)⟩,
    ⟨0x0F000000, 0x0F000000, fun w => .swi (condField w) (w.extractLsb' 0 24)⟩,
    ⟨0x0E000010, 0x06000010, fun w => .und (condField w) (w.extractLsb' 5 20) (w.extractLsb' 0 4)⟩ ]

/-- The ARM decoder (30_encoding.md R96, R103): the row the word selects, or the refusal of a word outside the
admitted subset. The condition is not looked at: its value 1111 is refused when it is tested (R93). -/
def decodeArm (w : Word) : Except DecodeError Instr :=
  match armTable.find? (fun r => w &&& r.mask == r.value) with
  | some r => .ok (r.build w)
  | none => .error .notInSubset

/-- `Rd = H1 :: Rd3` of format T-HI (30_encoding.md R101). -/
def thumbRd (h : Half) : RegNum := h.extractLsb' 7 1 ++ h.extractLsb' 0 3

/-- The THUMB decoder: the rows of 30_encoding.md R96, the SWI row before the B<cond> row, and the
condition 1110 refused (R95). -/
def decodeThumb (h : Half) : Except DecodeError Instr :=
  if h &&& 0xFF00 = 0x4400 then .ok (.tAdd (thumbRd h) (h.extractLsb' 3 4))
  else if h &&& 0xFF00 = 0x4500 then .ok (.tCmp (thumbRd h) (h.extractLsb' 3 4))
  else if h &&& 0xFF00 = 0x4600 then .ok (.tMov (thumbRd h) (h.extractLsb' 3 4))
  else if h &&& 0xFF87 = 0x4700 then .ok (.tBx (h.extractLsb' 3 4))
  else if h &&& 0xFF00 = 0xDF00 then .ok (.tSwi (h.extractLsb' 0 8))
  else if h &&& 0xFF00 = 0xDE00 then .error .notInSubset
  else if h &&& 0xF000 = 0xD000 then .ok (.tB (Cond.ofBits (h.extractLsb' 8 4)) (h.extractLsb' 0 8))
  else .error .notInSubset

/-- The decoder on the bytes a fetch delivers, in address order: the state bit alone chooses the table
(30_encoding.md R91), the byte order is that of data (20_memory.md R64). -/
def decode (bigEndian thumb : Bool) (bytes : List Byte) : Except DecodeError Instr :=
  match thumb, bytes with
  | false, [_, _, _, _] => decodeArm (assemble bigEndian bytes)
  | true, [_, _] => decodeThumb ((assemble bigEndian bytes).setWidth 16)
  | _, _ => .error .badLength

/-- The instruction the decoder reads from an instruction whose bits are `w`, as the opcode table numbers them:
rows of 32 bits are ARM words, rows of 16 bits THUMB halfwords. The bytes are laid out little-endian (log 8). -/
def decodeTableWord (nbits w : Nat) : Option Instr :=
  if nbits = 32 then (decode false false (wordBytes false (BitVec.ofNat 32 w))).toOption
  else if nbits = 16 then (decode false true (halfBytes false (BitVec.ofNat 16 w))).toOption
  else none

/-! ## The encoder -/

/-- An encoded instruction: a 32-bit ARM word or a 16-bit THUMB halfword (30_encoding.md R90). -/
inductive Code where
  | arm (w : Word)
  | thumb (h : Half)
  deriving DecidableEq, Repr

/-- One bit of an encoding. -/
def flag (b : Bool) : BitVec 1 := BitVec.ofBool b

/-- The encoding of each instruction, written from the formats of 30_encoding.md R94 and R95. -/
def encode : Instr → Code
  | .bx cond rm => .arm (cond.bits ++ 0x12FFF1#24 ++ rm)
  | .b cond offset => .arm (cond.bits ++ 0b1010#4 ++ offset)
  | .bl cond offset => .arm (cond.bits ++ 0b1011#4 ++ offset)
  | .movReg cond sf rd rm =>
      .arm (cond.bits ++ 0b0001101#7 ++ flag sf ++ 0#4 ++ rd ++ 0#8 ++ rm)
  | .movImm cond sf rd rot imm =>
      .arm (cond.bits ++ 0b0011101#7 ++ flag sf ++ 0#4 ++ rd ++ rot ++ imm)
  | .addReg cond sf rn rd rm =>
      .arm (cond.bits ++ 0b0000100#7 ++ flag sf ++ rn ++ rd ++ 0#8 ++ rm)
  | .addImm cond sf rn rd rot imm =>
      .arm (cond.bits ++ 0b0010100#7 ++ flag sf ++ rn ++ rd ++ rot ++ imm)
  | .subReg cond sf rn rd rm =>
      .arm (cond.bits ++ 0b0000010#7 ++ flag sf ++ rn ++ rd ++ 0#8 ++ rm)
  | .subImm cond sf rn rd rot imm =>
      .arm (cond.bits ++ 0b0010010#7 ++ flag sf ++ rn ++ rd ++ rot ++ imm)
  | .cmpReg cond rn rm => .arm (cond.bits ++ 0b00010101#8 ++ rn ++ 0#12 ++ rm)
  | .cmpImm cond rn rot imm => .arm (cond.bits ++ 0b00110101#8 ++ rn ++ 0#4 ++ rot ++ imm)
  | .mrs cond spsr rd =>
      .arm (cond.bits ++ 0b00010#5 ++ flag spsr ++ 0b00#2 ++ 0b1111#4 ++ rd ++ 0#12)
  | .msrReg cond spsr mask rm =>
      .arm (cond.bits ++ 0b00010#5 ++ flag spsr ++ 0b10#2 ++ mask ++ 0b1111#4 ++ 0#8 ++ rm)
  | .msrImm cond spsr mask rot imm =>
      .arm (cond.bits ++ 0b00110#5 ++ flag spsr ++ 0b10#2 ++ mask ++ 0b1111#4 ++ rot ++ imm)
  | .ldr cond p u w rn rd offset =>
      .arm (cond.bits ++ 0b010#3 ++ flag p ++ flag u ++ 0#1 ++ flag w ++ 1#1 ++ rn ++ rd ++ offset)
  | .str cond p u w rn rd offset =>
      .arm (cond.bits ++ 0b010#3 ++ flag p ++ flag u ++ 0#1 ++ flag w ++ 0#1 ++ rn ++ rd ++ offset)
  | .ldrb cond p u w rn rd offset =>
      .arm (cond.bits ++ 0b010#3 ++ flag p ++ flag u ++ 1#1 ++ flag w ++ 1#1 ++ rn ++ rd ++ offset)
  | .strb cond p u w rn rd offset =>
      .arm (cond.bits ++ 0b010#3 ++ flag p ++ flag u ++ 1#1 ++ flag w ++ 0#1 ++ rn ++ rd ++ offset)
  | .ldrh cond p u w rn rd immH immL =>
      .arm (cond.bits ++ 0b000#3 ++ flag p ++ flag u ++ 1#1 ++ flag w ++ 1#1 ++ rn ++ rd ++ immH ++ 0b1011#4 ++ immL)
  | .strh cond p u w rn rd immH immL =>
      .arm (cond.bits ++ 0b000#3 ++ flag p ++ flag u ++ 1#1 ++ flag w ++ 0#1 ++ rn ++ rd ++ immH ++ 0b1011#4 ++ immL)
  | .ldm cond p u sbit w rn list =>
      .arm (cond.bits ++ 0b100#3 ++ flag p ++ flag u ++ flag sbit ++ flag w ++ 1#1 ++ rn ++ list)
  | .stm cond p u sbit w rn list =>
      .arm (cond.bits ++ 0b100#3 ++ flag p ++ flag u ++ flag sbit ++ flag w ++ 0#1 ++ rn ++ list)
  | .swp cond rn rd rm => .arm (cond.bits ++ 0b00010000#8 ++ rn ++ rd ++ 0b00001001#8 ++ rm)
  | .swpb cond rn rd rm => .arm (cond.bits ++ 0b00010100#8 ++ rn ++ rd ++ 0b00001001#8 ++ rm)
  | .swi cond comment => .arm (cond.bits ++ 0b1111#4 ++ comment)
  | .und cond high low => .arm (cond.bits ++ 0b011#3 ++ high ++ 1#1 ++ low)
  | .tAdd rd rs => .thumb (0b01000100#8 ++ rd.extractLsb' 3 1 ++ rs ++ rd.extractLsb' 0 3)
  | .tCmp rd rs => .thumb (0b01000101#8 ++ rd.extractLsb' 3 1 ++ rs ++ rd.extractLsb' 0 3)
  | .tMov rd rs => .thumb (0b01000110#8 ++ rd.extractLsb' 3 1 ++ rs ++ rd.extractLsb' 0 3)
  | .tBx rs => .thumb (0b010001110#9 ++ rs ++ 0b000#3)
  | .tB cond offset => .thumb (0b1101#4 ++ cond.bits ++ offset)
  | .tSwi value => .thumb (0b11011111#8 ++ value)

/-- The instruction set of an encoded instruction: the state bit T under which it is one (30_encoding.md R91). -/
def Code.isThumb : Code → Bool
  | .arm _ => false
  | .thumb _ => true

/-- The bytes of an encoded instruction in address order (20_memory.md R64). -/
def Code.bytes (bigEndian : Bool) : Code → List Byte
  | .arm w => wordBytes bigEndian w
  | .thumb h => halfBytes bigEndian h

end Sys2Proof
end

