-- ==== Sys2Proof/Config.lean ====
section
/-!
DEFINITION. What is fixed for one machine (the record `cfg` of spec/00_scope.md R7) and the free values
that stand for what the spec calls unspecified (00_scope.md R12).
-/

namespace Sys2Proof

/-- The open parameters of 00_scope.md R7, constant for a run. They are plain data inside State, so that a
statement about every state is a statement about every choice of them (log 8, log 9). -/
structure Config where
  /-- The level of the BIGEND input of the core (20_memory.md R62). -/
  bigEndian : Bool
  /-- The address at which a run is taken to end (70_reset_and_hazards.md R283). -/
  endPc : Option Word
  deriving DecidableEq, Repr

/-- The n-th free byte: what a read of a memory byte without a value gives (00_scope.md R12; log 4, log 5).
No body, so nothing can be proved of its value. -/
opaque Config.freeByte : Nat → Byte

/-- What reading a general register that holds no value gives, by the count of draws, the register's number, and whether it
is the second register operand that reads it (00_scope.md R12; log 5). -/
opaque Config.freeRegister : Nat → BitVec 4 → Bool → Word

/-- The bits that stand in for the fields without a value when a status register is read, by the count of draws, and whether
an instruction reads it, after the test of its condition (00_scope.md R12; log 5). -/
opaque Config.freeStatus : Nat → Bool → Word

/-- The n-th free pattern of the reserved PSR bits [27:8] (42_psr_access.md R150; log 10). -/
opaque Config.freeReserved : Nat → BitVec 20

end Sys2Proof
end

