-- ==== Sys2Proof/Machine/State.lean ====
section
/-!
DEFINITION. The state of the core as plain data (spec/10_state.md R20): the 31 general registers, the CPSR and
the five SPSRs, memory, the hidden flag `wedged`, the parameters `cfg`, and the model's own fields for the
environment and for free values; the reasons a step stops; and the state after reset (R48).
-/

namespace Sys2Proof.Machine

/-- The seven operating modes (10_state.md R45). -/
inductive Mode where
  | usr | fiq | irq | svc | abt | und | sys
  deriving DecidableEq, Repr

/-- The names of the 31 physical general registers (10_state.md R23); `r8usr` to `r14usr` are the copies that
User and System mode see, `r8usr` to `r12usr` those of every mode but FIQ. -/
inductive PhysReg where
  | r0 | r1 | r2 | r3 | r4 | r5 | r6 | r7
  | r8usr | r9usr | r10usr | r11usr | r12usr
  | r8fiq | r9fiq | r10fiq | r11fiq | r12fiq
  | r13usr | r14usr | r13fiq | r14fiq | r13irq | r14irq
  | r13svc | r14svc | r13abt | r14abt | r13und | r14und
  | r15
  deriving DecidableEq, Repr

/-- What a register or a field of a status register holds: a value, or no value, which the spec calls unspecified
(00_scope.md R12). None is unspecified at State.reset; an aborted load and a reset of a running machine leave some so. -/
inductive Held (α : Type) where
  | value (v : α)
  | unspecified
  deriving DecidableEq, Repr

/-- The 31 general registers (10_state.md R23). `r15` is the program counter: the address of the instruction
being executed (R30). -/
structure RegFile where
  r0 : Held Word
  r1 : Held Word
  r2 : Held Word
  r3 : Held Word
  r4 : Held Word
  r5 : Held Word
  r6 : Held Word
  r7 : Held Word
  r8usr : Held Word
  r9usr : Held Word
  r10usr : Held Word
  r11usr : Held Word
  r12usr : Held Word
  r8fiq : Held Word
  r9fiq : Held Word
  r10fiq : Held Word
  r11fiq : Held Word
  r12fiq : Held Word
  r13usr : Held Word
  r14usr : Held Word
  r13fiq : Held Word
  r14fiq : Held Word
  r13irq : Held Word
  r14irq : Held Word
  r13svc : Held Word
  r14svc : Held Word
  r13abt : Held Word
  r14abt : Held Word
  r13und : Held Word
  r14und : Held Word
  r15 : Word
  deriving DecidableEq, Repr

/-- The condition code flags (10_state.md R36). -/
structure Flags where
  n : Bool
  z : Bool
  c : Bool
  v : Bool
  deriving DecidableEq, Repr

/-- The condition code flags as a status register holds them (10_state.md R36). -/
structure HeldFlags where
  n : Held Bool
  z : Held Bool
  c : Held Bool
  v : Held Bool
  deriving DecidableEq, Repr

/-- The current program status register as the record of 10_state.md R42. The machine is always in one of the
seven modes: a write of any other value to M wedges the machine instead of completing (R40). -/
structure Cpsr where
  flags : HeldFlags
  i : Bool
  f : Bool
  t : Bool
  mode : Mode
  deriving DecidableEq, Repr

/-- What reading a program status register gives: the same record, with any 5-bit pattern in M (10_state.md R42). -/
structure Psr where
  flags : Flags
  i : Bool
  f : Bool
  t : Bool
  m : BitVec 5
  deriving DecidableEq, Repr

/-- A saved program status register: any 5-bit pattern in M, since an SPSR is only storage (10_state.md R40, R42). -/
structure HeldPsr where
  flags : HeldFlags
  i : Held Bool
  f : Held Bool
  t : Held Bool
  m : Held (BitVec 5)
  deriving DecidableEq, Repr

/-- The five modes that have an SPSR (10_state.md R43). -/
inductive SpsrName where
  | fiq | irq | svc | abt | und
  deriving DecidableEq, Repr

/-- The five saved program status registers (10_state.md R33). -/
structure SpsrFile where
  fiq : HeldPsr
  irq : HeldPsr
  svc : HeldPsr
  abt : HeldPsr
  und : HeldPsr
  deriving DecidableEq, Repr

/-- The seven exceptions (60_exceptions.md R221). -/
inductive Exn where
  | reset | undefined | swi | prefetchAbort | dataAbort | irq | fiq
  deriving DecidableEq, Repr

/-- The levels of the three input lines at one instruction boundary (60_exceptions.md R220, R240). They are
active low: `true` is high, not asserted. -/
structure Lines where
  nRESET : Bool
  nFIQ : Bool
  nIRQ : Bool
  deriving DecidableEq, Repr

/-- No line asserted. -/
def Lines.idle : Lines := ⟨true, true, true⟩

/-- Memory as the bytes that hold a value, at addresses below 2^32, strictly rising; an unlisted byte holds no
value (20_memory.md R60; 10_state.md R48; log 4). -/
abbrev Memory := List Host.Cell

/-- The canonical form of memory. No entry can equal what an unlisted address reads as, since that is no value. -/
abbrev Memory.wf (m : Memory) : Prop :=
  m.Pairwise (fun c d => c.1 < d.1) ∧ ∀ c ∈ m, c.1 < 2 ^ 32

/-- A set of byte addresses: strictly rising, below 2^32. -/
abbrev AddrSet := List Nat

/-- The canonical form of a set of addresses. -/
abbrev AddrSet.wf (m : AddrSet) : Prop :=
  m.Pairwise (fun a b => a < b) ∧ ∀ a ∈ m, a < 2 ^ 32

/-- The state of the machine. -/
structure State where
  /-- The general registers, the pc among them (10_state.md R23). -/
  regs : RegFile
  /-- The current program status register (10_state.md R33). -/
  cpsr : Cpsr
  /-- The saved program status registers (10_state.md R33). -/
  spsrs : SpsrFile
  /-- The bytes of memory that hold a value (20_memory.md R60). -/
  mem : Memory
  /-- The bytes that a store of this run has written (20_memory.md R80; log 13). -/
  modified : AddrSet
  /-- The unrecoverable state (10_state.md R40). -/
  wedged : Bool
  /-- The open parameters (00_scope.md R7). -/
  cfg : Config
  /-- The model's own: the input lines at the coming instruction boundaries; high after the last (log 6). -/
  lines : List Lines
  /-- The model's own: the environment's answers to the coming accesses, `true` for abort; none aborts after the
  last (20_memory.md R70; log 7). -/
  aborts : List Bool
  /-- The model's own: the count of draws, which names the free values; every step advances it, and so does every free
  byte and every free pattern of reserved bits (00_scope.md R12; log 5). -/
  draws : Nat
  deriving DecidableEq, Repr

/-- Why the machine stops for good. -/
inductive Fault where
  /-- The machine is wedged and no reset is to come: raised by step (10_state.md R40, 00_scope.md R11 item 4).
  Safe: the spec gives a wedged machine no step but Reset. -/
  | wedged
  deriving DecidableEq, Repr

/-- The situations to which the spec gives no meaning, one for each `refuse(<reason>)` of its rules
(00_scope.md R11 item 3). All are safe: nothing is claimed of what follows. -/
inductive Refusal where
  /-- The instruction has no meaning in the model yet. Raised by exec's arms; safe. -/
  | notModelled (mnemonic : String)
  /-- A word outside the admitted subset (30_encoding.md R103). Raised by step; safe. -/
  | notInSubset
  /-- The condition field is 1111 (30_encoding.md R93). Raised by every ARM instruction; safe. -/
  | cond1111
  /-- A misaligned value would reach the pc (10_state.md R32). Raised by jumps, LDM, exception returns, and by step
  on a misaligned pc, which no run reaches; safe. -/
  | misalignedPc
  /-- The pc would pass an end of the address space (10_state.md R32, 40_branch_and_state_switch.md R121). Raised by every
  instruction that advances or branches; safe. -/
  | pcWrap
  /-- R15 read as an operand or base (10_state.md R31). Raised by every instruction with a register operand; safe. -/
  | r15Operand
  /-- R15 as the data register of a single transfer (43_load_store.md R174). Safe. -/
  | r15DataRegister
  /-- R15 in a swap (43_load_store.md R168). Safe. -/
  | r15InSwap
  /-- MRS to R15 (42_psr_access.md R151). Safe. -/
  | mrsToR15
  /-- An SPSR is needed in User or System mode (10_state.md R43). Raised by MRS, MSR, exception returns; safe. -/
  | noSpsr
  /-- MSR would change the T bit of the CPSR (10_state.md R39, 42_psr_access.md R152). Safe. -/
  | tBitChanged
  /-- A misaligned data access (20_memory.md R66). Raised by loads, stores, block transfers, SWP; safe. -/
  | misalignedAccess
  /-- A single transfer with P = 0 and W = 1 (43_load_store.md R174). Safe. -/
  | postIndexedW
  /-- A single transfer that writes back to its data register (43_load_store.md R174). Safe. -/
  | writebackToData
  /-- LDM or STM with the S bit (43_load_store.md R175). Safe. -/
  | blockSBit
  /-- LDM or STM of no register (43_load_store.md R175). Safe. -/
  | emptyList
  /-- LDM or STM with write-back and the base in the list (43_load_store.md R175). Safe. -/
  | writebackInList
  /-- A swap whose base is a data register (43_load_store.md R168). Safe. -/
  | swapBaseIsData
  /-- A T-HI instruction with both registers low (45_thumb.md R200). Safe. -/
  | bothLow
  /-- A fetch from a byte that a store of the run has written (20_memory.md R80). Raised by step; safe. -/
  | fetchModified
  deriving DecidableEq, Repr

/-- All general registers 0: the spec states a reset value for none but the pc, which is 0 (10_state.md R48; log 1). -/
def RegFile.zero : RegFile :=
  let z := .value 0
  ⟨z, z, z, z, z, z, z, z, z, z, z, z, z, z, z, z, z, z, z, z, z, z, z, z, z, z, z, z, z, z, 0⟩

/-- Flags that are all 0 (log 2). -/
def HeldFlags.zero : HeldFlags := ⟨.value false, .value false, .value false, .value false⟩

/-- An SPSR with every bit 0 (log 3). -/
def HeldPsr.zero : HeldPsr := ⟨HeldFlags.zero, .value false, .value false, .value false, .value 0⟩

/-- The machine right after reset (10_state.md R48, 70_reset_and_hazards.md R271, R272): Supervisor mode, ARM state, IRQ and FIQ
disabled, pc = 0, not wedged, no byte of memory with a value. The values the spec leaves unspecified are 0
(DESIGN CHOICE, log 1, 2, 3, 8, 9); the model's own fields are those of log 5, 6, 7, 13. -/
def State.reset : State where
  regs := RegFile.zero
  cpsr := ⟨HeldFlags.zero, true, true, false, .svc⟩
  spsrs := ⟨HeldPsr.zero, HeldPsr.zero, HeldPsr.zero, HeldPsr.zero, HeldPsr.zero⟩
  mem := []
  modified := []
  wedged := false
  cfg := ⟨false, none⟩
  lines := []
  aborts := []
  draws := 0

end Sys2Proof.Machine
end

