-- ==== Sys2Proof/Machine/Ops.lean ====
section
/-!
DEFINITION. The shared operations: modes and banks (spec/10_state.md R24, R38, R43), registers and status registers,
memory with its aborts (20_memory.md R63, R70), reads of what holds no value (00_scope.md R12), taking an exception
(60_exceptions.md R225) and returning from one (41_data_processing.md R136), reset (70_reset_and_hazards.md R271), and how
an instruction ends.
-/

namespace Sys2Proof.Machine

/-- What an instruction, and a step, answers (00_scope.md R11). -/
abbrev Result := Host.Outcome State Fault Refusal

/-! ## Modes and banks -/

/-- M[4:0] of a mode (10_state.md R38). -/
def Mode.bits : Mode → BitVec 5
  | .usr => 0b10000#5
  | .fiq => 0b10001#5
  | .irq => 0b10010#5
  | .svc => 0b10011#5
  | .abt => 0b10111#5
  | .und => 0b11011#5
  | .sys => 0b11111#5

/-- The mode of a value of M[4:0]; none for an illegal value (10_state.md R38). -/
def Mode.ofBits (m : BitVec 5) : Option Mode :=
  match m.toNat with
  | 16 => some .usr
  | 17 => some .fiq
  | 18 => some .irq
  | 19 => some .svc
  | 23 => some .abt
  | 27 => some .und
  | 31 => some .sys
  | _ => none

/-- The banking function `bank(m, i)` (10_state.md R24). -/
def bank (m : Mode) (i : RegNum) : PhysReg :=
  match i.toNat with
  | 0 => .r0 | 1 => .r1 | 2 => .r2 | 3 => .r3 | 4 => .r4 | 5 => .r5 | 6 => .r6 | 7 => .r7
  | 8 => if m = .fiq then .r8fiq else .r8usr
  | 9 => if m = .fiq then .r9fiq else .r9usr
  | 10 => if m = .fiq then .r10fiq else .r10usr
  | 11 => if m = .fiq then .r11fiq else .r11usr
  | 12 => if m = .fiq then .r12fiq else .r12usr
  | 13 => match m with
    | .usr | .sys => .r13usr
    | .fiq => .r13fiq
    | .irq => .r13irq
    | .svc => .r13svc
    | .abt => .r13abt
    | .und => .r13und
  | 14 => match m with
    | .usr | .sys => .r14usr
    | .fiq => .r14fiq
    | .irq => .r14irq
    | .svc => .r14svc
    | .abt => .r14abt
    | .und => .r14und
  | _ => .r15

/-- The SPSR of a mode; none in User and System mode (10_state.md R43). -/
def Mode.spsr? : Mode → Option SpsrName
  | .usr => none
  | .fiq => some .fiq
  | .irq => some .irq
  | .svc => some .svc
  | .abt => some .abt
  | .und => some .und
  | .sys => none

/-! ## Registers -/

/-- The value that a read gives: the one held, or the free one where there is none (00_scope.md R12). -/
def Held.read {α : Type} (h : Held α) (free : α) : α :=
  match h with
  | .value v => v
  | .unspecified => free

/-- What one physical register holds; the pc always holds a value. -/
def RegFile.get (r : RegFile) : PhysReg → Held Word
  | .r0 => r.r0 | .r1 => r.r1 | .r2 => r.r2 | .r3 => r.r3
  | .r4 => r.r4 | .r5 => r.r5 | .r6 => r.r6 | .r7 => r.r7
  | .r8usr => r.r8usr | .r9usr => r.r9usr | .r10usr => r.r10usr | .r11usr => r.r11usr | .r12usr => r.r12usr
  | .r8fiq => r.r8fiq | .r9fiq => r.r9fiq | .r10fiq => r.r10fiq | .r11fiq => r.r11fiq | .r12fiq => r.r12fiq
  | .r13usr => r.r13usr | .r14usr => r.r14usr | .r13fiq => r.r13fiq | .r14fiq => r.r14fiq
  | .r13irq => r.r13irq | .r14irq => r.r14irq | .r13svc => r.r13svc | .r14svc => r.r14svc
  | .r13abt => r.r13abt | .r14abt => r.r14abt | .r13und => r.r13und | .r14und => r.r14und
  | .r15 => .value r.r15

/-- Make one physical register hold something. The pc keeps its value when there is none to put. -/
def RegFile.put (r : RegFile) (p : PhysReg) (h : Held Word) : RegFile :=
  match p with
  | .r0 => { r with r0 := h } | .r1 => { r with r1 := h }
  | .r2 => { r with r2 := h } | .r3 => { r with r3 := h }
  | .r4 => { r with r4 := h } | .r5 => { r with r5 := h }
  | .r6 => { r with r6 := h } | .r7 => { r with r7 := h }
  | .r8usr => { r with r8usr := h } | .r9usr => { r with r9usr := h }
  | .r10usr => { r with r10usr := h } | .r11usr => { r with r11usr := h }
  | .r12usr => { r with r12usr := h } | .r8fiq => { r with r8fiq := h }
  | .r9fiq => { r with r9fiq := h } | .r10fiq => { r with r10fiq := h }
  | .r11fiq => { r with r11fiq := h } | .r12fiq => { r with r12fiq := h }
  | .r13usr => { r with r13usr := h } | .r14usr => { r with r14usr := h }
  | .r13fiq => { r with r13fiq := h } | .r14fiq => { r with r14fiq := h }
  | .r13irq => { r with r13irq := h } | .r14irq => { r with r14irq := h }
  | .r13svc => { r with r13svc := h } | .r14svc => { r with r14svc := h }
  | .r13abt => { r with r13abt := h } | .r14abt => { r with r14abt := h }
  | .r13und => { r with r13und := h } | .r14und => { r with r14und := h }
  | .r15 => { r with r15 := h.read r.r15 }

/-- Write one physical register. -/
def RegFile.set (r : RegFile) (p : PhysReg) (v : Word) : RegFile := r.put p (.value v)

/-- The program counter: the address of the instruction being executed (10_state.md R30). -/
def State.pc (s : State) : Word := s.regs.r15

/-- Assign the program counter. -/
def State.setPc (s : State) (v : Word) : State := { s with regs := { s.regs with r15 := v } }

/-- What the copy of a register seen in mode m holds (00_scope.md R9). -/
def State.regIn (s : State) (m : Mode) (i : RegNum) : Held Word := s.regs.get (bank m i)

/-- `x_m[i] <- v`. -/
def State.setRegIn (s : State) (m : Mode) (i : RegNum) (v : Word) : State :=
  { s with regs := s.regs.set (bank m i) v }

/-- `x[i]`, for i not 15, as the first register an instruction reads (00_scope.md R9): no meaning reads R15 through it
(10_state.md R31). Without a value it reads as a draw of this step's own (R12; log 5). -/
def State.reg (s : State) (i : RegNum) : Word :=
  (s.regIn s.cpsr.mode i).read (Config.freeRegister s.draws i false)

/-- `x[i]`, for i not 15, as the second register an instruction reads: another read, so another draw where the register
holds no value (R12; log 5). -/
def State.second (s : State) (i : RegNum) : Word :=
  (s.regIn s.cpsr.mode i).read (Config.freeRegister s.draws i true)

/-- `x[i] <- v`, for i not 15. -/
def State.setReg (s : State) (i : RegNum) (v : Word) : State := s.setRegIn s.cpsr.mode i v

/-- Make `x[i]`, for i not 15, hold something. -/
def State.putReg (s : State) (i : RegNum) (h : Held Word) : State :=
  { s with regs := s.regs.put (bank s.cpsr.mode i) h }

/-- `if wb != none then x[i] <- wb` (43_load_store.md R160). -/
def State.writeBack (s : State) (i : RegNum) : Option Word → State
  | none => s
  | some v => s.setReg i v

/-! ## Status registers -/

/-- Read one SPSR. -/
def SpsrFile.get (p : SpsrFile) : SpsrName → HeldPsr
  | .fiq => p.fiq
  | .irq => p.irq
  | .svc => p.svc
  | .abt => p.abt
  | .und => p.und

/-- Write one SPSR. -/
def SpsrFile.set (p : SpsrFile) (n : SpsrName) (v : HeldPsr) : SpsrFile :=
  match n with
  | .fiq => { p with fiq := v }
  | .irq => { p with irq := v }
  | .svc => { p with svc := v }
  | .abt => { p with abt := v }
  | .und => { p with und := v }

/-- Write the condition code flags of the CPSR. -/
def State.setFlags (s : State) (fl : HeldFlags) : State := { s with cpsr := { s.cpsr with flags := fl } }

/-- Write one SPSR of the state. -/
def State.setSpsr (s : State) (n : SpsrName) (p : HeldPsr) : State := { s with spsrs := s.spsrs.set n p }

/-- Flags that hold these values. -/
def Flags.held (fl : Flags) : HeldFlags := ⟨.value fl.n, .value fl.z, .value fl.c, .value fl.v⟩

/-- A status register that holds these values. -/
def Psr.held (p : Psr) : HeldPsr := ⟨p.flags.held, .value p.i, .value p.f, .value p.t, .value p.m⟩

/-- The flags in bits [31:28] of a word (10_state.md R35). -/
def Flags.ofWord (v : Word) : Flags := ⟨v.getLsbD 31, v.getLsbD 30, v.getLsbD 29, v.getLsbD 28⟩

/-- The PSR in a word; the reserved bits are ignored (10_state.md R35, R42). -/
def Psr.ofWord (v : Word) : Psr :=
  ⟨Flags.ofWord v, v.getLsbD 7, v.getLsbD 6, v.getLsbD 5, v.extractLsb' 0 5⟩

/-- Read flags, with the bits of a free word for those without a value (00_scope.md R12). -/
def HeldFlags.read (h : HeldFlags) (free : Word) : Flags :=
  let d := Flags.ofWord free
  ⟨h.n.read d.n, h.z.read d.z, h.c.read d.c, h.v.read d.v⟩

/-- Read a status register, with the bits of a free word for the fields without a value (00_scope.md R12). -/
def HeldPsr.read (h : HeldPsr) (free : Word) : Psr :=
  let d := Psr.ofWord free
  ⟨h.flags.read free, h.i.read d.i, h.f.read d.f, h.t.read d.t, h.m.read d.m⟩

/-- The flags as the test of a condition reads them (30_encoding.md R93; log 5). -/
def State.flags (s : State) : Flags := s.cpsr.flags.read (Config.freeStatus s.draws false)

/-- The free bits for the status register that an instruction reads, after the test of its condition (log 5). -/
def State.freeStatus (s : State) : Word := Config.freeStatus s.draws true

/-- The copy of the CPSR that an SPSR receives; flags without a value are copied as such (60_exceptions.md R225). -/
def Cpsr.toPsr (c : Cpsr) : HeldPsr := ⟨c.flags, .value c.i, .value c.f, .value c.t, .value c.mode.bits⟩

/-- The CPSR that a saved status restores, once its M names the mode m (41_data_processing.md R136). -/
def Psr.toCpsr (p : Psr) (m : Mode) : Cpsr := ⟨p.flags.held, p.i, p.f, p.t, m⟩

/-- A PSR as a word, with u in the reserved bits [27:8] (42_psr_access.md R150). -/
def Psr.toWord (p : Psr) (u : BitVec 20) : Word :=
  flag p.flags.n ++ flag p.flags.z ++ flag p.flags.c ++ flag p.flags.v ++ u ++ flag p.i ++ flag p.f ++ flag p.t ++ p.m

/-- The level of the external signal TBIT (10_state.md R39). -/
def State.tbit (s : State) : Bool := s.cpsr.t

/-! ## Free draws -/

/-- Count draws. -/
def State.drew (s : State) (k : Nat) : State := { s with draws := s.draws + k }

/-! ## Memory -/

/-- The byte at an address, if it holds a value. -/
def Memory.get? : Memory → Nat → Option Byte
  | [], _ => none
  | (k, b) :: m, a => if k = a then some b else Memory.get? m a

/-- Give the byte at an address a value. -/
def Memory.put : Memory → Nat → Byte → Memory
  | [], a, b => [(a, b)]
  | (k, c) :: m, a, b =>
    if a < k then (a, b) :: (k, c) :: m
    else if k = a then (a, b) :: m
    else (k, c) :: Memory.put m a b

/-- Take its value from the byte at an address. -/
def Memory.forget (m : Memory) (a : Nat) : Memory := m.filter (fun c => c.1 ≠ a)

/-- Add an address to a set. -/
def AddrSet.add : AddrSet → Nat → AddrSet
  | [], a => [a]
  | k :: m, a => if a < k then a :: k :: m else if k = a then k :: m else k :: AddrSet.add m a

/-- The widths of a data access (20_memory.md R61). -/
inductive Size where
  | byte | half | word
  deriving DecidableEq, Repr

/-- The number of bytes of an access (20_memory.md R61). -/
def Size.bytes : Size → Nat
  | .byte => 1
  | .half => 2
  | .word => 4

/-- An address is a multiple of the size (20_memory.md R66). -/
def aligned (size : Size) (addr : Word) : Bool := addr.toNat % size.bytes = 0

/-- The bytes a store of a register places, in address order (20_memory.md R63; 43_load_store.md R163, R165). -/
def storeBytes (bigEndian : Bool) (size : Size) (v : Word) : List Byte :=
  match size with
  | .byte => [v.extractLsb' 0 8]
  | .half => halfBytes bigEndian (v.extractLsb' 0 16)
  | .word => wordBytes bigEndian v

/-- Read n bytes from an address upwards; a byte without a value reads as a fresh free byte
(00_scope.md R12; log 4). -/
def readBytes : Nat → Nat → State → List Byte × State
  | 0, _, s => ([], s)
  | n + 1, a, s =>
    match s.mem.get? a with
    | some b => let (bs, t) := readBytes n (a + 1) s; (b :: bs, t)
    | none => let (bs, t) := readBytes n (a + 1) (s.drew 1); (Config.freeByte s.draws :: bs, t)

/-- Write bytes from an address upwards, and note them as written by this run (20_memory.md R80). -/
def writeBytes : List Byte → Nat → State → State
  | [], _, s => s
  | b :: bs, a, s => writeBytes bs (a + 1) { s with mem := s.mem.put a b, modified := AddrSet.add s.modified a }

/-- The n bytes from an address upwards become unspecified (43_load_store.md R170, R173): they hold no value, and count as
written (log 13, log 14). -/
def forgetBytes : Nat → Nat → State → State
  | 0, _, s => s
  | n + 1, a, s =>
    forgetBytes n (a + 1) { s with mem := s.mem.forget a, modified := AddrSet.add s.modified a }

/-- Does the environment abort the coming access (20_memory.md R70)? -/
def State.abortNow (s : State) : Bool := s.aborts.headD false

/-- The environment has answered one access. -/
def State.answered (s : State) : State := { s with aborts := s.aborts.tail }

/-- `MemRead(addr, n)` (00_scope.md R10): the value, zero-extended, or none for `abort`. -/
def memRead (size : Size) (addr : Word) (s : State) : Option Word × State :=
  if s.abortNow then (none, s.answered)
  else
    let (bs, t) := readBytes size.bytes addr.toNat s.answered
    (some (assemble s.cfg.bigEndian bs), t)

/-- `MemWrite(addr, n, v)` (00_scope.md R10): true for `ok`; false for `abort`, and then memory is as before: the caller
says what becomes of the bytes. -/
def memWrite (size : Size) (addr : Word) (v : Word) (s : State) : Bool × State :=
  if s.abortNow then (false, s.answered)
  else (true, writeBytes (storeBytes s.cfg.bigEndian size v) addr.toNat s.answered)

/-! ## How an instruction ends -/

/-- Advance the pc by the length of the instruction (10_state.md R30); passing the top of the address space is
refused (R32). -/
def advance (n : Nat) (s : State) : Result :=
  if s.pc.toNat + n < 2 ^ 32 then .next (s.setPc (s.pc + BitVec.ofNat 32 n)) else .refused .pcWrap

/-- Branch to the address at a displacement from the instruction (30_encoding.md R99, R101); leaving the address space
is refused (40_branch_and_state_switch.md R121; log 15). -/
def branchBy (disp : Int) (s : State) : Result :=
  let target := (s.pc.toNat : Int) + disp
  if 0 ≤ target ∧ target < 2 ^ 32 then .next (s.setPc (BitVec.ofInt 32 target)) else .refused .pcWrap

/-- Assign the pc in ARM state: bits [1:0] must be 00 (10_state.md R32). -/
def jumpArm (target : Word) (s : State) : Result :=
  if target.extractLsb' 0 2 = 0#2 then .next (s.setPc target) else .refused .misalignedPc

/-- `pc <- v[31:1] :: 0` (40_branch_and_state_switch.md R120, 45_thumb.md R203). -/
def clearBit0 (v : Word) : Word := v.extractLsb' 1 31 ++ 0#1

/-- The branch of BX: bit 0 of the operand selects the state (40_branch_and_state_switch.md R120, 45_thumb.md R204). -/
def exchange (v : Word) (s : State) : Result :=
  if v.getLsbD 0 then .next ({ s with cpsr := { s.cpsr with t := true } }.setPc (clearBit0 v))
  else if v.getLsbD 1 then .refused .misalignedPc
  else .next ({ s with cpsr := { s.cpsr with t := false } }.setPc v)

/-! ## Exceptions -/

/-- The mode an exception enters (60_exceptions.md R222). -/
def Exn.mode : Exn → Mode
  | .reset => .svc
  | .undefined => .und
  | .swi => .svc
  | .prefetchAbort => .abt
  | .dataAbort => .abt
  | .irq => .irq
  | .fiq => .fiq

/-- The SPSR an exception writes (60_exceptions.md R222). -/
def Exn.spsr : Exn → SpsrName
  | .reset => .svc
  | .undefined => .und
  | .swi => .svc
  | .prefetchAbort => .abt
  | .dataAbort => .abt
  | .irq => .irq
  | .fiq => .fiq

/-- The exception vectors (60_exceptions.md R223). -/
def Exn.vector : Exn → Word
  | .reset => 0x00000000
  | .undefined => 0x00000004
  | .swi => 0x00000008
  | .prefetchAbort => 0x0000000C
  | .dataAbort => 0x00000010
  | .irq => 0x00000018
  | .fiq => 0x0000001C

/-- Does the exception set F (60_exceptions.md R225)? -/
def Exn.masksFiq : Exn → Bool
  | .reset => true
  | .fiq => true
  | .undefined | .swi | .prefetchAbort | .dataAbort | .irq => false

/-- `raise E(ret)`: taking an exception (60_exceptions.md R225). -/
def raise (e : Exn) (ret : Word) (s : State) : State :=
  let linked := (s.setRegIn e.mode 14#4 ret).setSpsr e.spsr s.cpsr.toPsr
  { linked with
    cpsr := { s.cpsr with mode := e.mode, t := false, i := true, f := s.cpsr.f || e.masksFiq } }.setPc e.vector

/-- Taking a data abort (60_exceptions.md R226): the link value is the address of the load or store plus 8. -/
def dataAbort (s : State) : State := raise .dataAbort (s.pc + 8#32) s

/-- The machine enters the unrecoverable state (10_state.md R40). -/
def State.wedge (s : State) : State := { s with wedged := true }

/-- May an address be the pc under a state bit (10_state.md R32)? -/
def pcFits (thumb : Bool) (v : Word) : Bool :=
  if thumb then v.getLsbD 0 = false else v.extractLsb' 0 2 = 0#2

/-- Returning from an exception (41_data_processing.md R136): the SPSR of the current mode to the CPSR, the target to the pc. -/
def exceptionReturn (target : Word) (s : State) : Result :=
  match s.cpsr.mode.spsr? with
  | none => .refused .noSpsr
  | some n =>
    let p := (s.spsrs.get n).read s.freeStatus
    match Mode.ofBits p.m with
    | none => .next s.wedge
    | some m =>
      if pcFits p.t target then .next ({ s with cpsr := p.toCpsr m }.setPc target)
      else .refused .misalignedPc

/-! ## Reset -/

/-- The general registers with no value but in the pc (70_reset_and_hazards.md R271). -/
def RegFile.unspecified (pc : Word) : RegFile :=
  let u := .unspecified
  ⟨u, u, u, u, u, u, u, u, u, u, u, u, u, u, u, u, u, u, u, u, u, u, u, u, u, u, u, u, u, u, pc⟩

/-- Flags without a value. -/
def HeldFlags.unspecified : HeldFlags := ⟨.unspecified, .unspecified, .unspecified, .unspecified⟩

/-- A status register without a value. -/
def HeldPsr.unspecified : HeldPsr :=
  ⟨HeldFlags.unspecified, .unspecified, .unspecified, .unspecified, .unspecified⟩

/-- No register but the pc, no flag, no SPSR and no byte of memory holds a value (10_state.md R48,
70_reset_and_hazards.md R271; log 12). -/
def State.scrambled (s : State) : State :=
  let u := HeldPsr.unspecified
  { s with
    regs := RegFile.unspecified s.pc
    cpsr := { s.cpsr with flags := HeldFlags.unspecified }
    spsrs := ⟨u, u, u, u, u⟩
    mem := []
    wedged := false }

/-- Reset applied to a running machine (70_reset_and_hazards.md R271): the entry of R225, which saves the pc and the CPSR;
what it saved, and all it does not write, is unspecified. -/
def takeReset (s : State) : State := (raise .reset s.pc s).scrambled

/-! ## Instruction boundaries -/

/-- The levels of the input lines at this boundary (60_exceptions.md R240). -/
def State.linesNow (s : State) : Lines := s.lines.headD Lines.idle

/-- The boundary has passed: its sample of the lines is used, and the draws of the last step are over (log 5, log 6). -/
def State.boundaryPassed (s : State) : State := { s with lines := s.lines.tail, draws := s.draws + 1 }

/-- The only step of a wedged machine is Reset (10_state.md R40): it waits for the first sample with nRESET low, and
without one it stays (log 11). -/
def wedgedStep (s : State) : Result :=
  match s.lines.dropWhile (fun l => l.nRESET) with
  | [] => .fault .wedged
  | _ :: rest => .next (takeReset { s with lines := rest, draws := s.draws + 1 })

/-! ## Fetch -/

/-- What a fetch delivers. -/
inductive Fetched where
  /-- The bytes of the instruction, in address order, and the state after the access. -/
  | ok (bytes : List Byte) (s : State)
  /-- The environment answered `abort`. -/
  | abort (s : State)
  /-- A byte was written by a store of this run (20_memory.md R80). -/
  | modified
  deriving DecidableEq, Repr

/-- The length of an instruction (30_encoding.md R90, R91). -/
def instrLength (thumb : Bool) : Nat := if thumb then 2 else 4

/-- Has a store of this run written one of the n bytes from an address upwards? -/
def anyModified (m : AddrSet) (a n : Nat) : Bool := m.any (fun k => a ≤ k && k < a + n)

/-- `Fetch(pc, n)` (00_scope.md R10, 20_memory.md R64, R70, R80). -/
def fetch (s : State) : Fetched :=
  let n := instrLength s.cpsr.t
  if anyModified s.modified s.pc.toNat n then .modified
  else if s.abortNow then .abort s.answered
  else
    let (bs, t) := readBytes n s.pc.toNat s.answered
    .ok bs t

end Sys2Proof.Machine
end

