-- ==== Sys2Proof/Machine/Flags.lean ====
section
/-!
DEFINITION. The condition code flags: the tests of spec/30_encoding.md R93 and the results of
spec/41_data_processing.md R135, computed on exact integers.
-/

namespace Sys2Proof.Machine

/-- Does a condition hold (30_encoding.md R93)? The code 1111 never does; `conditional` refuses it first. -/
def condHolds (cond : Cond) (fl : Flags) : Bool :=
  match cond with
  | .eq => fl.z
  | .ne => !fl.z
  | .cs => fl.c
  | .cc => !fl.c
  | .mi => fl.n
  | .pl => !fl.n
  | .vs => fl.v
  | .vc => !fl.v
  | .hi => fl.c && !fl.z
  | .ls => !fl.c || fl.z
  | .ge => fl.n == fl.v
  | .lt => fl.n != fl.v
  | .gt => !fl.z && fl.n == fl.v
  | .le => fl.z || fl.n != fl.v
  | .al => true
  | .nv => false

/-- An integer has no 32-bit two's-complement representation (41_data_processing.md R135). -/
def signedOverflow (x : Int) : Bool := x < -(2 ^ 31) || 2 ^ 31 ≤ x

/-- N, Z, C, V of an addition a + b (41_data_processing.md R135). -/
def addFlags (a b : Word) : Flags where
  n := (a + b).msb
  z := a + b == 0#32
  c := 2 ^ 32 ≤ a.toNat + b.toNat
  v := signedOverflow (a.toInt + b.toInt)

/-- N, Z, C, V of a subtraction a - b, C being NOT borrow (41_data_processing.md R135). -/
def subFlags (a b : Word) : Flags where
  n := (a - b).msb
  z := a - b == 0#32
  c := b.toNat ≤ a.toNat
  v := signedOverflow (a.toInt - b.toInt)

/-- N, Z, C, V of a move with shifter carry-out c, over the old flags; V is unchanged (41_data_processing.md R135): an
unchanged flag is not read, so one without a value stays so (92_eei_decisions.md D16). -/
def moveFlags (v : Word) (carry : Held Bool) (old : HeldFlags) : HeldFlags where
  n := .value v.msb
  z := .value (v == 0#32)
  c := carry
  v := old.v

/-- An ARM instruction under its condition: refused under 1111, else executed when the condition holds and otherwise
only advancing the pc (30_encoding.md R93, 60_exceptions.md R220). -/
def conditional (cond : Cond) (s : State) (body : Result) : Result :=
  if cond = .nv then .refused .cond1111
  else if condHolds cond s.flags then body
  else advance 4 s

end Sys2Proof.Machine
end

