-- ==== Sys2Proof/Machine/Cycle.lean ====
section
/-!
DEFINITION. The order of events in one step (spec/60_exceptions.md R220), over the meaning `run` of an instruction, and placing
an instruction where the next step fetches. Machine/Step.lean closes both over exec.
-/

namespace Sys2Proof.Machine

/-- The end of the step of R220: decode the bytes fetched, and execute; a word outside the subset is refused
(30_encoding.md R103). -/
def decodeAndRun (run : Instr → State → Result) (bytes : List Byte) (s : State) : Result :=
  match decode s.cfg.bigEndian s.cpsr.t bytes with
  | .ok i => run i s
  | .error _ => .refused .notInSubset

/-- Fetch, decode and execute (R220). A misaligned pc, which no run reaches (10_state.md R32, 20_memory.md R67), is refused. -/
def fetchAndRun (run : Instr → State → Result) (s : State) : Result :=
  if pcFits s.cpsr.t s.pc then
    match fetch s with
    | .modified => .refused .fetchModified
    | .abort t => .next (raise .prefetchAbort (t.pc + 4#32) t)
    | .ok bytes t => decodeAndRun run bytes t
  else .refused .misalignedPc

/-- The step of a running machine at a boundary with the lines `l` (R220): FIQ before IRQ before the fetch. -/
def boundaryStep (run : Instr → State → Result) (l : Lines) (s : State) : Result :=
  if l.nFIQ = false ∧ s.cpsr.f = false then .next (raise .fiq (s.pc + 4#32) s)
  else if l.nIRQ = false ∧ s.cpsr.i = false then .next (raise .irq (s.pc + 4#32) s)
  else fetchAndRun run s

/-- One step (R220): reset, then the wedged state, then the boundary. -/
def stepWith (run : Instr → State → Result) (s : State) : Result :=
  if s.linesNow.nRESET = false then .next (takeReset s.boundaryPassed)
  else if s.wedged then wedgedStep s
  else boundaryStep run s.linesNow s.boundaryPassed

/-- Put bytes into memory from an address upwards, as a load from outside the machine: not a store of the run. -/
def placeBytes : List Byte → Nat → Memory → Memory
  | [], _, m => m
  | b :: bs, a, m => placeBytes bs (a + 1) (m.put a b)

/-- The pc made to fit a state bit (10_state.md R30). -/
def alignPc (thumb : Bool) (v : Word) : Word :=
  if thumb then clearBit0 v else v.extractLsb' 2 30 ++ 0#2

/-- An instruction's bits, stored where the next step fetches: the state bit and the pc's alignment follow from the
instruction set, the bytes from the byte order; no line, abort, earlier store or wedged flag keeps the next step
from fetching it (log 21). -/
def placeInstruction (s : State) (thumb : Bool) (w : Nat) : State :=
  let at_ := alignPc thumb s.pc
  let bytes :=
    if thumb then halfBytes s.cfg.bigEndian (BitVec.ofNat 16 w) else wordBytes s.cfg.bigEndian (BitVec.ofNat 32 w)
  { s with
    cpsr := { s.cpsr with t := thumb }
    mem := placeBytes bytes at_.toNat s.mem
    modified := s.modified.filter (fun k => k < at_.toNat || at_.toNat + bytes.length ≤ k)
    wedged := false
    lines := if s.lines = [] then [] else Lines.idle :: s.lines.tail
    aborts := if s.aborts = [] then [] else false :: s.aborts.tail }.setPc at_

end Sys2Proof.Machine
end

