-- ==== Sys2Proof/Machine/Operands.lean ====
section
/-!
DEFINITION. The operand forms: immediates (spec/30_encoding.md R97), register operands (R98), load and store
addresses (R100, 43_load_store.md R174), block addresses (43_load_store.md R175), THUMB register pairs (45_thumb.md R200).
-/

namespace Sys2Proof.Machine

/-- The rotated immediate (30_encoding.md R97). -/
def immValue (rot : BitVec 4) (imm : Byte) : Word := (imm.setWidth 32).rotateRight (2 * rot.toNat)

/-- The shifter carry-out of the rotated immediate, over the old C (30_encoding.md R97). -/
def immCarry (rot : BitVec 4) (imm : Byte) (c : Held Bool) : Held Bool :=
  if rot = 0#4 then c else .value (immValue rot imm).msb

/-- Read a register operand: R15 is refused (10_state.md R31, 30_encoding.md R98). -/
def withReg (i : RegNum) (s : State) (body : Word → Result) : Result :=
  if i = 15#4 then .refused .r15Operand else body (s.reg i)

/-- Read the second register operand of an instruction: R15 is refused (10_state.md R31, 30_encoding.md R98). -/
def withSecond (i : RegNum) (s : State) (body : Word → Result) : Result :=
  if i = 15#4 then .refused .r15Operand else body (s.second i)

/-- The address and the write-back value of a single transfer (43_load_store.md R174). -/
def transferAddress (p u w : Bool) (base offset : Word) : Option (Word × Option Word) :=
  let offAddr := if u then base + offset else base - offset
  match p, w with
  | true, false => some (offAddr, none)
  | true, true => some (offAddr, some offAddr)
  | false, false => some (base, some offAddr)
  | false, true => none

/-- The address computation of a single transfer, with its refusals in the order of 43_load_store.md R174. -/
def withTransfer (size : Size) (p u w : Bool) (rn rd : RegNum) (offset : Word) (s : State)
    (body : Word → Option Word → Result) : Result :=
  if rn = 15#4 then .refused .r15Operand
  else if rd = 15#4 then .refused .r15DataRegister
  else
    match transferAddress p u w (s.reg rn) offset with
    | none => .refused .postIndexedW
    | some (addr, wb) =>
      if wb.isSome ∧ rn = rd then .refused .writebackToData
      else if aligned size addr then body addr wb
      else .refused .misalignedAccess

/-- The offset of format A-LSH (30_encoding.md R100). -/
def halfOffset (immH immL : BitVec 4) : Word := (immH ++ immL).setWidth 32

/-- The sixteen register numbers, ascending. -/
def allRegs : List RegNum :=
  [0#4, 1#4, 2#4, 3#4, 4#4, 5#4, 6#4, 7#4, 8#4, 9#4, 10#4, 11#4, 12#4, 13#4, 14#4, 15#4]

/-- The registers of a register list, ascending (30_encoding.md R94, 43_load_store.md R175). -/
def regsOf (list : BitVec 16) : List RegNum := allRegs.filter (fun i => list.getLsbD i.toNat)

/-- The lowest address and the write-back value of a block transfer of n registers: IA, IB, DA, DB
(43_load_store.md R175). -/
def blockRange (p u : Bool) (base : Word) (n : Nat) : Word × Word :=
  let len := BitVec.ofNat 32 (4 * n)
  match p, u with
  | false, true => (base, base + len)
  | true, true => (base + 4#32, base + len)
  | false, false => (base - len + 4#32, base - len)
  | true, false => (base - len, base - len)

/-- The common part of a block transfer, with its refusals in the order of 43_load_store.md R175. The body receives the
base, the lowest address and the write-back value. -/
def withBlock (p u sbit w : Bool) (rn : RegNum) (list : BitVec 16) (s : State)
    (body : Word → Word → Word → Result) : Result :=
  if sbit then .refused .blockSBit
  else if rn = 15#4 then .refused .r15Operand
  else if list = 0#16 then .refused .emptyList
  else if aligned .word (s.reg rn) = false then .refused .misalignedAccess
  else if w ∧ list.getLsbD rn.toNat then .refused .writebackInList
  else
    let range := blockRange p u (s.reg rn) (regsOf list).length
    body (s.reg rn) range.1 range.2

/-- Neither register of a T-HI instruction is high (45_thumb.md R200). -/
def bothLow (rd rs : RegNum) : Bool := rd.getLsbD 3 = false && rs.getLsbD 3 = false

/-- The source operand of a THUMB ADD, CMP or MOV, with the refusals of 45_thumb.md R200; `readsRd` says whether the
instruction reads Rd. -/
def withThumbSource (readsRd : Bool) (rd rs : RegNum) (s : State) (body : Word → Result) : Result :=
  if bothLow rd rs then .refused .bothLow
  else if rs = 15#4 ∨ (readsRd ∧ rd = 15#4) then .refused .r15Operand
  else body (s.second rs)

end Sys2Proof.Machine
end

