-- ==== Sys2Proof/Machine/Block.lean ====
section
/-!
DEFINITION. Block data transfers: LDM, STM (spec/43_load_store.md R166, R167, R172, R173, R175).
-/

namespace Sys2Proof.Machine

/-- An LDM on its way: has an access aborted, the value loaded for R15 if there is one, and the state. -/
structure BlockLoad where
  aborted : Bool
  newPc : Option Word
  state : State
  deriving DecidableEq, Repr

/-- One register of the loop of R166: after the first abort the reads go on and nothing more is written (R172). -/
def loadOne (i : RegNum) (addr : Word) (b : BlockLoad) : BlockLoad :=
  match memRead .word addr b.state with
  | (none, t) => { b with aborted := true, state := t }
  | (some v, t) =>
    if b.aborted then { b with state := t }
    else if i = 15#4 then { b with newPc := some v, state := t }
    else { b with state := t.setReg i v }

/-- The loop of R166 over the registers still to be loaded, at ascending addresses. -/
def loadBlock : List RegNum → Word → BlockLoad → BlockLoad
  | [], _, b => b
  | i :: is, addr, b => loadBlock is (addr + 4#32) (loadOne i addr b)

/-- The base register of an aborted LDM (R172): written back, or restored when a load has overwritten it to what it held
before. -/
def abortedBase (w : Bool) (rn : RegNum) (list : BitVec 16) (base : Held Word) (wb : Word) (s : State) : State :=
  if w then s.setReg rn wb else if list.getLsbD rn.toNat then s.putReg rn base else s

/-- LDM (R166, R172). -/
def execLdm (cond : Cond) (p u sbit w : Bool) (rn : RegNum) (list : BitVec 16) (s : State) : Result :=
  conditional cond s <|
    withBlock p u sbit w rn list s fun _ start wb =>
      let b := loadBlock (regsOf list) start ⟨false, none, s⟩
      if b.aborted then .next (dataAbort (abortedBase w rn list (s.regIn s.cpsr.mode rn) wb b.state))
      else
        let t := if w then b.state.setReg rn wb else b.state
        match b.newPc with
        | some v => jumpArm v t
        | none => advance 4 t

/-- One register of the loop of R167, with whether an access has aborted: every store is offered to the environment; the
bytes of an aborted one become unspecified (R173). -/
def storeOne (i : RegNum) (addr : Word) (b : Bool × State) : Bool × State :=
  match memWrite .word addr (b.2.second i) b.2 with
  | (false, t) => (true, forgetBytes 4 addr.toNat t)
  | (true, t) => (b.1, t)

/-- The loop of R167 over the registers still to be stored, at ascending addresses. -/
def storeBlock : List RegNum → Word → Bool × State → Bool × State
  | [], _, b => b
  | i :: is, addr, b => storeBlock is (addr + 4#32) (storeOne i addr b)

/-- STM (R167, R173). -/
def execStm (cond : Cond) (p u sbit w : Bool) (rn : RegNum) (list : BitVec 16) (s : State) : Result :=
  conditional cond s <|
    withBlock p u sbit w rn list s fun _ start wb =>
      if list.getLsbD 15 then .refused .r15Operand
      else
        let (aborted, b) := storeBlock (regsOf list) start (false, s)
        let t := if w then b.setReg rn wb else b
        if aborted then .next (dataAbort t) else advance 4 t

end Sys2Proof.Machine
end

