-- ==== Sys2Proof/Machine/Branch.lean ====
section
/-!
DEFINITION. The ARM-state branches BX, B, BL (spec/40_branch_and_state_switch.md R120 to R122).
-/

namespace Sys2Proof.Machine

/-- The displacement of an ARM branch from the branch itself (30_encoding.md R99). -/
def armDisp (offset : BitVec 24) : Int := 8 + 4 * offset.toInt

/-- BX Rm (R120). -/
def execBx (cond : Cond) (rm : RegNum) (s : State) : Result :=
  conditional cond s (withReg rm s fun v => exchange v s)

/-- B target (R121). -/
def execB (cond : Cond) (offset : BitVec 24) (s : State) : Result :=
  conditional cond s (branchBy (armDisp offset) s)

/-- BL target (R122): R14 of the current mode receives the address of the next instruction. -/
def execBl (cond : Cond) (offset : BitVec 24) (s : State) : Result :=
  conditional cond s (branchBy (armDisp offset) (s.setReg 14#4 (s.pc + 4#32)))

end Sys2Proof.Machine
end

