-- ==== Sys2Proof/Machine/DataProcessing.lean ====
section
/-!
DEFINITION. ARM-state data processing: MOV, ADD, SUB, CMP and the exception-return forms
(spec/41_data_processing.md R130 to R136).
-/

namespace Sys2Proof.Machine

/-- The write-back of a data-processing result (R130): a register and, with S, the flags; a jump for Rd = 15; with S and
Rd = 15 the exception return of R136. -/
def writeResult (sf : Bool) (rd : RegNum) (result : Word) (fl : HeldFlags) (s : State) : Result :=
  if rd ≠ 15#4 then advance 4 (if sf then (s.setReg rd result).setFlags fl else s.setReg rd result)
  else if sf then exceptionReturn result s
  else jumpArm result s

/-- The move of R131 with its shifter carry-out. -/
def moveResult (sf : Bool) (rd : RegNum) (v : Word) (carry : Held Bool) (s : State) : Result :=
  writeResult sf rd v (moveFlags v carry s.cpsr.flags) s

/-- The addition of R132. -/
def addResult (sf : Bool) (rd : RegNum) (a b : Word) (s : State) : Result :=
  writeResult sf rd (a + b) (addFlags a b).held s

/-- The subtraction of R133. -/
def subResult (sf : Bool) (rd : RegNum) (a b : Word) (s : State) : Result :=
  writeResult sf rd (a - b) (subFlags a b).held s

/-- The comparison of R134: flags only. -/
def compare (a b : Word) (s : State) : Result := advance 4 (s.setFlags (subFlags a b).held)

/-- MOV{S} Rd, Rm (R131). -/
def execMovReg (cond : Cond) (sf : Bool) (rd rm : RegNum) (s : State) : Result :=
  conditional cond s (withReg rm s fun v => moveResult sf rd v s.cpsr.flags.c s)

/-- MOV{S} Rd, #imm (R131). -/
def execMovImm (cond : Cond) (sf : Bool) (rd : RegNum) (rot : BitVec 4) (imm : Byte) (s : State) : Result :=
  conditional cond s (moveResult sf rd (immValue rot imm) (immCarry rot imm s.cpsr.flags.c) s)

/-- ADD{S} Rd, Rn, Rm (R132). -/
def execAddReg (cond : Cond) (sf : Bool) (rn rd rm : RegNum) (s : State) : Result :=
  conditional cond s (withReg rn s fun a => withSecond rm s fun b => addResult sf rd a b s)

/-- ADD{S} Rd, Rn, #imm (R132). -/
def execAddImm (cond : Cond) (sf : Bool) (rn rd : RegNum) (rot : BitVec 4) (imm : Byte) (s : State) : Result :=
  conditional cond s (withReg rn s fun a => addResult sf rd a (immValue rot imm) s)

/-- SUB{S} Rd, Rn, Rm (R133). -/
def execSubReg (cond : Cond) (sf : Bool) (rn rd rm : RegNum) (s : State) : Result :=
  conditional cond s (withReg rn s fun a => withSecond rm s fun b => subResult sf rd a b s)

/-- SUB{S} Rd, Rn, #imm (R133). -/
def execSubImm (cond : Cond) (sf : Bool) (rn rd : RegNum) (rot : BitVec 4) (imm : Byte) (s : State) : Result :=
  conditional cond s (withReg rn s fun a => subResult sf rd a (immValue rot imm) s)

/-- CMP Rn, Rm (R134). -/
def execCmpReg (cond : Cond) (rn rm : RegNum) (s : State) : Result :=
  conditional cond s (withReg rn s fun a => withSecond rm s fun b => compare a b s)

/-- CMP Rn, #imm (R134). -/
def execCmpImm (cond : Cond) (rn : RegNum) (rot : BitVec 4) (imm : Byte) (s : State) : Result :=
  conditional cond s (withReg rn s fun a => compare a (immValue rot imm) s)

end Sys2Proof.Machine
end

