-- ==== Sys2Proof/Machine/LoadStore.lean ====
section
/-!
DEFINITION. Single data transfers: LDR, STR, LDRB, STRB, LDRH, STRH (spec/43_load_store.md R160 to R165, R170, R174).
-/

namespace Sys2Proof.Machine

/-- A load of a size (R160, R162, R164); on abort the base is written back, Rd becomes unspecified and the data
abort is taken (R170). -/
def load (size : Size) (p u w : Bool) (rn rd : RegNum) (offset : Word) (s : State) : Result :=
  withTransfer size p u w rn rd offset s fun addr wb =>
    match memRead size addr s with
    | (none, t) => .next (dataAbort ((t.writeBack rn wb).putReg rd .unspecified))
    | (some v, t) => advance 4 ((t.setReg rd v).writeBack rn wb)

/-- A store of a size (R161, R163, R165); on abort the base is written back, the bytes become unspecified and the
data abort is taken (R170). -/
def store (size : Size) (p u w : Bool) (rn rd : RegNum) (offset : Word) (s : State) : Result :=
  withTransfer size p u w rn rd offset s fun addr wb =>
    match memWrite size addr (s.second rd) s with
    | (false, t) => .next (dataAbort (forgetBytes size.bytes addr.toNat (t.writeBack rn wb)))
    | (true, t) => advance 4 (t.writeBack rn wb)

/-- LDR (R160). -/
def execLdr (cond : Cond) (p u w : Bool) (rn rd : RegNum) (offset : BitVec 12) (s : State) : Result :=
  conditional cond s (load .word p u w rn rd (offset.setWidth 32) s)

/-- STR (R161). -/
def execStr (cond : Cond) (p u w : Bool) (rn rd : RegNum) (offset : BitVec 12) (s : State) : Result :=
  conditional cond s (store .word p u w rn rd (offset.setWidth 32) s)

/-- LDRB (R162). -/
def execLdrb (cond : Cond) (p u w : Bool) (rn rd : RegNum) (offset : BitVec 12) (s : State) : Result :=
  conditional cond s (load .byte p u w rn rd (offset.setWidth 32) s)

/-- STRB (R163). -/
def execStrb (cond : Cond) (p u w : Bool) (rn rd : RegNum) (offset : BitVec 12) (s : State) : Result :=
  conditional cond s (store .byte p u w rn rd (offset.setWidth 32) s)

/-- LDRH (R164). -/
def execLdrh (cond : Cond) (p u w : Bool) (rn rd : RegNum) (immH immL : BitVec 4) (s : State) : Result :=
  conditional cond s (load .half p u w rn rd (halfOffset immH immL) s)

/-- STRH (R165). -/
def execStrh (cond : Cond) (p u w : Bool) (rn rd : RegNum) (immH immL : BitVec 4) (s : State) : Result :=
  conditional cond s (store .half p u w rn rd (halfOffset immH immL) s)

end Sys2Proof.Machine
end

