-- ==== Sys2Proof/Machine/PsrAccess.lean ====
section
/-!
DEFINITION. Program status register access: MRS, MSR (spec/42_psr_access.md R150 to R152).
-/

namespace Sys2Proof.Machine

/-- The PSR an MRS reads: the CPSR, or the SPSR of the current mode, if it has one (R151). -/
def psrRead (spsr : Bool) (s : State) : Option Psr :=
  if spsr then s.cpsr.mode.spsr?.map (fun n => (s.spsrs.get n).read s.freeStatus)
  else some (s.cpsr.toPsr.read s.freeStatus)

/-- MRS Rd, CPSR or SPSR (R151): the reserved bits read as a fresh free draw (R150). -/
def execMrs (cond : Cond) (spsr : Bool) (rd : RegNum) (s : State) : Result :=
  conditional cond s <|
    if rd = 15#4 then .refused .mrsToR15
    else
      match psrRead spsr s with
      | none => .refused .noSpsr
      | some p => advance 4 ((s.setReg rd (p.toWord (Config.freeReserved s.draws))).drew 1)

/-- The f bit of a field mask (R152). -/
def maskF (mask : BitVec 4) : Bool := mask.getLsbD 3

/-- The c bit of a field mask (R152). -/
def maskC (mask : BitVec 4) : Bool := mask.getLsbD 0

/-- MSR to the CPSR (R152). In User mode the control byte is not written. -/
def msrCpsr (mask : BitVec 4) (v : Word) (s : State) : Result :=
  let flags := if maskF mask then (Flags.ofWord v).held else s.cpsr.flags
  if maskC mask ∧ s.cpsr.mode ≠ .usr then
    if v.getLsbD 5 ≠ s.cpsr.t then .refused .tBitChanged
    else
      match Mode.ofBits (v.extractLsb' 0 5) with
      | none => .next s.wedge
      | some m => advance 4 { s with cpsr := ⟨flags, v.getLsbD 7, v.getLsbD 6, s.cpsr.t, m⟩ }
  else advance 4 (s.setFlags flags)

/-- The fields of a PSR that an MSR to an SPSR writes (R152). -/
def HeldPsr.masked (p : HeldPsr) (mask : BitVec 4) (v : Word) : HeldPsr :=
  let q := (Psr.ofWord v).held
  let r := if maskF mask then { p with flags := q.flags } else p
  if maskC mask then { q with flags := r.flags } else r

/-- MSR to the SPSR of the current mode (R152). -/
def msrSpsr (mask : BitVec 4) (v : Word) (s : State) : Result :=
  match s.cpsr.mode.spsr? with
  | none => .refused .noSpsr
  | some n => advance 4 (s.setSpsr n ((s.spsrs.get n).masked mask v))

/-- MSR psr_fields, v (R152). -/
def msr (spsr : Bool) (mask : BitVec 4) (v : Word) (s : State) : Result :=
  if spsr then msrSpsr mask v s else msrCpsr mask v s

/-- MSR psr_fields, Rm (R152). -/
def execMsrReg (cond : Cond) (spsr : Bool) (mask : BitVec 4) (rm : RegNum) (s : State) : Result :=
  conditional cond s (withReg rm s fun v => msr spsr mask v s)

/-- MSR psr_fields, #imm (R152). -/
def execMsrImm (cond : Cond) (spsr : Bool) (mask : BitVec 4) (rot : BitVec 4) (imm : Byte) (s : State) : Result :=
  conditional cond s (msr spsr mask (immValue rot imm) s)

end Sys2Proof.Machine
end

