-- ==== Sys2Proof/Machine/Swap.lean ====
section
/-!
DEFINITION. The swaps SWP and SWPB (spec/43_load_store.md R168, R169, R171).
-/

namespace Sys2Proof.Machine

/-- A swap of a size (R168, R169): read, write, then Rd; an abort of either access leaves registers and memory as they were
(R171). -/
def swap (size : Size) (rn rd rm : RegNum) (s : State) : Result :=
  if rd = 15#4 ∨ rm = 15#4 ∨ rn = 15#4 then .refused .r15InSwap
  else if rn = rm ∨ rn = rd then .refused .swapBaseIsData
  else if aligned size (s.reg rn) = false then .refused .misalignedAccess
  else
    match memRead size (s.reg rn) s with
    | (none, t) => .next (dataAbort t)
    | (some v, t) =>
      match memWrite size (s.reg rn) (s.second rm) t with
      | (false, t') => .next (dataAbort t')
      | (true, t') => advance 4 (t'.setReg rd v)

/-- SWP (R168). -/
def execSwp (cond : Cond) (rn rd rm : RegNum) (s : State) : Result :=
  conditional cond s (swap .word rn rd rm s)

/-- SWPB (R169): no alignment requirement, since every address is a multiple of one. -/
def execSwpb (cond : Cond) (rn rd rm : RegNum) (s : State) : Result :=
  conditional cond s (swap .byte rn rd rm s)

end Sys2Proof.Machine
end

