-- ==== Sys2Proof/Machine/Thumb.lean ====
section
/-!
DEFINITION. The THUMB-state instructions of the subset (spec/45_thumb.md R200 to R206).
-/

namespace Sys2Proof.Machine

/-- ADD Rd, Rs on high registers (R201): no flags. -/
def execTAdd (rd rs : RegNum) (s : State) : Result :=
  withThumbSource true rd rs s fun v => advance 2 (s.setReg rd (s.reg rd + v))

/-- CMP Rd, Rs on high registers (R202). -/
def execTCmp (rd rs : RegNum) (s : State) : Result :=
  withThumbSource true rd rs s fun v => advance 2 (s.setFlags (subFlags (s.reg rd) v).held)

/-- MOV Rd, Rs on high registers (R203): a move to the PC ignores bit 0 and stays in THUMB state. -/
def execTMov (rd rs : RegNum) (s : State) : Result :=
  withThumbSource false rd rs s fun v =>
    if rd ≠ 15#4 then advance 2 (s.setReg rd v) else .next (s.setPc (clearBit0 v))

/-- BX Rs (R204). -/
def execTBx (rs : RegNum) (s : State) : Result := withReg rs s fun v => exchange v s

/-- The displacement of the THUMB branch from the branch itself (30_encoding.md R101). -/
def thumbDisp (offset : Byte) : Int := 4 + 2 * offset.toInt

/-- B<cond> target (R205). The conditions 1110 and 1111 have no encoding here (30_encoding.md R95). -/
def execTB (cond : Cond) (offset : Byte) (s : State) : Result :=
  if condHolds cond s.flags then branchBy (thumbDisp offset) s else advance 2 s

/-- SWI value8 (R206). -/
def execTSwi (_value : Byte) (s : State) : Result := .next (raise .swi (s.pc + 2#32) s)

end Sys2Proof.Machine
end

