-- ==== Sys2Proof/Machine/Trap.lean ====
section
/-!
DEFINITION. The software interrupt and the undefined instruction in ARM state (spec/44_swi_undefined.md R190, R191).
-/

namespace Sys2Proof.Machine

/-- SWI comment (R190): the processor ignores the comment. -/
def execSwi (cond : Cond) (_comment : BitVec 24) (s : State) : Result :=
  conditional cond s (.next (raise .swi (s.pc + 4#32) s))

/-- The undefined instruction (R191). -/
def execUnd (cond : Cond) (_high : BitVec 20) (_low : BitVec 4) (s : State) : Result :=
  conditional cond s (.next (raise .undefined (s.pc + 4#32) s))

end Sys2Proof.Machine
end

