-- ==== Sys2Proof/Machine/Dispatch.lean ====
section
/-!
DEFINITION. exec: one arm per instruction of the admitted subset (spec/30_encoding.md R96), each one call of its meaning.
-/

namespace Sys2Proof.Machine

def exec (i : Instr) (s : State) : Host.Outcome State Fault Refusal :=
  match i with
  | .bx cond rm => Sys2Proof.Machine.execBx cond rm s
  | .b cond offset => Sys2Proof.Machine.execB cond offset s
  | .bl cond offset => Sys2Proof.Machine.execBl cond offset s
  | .movReg cond sf rd rm => Sys2Proof.Machine.execMovReg cond sf rd rm s
  | .movImm cond sf rd rot imm => Sys2Proof.Machine.execMovImm cond sf rd rot imm s
  | .addReg cond sf rn rd rm => Sys2Proof.Machine.execAddReg cond sf rn rd rm s
  | .addImm cond sf rn rd rot imm => Sys2Proof.Machine.execAddImm cond sf rn rd rot imm s
  | .subReg cond sf rn rd rm => Sys2Proof.Machine.execSubReg cond sf rn rd rm s
  | .subImm cond sf rn rd rot imm => Sys2Proof.Machine.execSubImm cond sf rn rd rot imm s
  | .cmpReg cond rn rm => Sys2Proof.Machine.execCmpReg cond rn rm s
  | .cmpImm cond rn rot imm => Sys2Proof.Machine.execCmpImm cond rn rot imm s
  | .mrs cond spsr rd => Sys2Proof.Machine.execMrs cond spsr rd s
  | .msrReg cond spsr mask rm => Sys2Proof.Machine.execMsrReg cond spsr mask rm s
  | .msrImm cond spsr mask rot imm => Sys2Proof.Machine.execMsrImm cond spsr mask rot imm s
  | .ldr cond p u w rn rd offset => Sys2Proof.Machine.execLdr cond p u w rn rd offset s
  | .str cond p u w rn rd offset => Sys2Proof.Machine.execStr cond p u w rn rd offset s
  | .ldrb cond p u w rn rd offset => Sys2Proof.Machine.execLdrb cond p u w rn rd offset s
  | .strb cond p u w rn rd offset => Sys2Proof.Machine.execStrb cond p u w rn rd offset s
  | .ldrh cond p u w rn rd immH immL => Sys2Proof.Machine.execLdrh cond p u w rn rd immH immL s
  | .strh cond p u w rn rd immH immL => Sys2Proof.Machine.execStrh cond p u w rn rd immH immL s
  | .ldm cond p u sbit w rn list => Sys2Proof.Machine.execLdm cond p u sbit w rn list s
  | .stm cond p u sbit w rn list => Sys2Proof.Machine.execStm cond p u sbit w rn list s
  | .swp cond rn rd rm => Sys2Proof.Machine.execSwp cond rn rd rm s
  | .swpb cond rn rd rm => Sys2Proof.Machine.execSwpb cond rn rd rm s
  | .swi cond comment => Sys2Proof.Machine.execSwi cond comment s
  | .und cond high low => Sys2Proof.Machine.execUnd cond high low s
  | .tAdd rd rs => Sys2Proof.Machine.execTAdd rd rs s
  | .tCmp rd rs => Sys2Proof.Machine.execTCmp rd rs s
  | .tMov rd rs => Sys2Proof.Machine.execTMov rd rs s
  | .tBx rs => Sys2Proof.Machine.execTBx rs s
  | .tB cond offset => Sys2Proof.Machine.execTB cond offset s
  | .tSwi value => Sys2Proof.Machine.execTSwi value s

end Sys2Proof.Machine
end

