-- ==== Sys2Proof/Machine/Step.lean ====
section
/-!
DEFINITION. One step of the machine (spec/60_exceptions.md R220), and placing an instruction where the next step fetches.
-/

namespace Sys2Proof.Machine

/-- One step of the machine (R220). -/
def step (s : State) : Host.Outcome State Fault Refusal := stepWith exec s

/-- s with an instruction of the opcode table stored where the next step fetches (log 21): a row of 16 bits is a THUMB
instruction, any other an ARM instruction. -/
def State.withFetchWord (s : State) (nbits w : Nat) : State := placeInstruction s (nbits = 16) w

end Sys2Proof.Machine
end

