-- ==== Sys2Proof/Safety.lean ====
section
/-!
DEFINITION. What statements are made of: the invariant of the machine (spec/10_state.md R30, R32), the end of a run
(70_reset_and_hazards.md R283), and the words statements use for conditions, operand forms and the contents of memory.
-/

namespace Sys2Proof.Machine

/-! ## The invariant and the end of a run -/

/-- The pc is a multiple of 4 in ARM state and of 2 in THUMB state (10_state.md R30). -/
abbrev State.pcAligned (s : State) : Prop := s.pc.toNat % instrLength s.cpsr.t = 0

/-- The invariant that every step keeps: memory and the set of stored bytes are in canonical form, and the pc is aligned. -/
abbrev State.Inv (s : State) : Prop := Memory.wf s.mem ∧ AddrSet.wf s.modified ∧ s.pcAligned

/-- The run has ended: pc = cfg.endPc at an instruction boundary (R283). -/
def State.ended (s : State) : Bool := s.cfg.endPc = some s.pc

/-- How a run of at most k steps stands (R283). -/
inductive RunState where
  | ended (s : State)
  | running (s : State)
  | fault (r : Fault)
  | refused (r : Refusal)
  deriving DecidableEq, Repr

/-- A run of at most k steps, ending where R283 ends it: at the boundary where pc = cfg.endPc, before that boundary's
interrupt check. DESIGN CHOICE (log 9): R283 does not say how the end stands to the reset and wedged tests with which
60_exceptions.md R220 begins that boundary; here the end comes before them, so a run ends at cfg.endPc even with nRESET low
or the machine wedged. -/
def runToEnd : Nat → State → RunState
  | 0, s => if s.ended then .ended s else .running s
  | k + 1, s =>
    if s.ended then .ended s
    else
      match step s with
      | .next t => runToEnd k t
      | .fault r => .fault r
      | .refused r => .refused r

/-! ## Conditions -/

/-- The instruction at the pc can advance the pc by n (10_state.md R32). -/
abbrev State.canAdvance (s : State) (n : Nat) : Prop := s.pc.toNat + n < 2 ^ 32

/-- s after an instruction of n bytes that only advances the pc (10_state.md R30). -/
abbrev State.stepped (s : State) (n : Nat) : State := s.setPc (s.pc + BitVec.ofNat 32 n)

/-- The condition is not 1111 and holds (30_encoding.md R93). -/
abbrev State.passes (s : State) (cond : Cond) : Prop := cond ≠ .nv ∧ condHolds cond s.flags = true

/-- The condition field of an ARM instruction (30_encoding.md R92). -/
def armCond : Instr → Option Cond
  | .bx c _ | .b c _ | .bl c _ | .movReg c .. | .movImm c .. | .addReg c .. | .addImm c .. | .subReg c ..
  | .subImm c .. | .cmpReg c .. | .cmpImm c .. | .mrs c .. | .msrReg c .. | .msrImm c .. | .ldr c .. | .str c ..
  | .ldrb c .. | .strb c .. | .ldrh c .. | .strh c .. | .ldm c .. | .stm c .. | .swp c .. | .swpb c ..
  | .swi c _ | .und c .. => some c
  | .tAdd .. | .tCmp .. | .tMov .. | .tBx .. | .tB .. | .tSwi .. => none

/-- The answers of the environment to the first n coming accesses are all ok (20_memory.md R70). -/
abbrev State.quiet (s : State) (n : Nat) : Prop := ∀ k < n, s.aborts.getD k false = false

/-- Nothing of the environment comes before the fetch at this boundary: no reset, no wedged state, no interrupt that is
enabled (60_exceptions.md R220). -/
abbrev State.undisturbed (s : State) : Prop :=
  s.linesNow.nRESET = true ∧ s.wedged = false ∧ (s.linesNow.nFIQ = true ∨ s.cpsr.f = true) ∧
    (s.linesNow.nIRQ = true ∨ s.cpsr.i = true)

/-- No store of the run has written one of the n bytes from an address upwards (20_memory.md R80). -/
abbrev State.unmodified (s : State) (a n : Nat) : Prop := ∀ x ∈ s.modified, x < a ∨ a + n ≤ x

/-! ## Contents of memory -/

/-- The halfword at an address, if its bytes hold values (20_memory.md R63). -/
def halfAt? (bigEndian : Bool) (m : Memory) (a : Nat) : Option Half :=
  match m.get? a, m.get? (a + 1) with
  | some b0, some b1 => some (if bigEndian then b0 ++ b1 else b1 ++ b0)
  | _, _ => none

/-- The word at an address, if its bytes hold values (20_memory.md R63). -/
def wordAt? (bigEndian : Bool) (m : Memory) (a : Nat) : Option Word :=
  match m.get? a, m.get? (a + 1), m.get? (a + 2), m.get? (a + 3) with
  | some b0, some b1, some b2, some b3 =>
    some (if bigEndian then b0 ++ b1 ++ b2 ++ b3 else b3 ++ b2 ++ b1 ++ b0)
  | _, _, _, _ => none

/-- The value an access of a size finds at an address, zero-extended, if its bytes hold values
(20_memory.md R63). -/
def valueAt? (bigEndian : Bool) (size : Size) (m : Memory) (a : Nat) : Option Word :=
  match size with
  | .byte => (m.get? a).map (fun b => b.setWidth 32)
  | .half => (halfAt? bigEndian m a).map (fun h => h.setWidth 32)
  | .word => wordAt? bigEndian m a

/-- How many of the n bytes from an address upwards hold no value: the draws that reading them takes (log 4). -/
def valueless (m : Memory) (a n : Nat) : Nat :=
  ((List.range n).filter (fun j => decide (m.get? (a + j) = none))).length

/-- What byte j of an access at an address reads as when d draws have been made: its value, or the free byte of its own
draw, the bytes drawing in address order (log 4). -/
def foundByte (m : Memory) (a d j : Nat) : Byte := (m.get? (a + j)).getD (Config.freeByte (d + valueless m a j))

/-- What an access of a size reads at an address when d draws have been made, zero-extended: `valueAt?` with free bytes in
place of those without a value (20_memory.md R63; log 4). -/
def found (bigEndian : Bool) (size : Size) (m : Memory) (a d : Nat) : Word :=
  let b := foundByte m a d
  match size with
  | .byte => (b 0).setWidth 32
  | .half => (if bigEndian then b 0 ++ b 1 else b 1 ++ b 0).setWidth 32
  | .word => if bigEndian then b 0 ++ b 1 ++ b 2 ++ b 3 else b 3 ++ b 2 ++ b 1 ++ b 0

/-- The draws that the first k word reads of a block take, given the address of each (log 4). -/
def blockDraws (m : Memory) (addrOf : Nat → Nat) (k : Nat) : Nat :=
  ((List.range k).map (fun j => valueless m (addrOf j) 4)).sum

/-- The part of a register that a store of a size moves, zero-extended (43_load_store.md R161, R163, R165). -/
def narrowed (size : Size) (v : Word) : Word :=
  match size with
  | .byte => (v.setWidth 8).setWidth 32
  | .half => (v.setWidth 16).setWidth 32
  | .word => v

/-- Every byte outside the n bytes from an address upwards is the same. -/
abbrev SameOutside (s t : State) (a n : Nat) : Prop := ∀ x, x < a ∨ a + n ≤ x → t.mem.get? x = s.mem.get? x

/-- The address of the k-th transfer of a block (43_load_store.md R175). -/
def blockAddr (p u : Bool) (base : Word) (list : BitVec 16) (k : Nat) : Nat :=
  ((blockRange p u base (regsOf list).length).1 + BitVec.ofNat 32 (4 * k)).toNat

/-- The value a block transfer writes back to its base (43_load_store.md R175). -/
def blockWb (p u : Bool) (base : Word) (list : BitVec 16) : Word :=
  (blockRange p u base (regsOf list).length).2

/-- A block transfer the rule does not refuse (43_load_store.md R175). -/
abbrev State.blockLegal (s : State) (w : Bool) (rn : RegNum) (list : BitVec 16) : Prop :=
  rn ≠ 15#4 ∧ list ≠ 0#16 ∧ (s.reg rn).toNat % 4 = 0 ∧ ¬ (w = true ∧ list.getLsbD rn.toNat = true)

/-- Everything but registers, memory, the set of stored bytes and the environment's answers is the same. -/
abbrev SameStatus (s t : State) : Prop :=
  t.cpsr = s.cpsr ∧ t.spsrs = s.spsrs ∧ t.wedged = s.wedged ∧ t.cfg = s.cfg ∧ t.lines = s.lines

/-! ## Operand forms -/

/-- The flags in bits [31:28] of a word (10_state.md R35). -/
def flagsIn (v : Word) : Flags := ⟨v[31], v[30], v[29], v[28]⟩

/-- The rotated immediate (30_encoding.md R97): `(x >> n) | (x << (32 - n))` for n = 2 * rot (00_scope.md R8). -/
def rotated (rot : BitVec 4) (imm : Byte) : Word :=
  (imm.setWidth 32 >>> (2 * rot.toNat)) ||| (imm.setWidth 32 <<< (32 - 2 * rot.toNat))

/-- The shifter carry-out of the rotated immediate (30_encoding.md R97). -/
def rotatedCarry (rot : BitVec 4) (imm : Byte) (c : Held Bool) : Held Bool :=
  if rot = 0#4 then c else .value (rotated rot imm)[31]

/-- The flags of an addition (41_data_processing.md R135, the bit form of V). -/
def sumFlags (a b : Word) : Flags :=
  ⟨(a + b)[31], decide (a + b = 0#32), decide (2 ^ 32 ≤ a.toNat + b.toNat),
    decide (a[31] = b[31] ∧ (a + b)[31] ≠ a[31])⟩

/-- The flags of a subtraction (41_data_processing.md R135, the bit form of V). -/
def diffFlags (a b : Word) : Flags :=
  ⟨(a - b)[31], decide (a - b = 0#32), decide (b.toNat ≤ a.toNat),
    decide (a[31] ≠ b[31] ∧ (a - b)[31] ≠ a[31])⟩

/-- The flags of a move (41_data_processing.md R135). -/
def movedFlags (v : Word) (c : Held Bool) (old : HeldFlags) : HeldFlags :=
  ⟨.value v[31], .value (decide (v = 0#32)), c, old.v⟩

/-- The write-back of 41_data_processing.md R130 for an instruction with result v and candidate flags fl. -/
def WritesBack (i : Instr) (s : State) (sf : Bool) (rd : RegNum) (v : Word) (fl : HeldFlags) : Prop :=
  (rd ≠ 15#4 → s.canAdvance 4 →
    exec i s = .next (((if sf then s.setFlags fl else s).setReg rd v).setPc (s.pc + 4#32))) ∧
  (rd ≠ 15#4 → ¬ s.canAdvance 4 → exec i s = .refused .pcWrap) ∧
  (rd = 15#4 → sf = false → v.toNat % 4 = 0 → exec i s = .next (s.setPc v)) ∧
  (rd = 15#4 → sf = false → v.toNat % 4 ≠ 0 → exec i s = .refused .misalignedPc) ∧
  (rd = 15#4 → sf = true → exec i s = exceptionReturn v s)

/-- The two values that a comparison compares (41_data_processing.md R134, 45_thumb.md R202). -/
def comparison (i : Instr) (s : State) : Option (Word × Word) :=
  match i with
  | .cmpReg _ rn rm => some (s.reg rn, s.second rm)
  | .cmpImm _ rn rot imm => some (s.reg rn, rotated rot imm)
  | .tCmp rd rs => some (s.reg rd, s.second rs)
  | _ => none

/-- The data-processing forms that return from an exception, with their condition and the address they return to
(41_data_processing.md R136). -/
def returnForm (i : Instr) (s : State) : Option (Cond × Word) :=
  match i with
  | .movReg c sf rd rm => if sf ∧ rd = 15#4 ∧ rm ≠ 15#4 then some (c, s.reg rm) else none
  | .movImm c sf rd rot imm => if sf ∧ rd = 15#4 then some (c, rotated rot imm) else none
  | .addReg c sf rn rd rm =>
    if sf ∧ rd = 15#4 ∧ rn ≠ 15#4 ∧ rm ≠ 15#4 then some (c, s.reg rn + s.second rm) else none
  | .addImm c sf rn rd rot imm =>
    if sf ∧ rd = 15#4 ∧ rn ≠ 15#4 then some (c, s.reg rn + rotated rot imm) else none
  | .subReg c sf rn rd rm =>
    if sf ∧ rd = 15#4 ∧ rn ≠ 15#4 ∧ rm ≠ 15#4 then some (c, s.reg rn - s.second rm) else none
  | .subImm c sf rn rd rot imm =>
    if sf ∧ rd = 15#4 ∧ rn ≠ 15#4 then some (c, s.reg rn - rotated rot imm) else none
  | _ => none

/-- A single data transfer: its condition and the fields of 43_load_store.md R174. -/
structure Transfer where
  cond : Cond
  size : Size
  p : Bool
  u : Bool
  w : Bool
  rn : RegNum
  rd : RegNum
  offset : Word
  deriving DecidableEq, Repr

/-- The loads (43_load_store.md R160, R162, R164). -/
def loadForm : Instr → Option Transfer
  | .ldr c p u w rn rd off => some ⟨c, .word, p, u, w, rn, rd, off.setWidth 32⟩
  | .ldrb c p u w rn rd off => some ⟨c, .byte, p, u, w, rn, rd, off.setWidth 32⟩
  | .ldrh c p u w rn rd immH immL => some ⟨c, .half, p, u, w, rn, rd, (immH ++ immL).setWidth 32⟩
  | _ => none

/-- The stores (43_load_store.md R161, R163, R165). -/
def storeForm : Instr → Option Transfer
  | .str c p u w rn rd off => some ⟨c, .word, p, u, w, rn, rd, off.setWidth 32⟩
  | .strb c p u w rn rd off => some ⟨c, .byte, p, u, w, rn, rd, off.setWidth 32⟩
  | .strh c p u w rn rd immH immL => some ⟨c, .half, p, u, w, rn, rd, (immH ++ immL).setWidth 32⟩
  | _ => none

/-- A single transfer that 43_load_store.md R174 does not refuse, with its address and write-back value. -/
abbrev Transfer.legal (x : Transfer) (s : State) (addr : Word) (wb : Option Word) : Prop :=
  x.rn ≠ 15#4 ∧ x.rd ≠ 15#4 ∧ transferAddress x.p x.u x.w (s.reg x.rn) x.offset = some (addr, wb) ∧
    ¬ (wb.isSome = true ∧ x.rn = x.rd) ∧ addr.toNat % x.size.bytes = 0

/-- A swap: its condition, width and registers Rn, Rd, Rm (43_load_store.md R168, R169). -/
def swapForm : Instr → Option (Cond × Size × RegNum × RegNum × RegNum)
  | .swp c rn rd rm => some (c, .word, rn, rd, rm)
  | .swpb c rn rd rm => some (c, .byte, rn, rd, rm)
  | _ => none

/-- A swap the rules do not refuse (43_load_store.md R168). -/
abbrev State.swapLegal (s : State) (size : Size) (rn rd rm : RegNum) : Prop :=
  rn ≠ 15#4 ∧ rd ≠ 15#4 ∧ rm ≠ 15#4 ∧ rn ≠ rm ∧ rn ≠ rd ∧ (s.reg rn).toNat % size.bytes = 0

/-- Two T-HI registers of which 45_thumb.md R200 refuses none: one of them high, the source not R15. -/
abbrev thumbPair (rd rs : RegNum) : Prop := (8 ≤ rd.toNat ∨ 8 ≤ rs.toNat) ∧ rs ≠ 15#4

/-- The return statement of each exception (60_exceptions.md R230); reset has none, and stands with the SWI. -/
def returnStatement : Exn → Instr
  | .reset | .swi | .undefined => .movReg .al true 15#4 14#4
  | .prefetchAbort | .irq | .fiq => .subImm .al true 14#4 15#4 0#4 4#8
  | .dataAbort => .subImm .al true 14#4 15#4 0#4 8#8

/-- What the return statement subtracts from the link register (60_exceptions.md R230). -/
def returnOffset : Exn → Word
  | .reset | .swi | .undefined => 0#32
  | .prefetchAbort | .irq | .fiq => 4#32
  | .dataAbort => 8#32

/-- The forms that would read R15 as an operand or a base, or store it (10_state.md R31). -/
def readsR15 : Instr → Bool
  | .bx _ rm | .movReg _ _ _ rm | .msrReg _ _ _ rm => rm = 15#4
  | .addReg _ _ rn _ rm | .subReg _ _ rn _ rm | .cmpReg _ rn rm => rn = 15#4 ∨ rm = 15#4
  | .addImm _ _ rn _ _ _ | .subImm _ _ rn _ _ _ | .cmpImm _ rn _ _ => rn = 15#4
  | .ldr _ _ _ _ rn _ _ | .ldrb _ _ _ _ rn _ _ | .ldrh _ _ _ _ rn _ _ _ | .ldm _ _ _ _ _ rn _ => rn = 15#4
  | .str _ _ _ _ rn rd _ | .strb _ _ _ _ rn rd _ | .strh _ _ _ _ rn rd _ _ => rn = 15#4 ∨ rd = 15#4
  | .stm _ _ _ _ _ rn list => rn = 15#4 ∨ list.getLsbD 15 = true
  | .swp _ rn _ rm | .swpb _ rn _ rm => rn = 15#4 ∨ rm = 15#4
  | .tAdd rd rs | .tCmp rd rs => rd = 15#4 ∨ rs = 15#4
  | .tMov _ rs | .tBx rs => rs = 15#4
  | .b .. | .bl .. | .movImm .. | .mrs .. | .msrImm .. | .swi .. | .und .. | .tB .. | .tSwi .. => false

/-- The MSR forms, with their condition, R bit, field mask and operand (42_psr_access.md R152). -/
def msrForm (i : Instr) (s : State) : Option (Cond × Bool × BitVec 4 × Word) :=
  match i with
  | .msrReg c spsr mask rm => if rm ≠ 15#4 then some (c, spsr, mask, s.reg rm) else none
  | .msrImm c spsr mask rot imm => some (c, spsr, mask, rotated rot imm)
  | _ => none

/-- The instructions that only work on registers and status, with the general register each may write
(R14 for BL). -/
def registerForm : Instr → Option (Option RegNum)
  | .bx .. | .b .. | .cmpReg .. | .cmpImm .. | .msrReg .. | .msrImm .. | .tCmp .. | .tBx .. | .tB .. => some none
  | .bl .. => some (some 14#4)
  | .movReg _ _ rd _ | .movImm _ _ rd _ _ | .addReg _ _ _ rd _ | .addImm _ _ _ rd _ _ | .subReg _ _ _ rd _
  | .subImm _ _ _ rd _ _ | .mrs _ _ rd | .tAdd rd _ | .tMov rd _ => some (some rd)
  | .ldr .. | .str .. | .ldrb .. | .strb .. | .ldrh .. | .strh .. | .ldm .. | .stm .. | .swp .. | .swpb .. | .swi ..
  | .und .. | .tSwi .. => none

/-- The instructions of `registerForm` that leave every bit of the CPSR alone: those without the S bit, and no
comparison, BX or MSR. -/
def keepsCpsr : Instr → Bool
  | .b .. | .bl .. | .mrs .. | .tAdd .. | .tMov .. | .tB .. => true
  | .movReg _ sf _ _ | .movImm _ sf _ _ _ | .addReg _ sf _ _ _ | .addImm _ sf _ _ _ _ | .subReg _ sf _ _ _
  | .subImm _ sf _ _ _ _ => !sf
  | .bx .. | .cmpReg .. | .cmpImm .. | .msrReg .. | .msrImm .. | .tCmp .. | .tBx .. | .ldr .. | .str .. | .ldrb ..
  | .strb .. | .ldrh .. | .strh .. | .ldm .. | .stm .. | .swp .. | .swpb .. | .swi .. | .und .. | .tSwi .. => false

/-- The instructions that may store to memory (20_memory.md R68). -/
def mayStore : Instr → Bool
  | .str .. | .strb .. | .strh .. | .stm .. | .swp .. | .swpb .. => true
  | .bx .. | .b .. | .bl .. | .movReg .. | .movImm .. | .addReg .. | .addImm .. | .subReg .. | .subImm .. | .cmpReg ..
  | .cmpImm .. | .mrs .. | .msrReg .. | .msrImm .. | .ldr .. | .ldrb .. | .ldrh .. | .ldm .. | .swi .. | .und ..
  | .tAdd .. | .tCmp .. | .tMov .. | .tBx .. | .tB .. | .tSwi .. => false

/-- t is what taking the exception e from s leaves in the status registers, the link register and the pc
(60_exceptions.md R225): what the registers and memory held before may have changed on the way. -/
abbrev Entered (e : Exn) (ret : Word) (s t : State) : Prop :=
  t.cpsr = { s.cpsr with mode := e.mode, t := false, i := true, f := s.cpsr.f || e.masksFiq } ∧
    t.spsrs = s.spsrs.set e.spsr s.cpsr.toPsr ∧ t.regIn e.mode 14#4 = .value ret ∧ t.pc = e.vector

end Sys2Proof.Machine
end

