-- ==== Sys2Proof/Certificates/Slice0/Obligations.lean ====
section
/-!
DEFINITION. The statements for the provers. Each docstring names the rules of spec/ it formalises; "log n" names an entry of
notes/assumptions/.
-/

open Sys2Proof Sys2Proof.Machine

/-! ## Branches and the state switch -/

/-- BX in ARM state (40_branch_and_state_switch.md R120). -/
def Obligations.BxSwitchesState : Prop :=
  ∀ (c : Cond) (rm : RegNum) (s : State),
    decodeArm (c.bits ++ 0x12FFF1#24 ++ rm) = .ok (.bx c rm) ∧
    (s.passes c →
      (rm = 15#4 → exec (.bx c rm) s = .refused .r15Operand) ∧
      (rm ≠ 15#4 → (s.reg rm)[0] = true →
        exec (.bx c rm) s =
          .next ({ s with cpsr := { s.cpsr with t := true } }.setPc ((s.reg rm).extractLsb' 1 31 ++ 0#1))) ∧
      (rm ≠ 15#4 → (s.reg rm)[0] = false → (s.reg rm)[1] = false →
        exec (.bx c rm) s = .next ({ s with cpsr := { s.cpsr with t := false } }.setPc (s.reg rm))) ∧
      (rm ≠ 15#4 → (s.reg rm)[0] = false → (s.reg rm)[1] = true → exec (.bx c rm) s = .refused .misalignedPc))

/-- BX in THUMB state (45_thumb.md R204); CPSR.T stays 1 when bit 0 is set. -/
def Obligations.ThumbBxSwitchesState : Prop :=
  ∀ (rs : RegNum) (s : State),
    decodeThumb (0b010001110#9 ++ rs ++ 0b000#3) = .ok (.tBx rs) ∧
    (s.cpsr.t = true →
      (rs = 15#4 → exec (.tBx rs) s = .refused .r15Operand) ∧
      (rs ≠ 15#4 → (s.reg rs)[0] = true →
        exec (.tBx rs) s = .next (s.setPc ((s.reg rs).extractLsb' 1 31 ++ 0#1))) ∧
      (rs ≠ 15#4 → (s.reg rs)[0] = false → (s.reg rs)[1] = false →
        exec (.tBx rs) s = .next ({ s with cpsr := { s.cpsr with t := false } }.setPc (s.reg rs))) ∧
      (rs ≠ 15#4 → (s.reg rs)[0] = false → (s.reg rs)[1] = true → exec (.tBx rs) s = .refused .misalignedPc))

/-- B in ARM state (40_branch_and_state_switch.md R121, 30_encoding.md R99): the target is computed modulo 2^32, and a
target beyond an end of the address space is refused. -/
def Obligations.BranchGoesToTarget : Prop :=
  ∀ (c : Cond) (offset : BitVec 24) (s : State),
    let target := s.pc + 8#32 + (offset.signExtend 32 <<< 2)
    let exact : Int := s.pc.toNat + 8 + 4 * offset.toInt
    decodeArm (c.bits ++ 0b1010#4 ++ offset) = .ok (.b c offset) ∧
    (s.passes c →
      (0 ≤ exact ∧ exact < 2 ^ 32 → exec (.b c offset) s = .next (s.setPc target)) ∧
      (¬ (0 ≤ exact ∧ exact < 2 ^ 32) → exec (.b c offset) s = .refused .pcWrap))

/-- BL (40_branch_and_state_switch.md R122): R14 of the current mode receives the address of the next instruction. -/
def Obligations.BranchWithLink : Prop :=
  ∀ (c : Cond) (offset : BitVec 24) (s : State),
    let target := s.pc + 8#32 + (offset.signExtend 32 <<< 2)
    let exact : Int := s.pc.toNat + 8 + 4 * offset.toInt
    decodeArm (c.bits ++ 0b1011#4 ++ offset) = .ok (.bl c offset) ∧
    (s.passes c → 0 ≤ exact → exact < 2 ^ 32 →
      exec (.bl c offset) s = .next ((s.setReg 14#4 (s.pc + 4#32)).setPc target))

/-- The THUMB conditional branch (45_thumb.md R205, 30_encoding.md R95): the target, the words that are not this branch, and
the refusal of a branch not taken at the last address (10_state.md R32). -/
def Obligations.ThumbConditionalBranch : Prop :=
  ∀ (c : Cond) (offset : Byte) (s : State), c ≠ .al → c ≠ .nv →
    let target := s.pc + 4#32 + (offset.signExtend 32 <<< 1)
    let exact : Int := s.pc.toNat + 4 + 2 * offset.toInt
    decodeThumb (0b1101#4 ++ c.bits ++ offset) = .ok (.tB c offset) ∧
    decodeThumb (0b1101#4 ++ 0b1110#4 ++ offset) = .error .notInSubset ∧
    decodeThumb (0b1101#4 ++ 0b1111#4 ++ offset) = .ok (.tSwi offset) ∧
    (condHolds c s.flags = true → 0 ≤ exact → exact < 2 ^ 32 →
      exec (.tB c offset) s = .next (s.setPc target)) ∧
    (condHolds c s.flags = false → s.canAdvance 2 → exec (.tB c offset) s = .next (s.setPc (s.pc + 2#32))) ∧
    (condHolds c s.flags = false → ¬ s.canAdvance 2 → exec (.tB c offset) s = .refused .pcWrap)

/-- The model's choice (log 15, deduced from 10_state.md R32 and 40_branch_and_state_switch.md R121): BL and the THUMB
branch, too, refuse a target beyond an end of the address space. -/
def Obligations.LinkAndThumbBranchesRefuseWrap : Prop :=
  (∀ (c : Cond) (offset : BitVec 24) (s : State), s.passes c →
    let exact : Int := s.pc.toNat + 8 + 4 * offset.toInt
    ¬ (0 ≤ exact ∧ exact < 2 ^ 32) → exec (.bl c offset) s = .refused .pcWrap) ∧
  (∀ (c : Cond) (offset : Byte) (s : State), condHolds c s.flags = true →
    let exact : Int := s.pc.toNat + 4 + 2 * offset.toInt
    ¬ (0 ≤ exact ∧ exact < 2 ^ 32) → exec (.tB c offset) s = .refused .pcWrap)

/-! ## Data processing -/

/-- MOV (41_data_processing.md R131, over R130): both operand forms, the flags of a move, the refusal of R15 as
operand. -/
def Obligations.MovWritesOperand : Prop :=
  (∀ (c : Cond) (sf : Bool) (rd rm : RegNum) (s : State),
    decodeArm (c.bits ++ 0b0001101#7 ++ BitVec.ofBool sf ++ 0#4 ++ rd ++ 0#8 ++ rm) = .ok (.movReg c sf rd rm) ∧
    (s.passes c →
      (rm = 15#4 → exec (.movReg c sf rd rm) s = .refused .r15Operand) ∧
      (rm ≠ 15#4 →
        WritesBack (.movReg c sf rd rm) s sf rd (s.reg rm) (movedFlags (s.reg rm) s.cpsr.flags.c s.cpsr.flags)))) ∧
  (∀ (c : Cond) (sf : Bool) (rd : RegNum) (rot : BitVec 4) (imm : Byte) (s : State),
    decodeArm (c.bits ++ 0b0011101#7 ++ BitVec.ofBool sf ++ 0#4 ++ rd ++ rot ++ imm) = .ok (.movImm c sf rd rot imm) ∧
    (s.passes c →
      WritesBack (.movImm c sf rd rot imm) s sf rd (rotated rot imm)
        (movedFlags (rotated rot imm) (rotatedCarry rot imm s.cpsr.flags.c) s.cpsr.flags)))

/-- ADD (41_data_processing.md R132, over R130): both operand forms, the flags of an addition, the refusal of R15 as
operand. -/
def Obligations.AddWritesSum : Prop :=
  (∀ (c : Cond) (sf : Bool) (rn rd rm : RegNum) (s : State),
    decodeArm (c.bits ++ 0b0000100#7 ++ BitVec.ofBool sf ++ rn ++ rd ++ 0#8 ++ rm) = .ok (.addReg c sf rn rd rm) ∧
    (s.passes c →
      (rn = 15#4 ∨ rm = 15#4 → exec (.addReg c sf rn rd rm) s = .refused .r15Operand) ∧
      (rn ≠ 15#4 → rm ≠ 15#4 →
        WritesBack (.addReg c sf rn rd rm) s sf rd (s.reg rn + s.second rm) (sumFlags (s.reg rn) (s.second rm)).held))) ∧
  (∀ (c : Cond) (sf : Bool) (rn rd : RegNum) (rot : BitVec 4) (imm : Byte) (s : State),
    decodeArm (c.bits ++ 0b0010100#7 ++ BitVec.ofBool sf ++ rn ++ rd ++ rot ++ imm) =
      .ok (.addImm c sf rn rd rot imm) ∧
    (s.passes c →
      (rn = 15#4 → exec (.addImm c sf rn rd rot imm) s = .refused .r15Operand) ∧
      (rn ≠ 15#4 →
        WritesBack (.addImm c sf rn rd rot imm) s sf rd (s.reg rn + rotated rot imm)
          (sumFlags (s.reg rn) (rotated rot imm)).held)))

/-- SUB (41_data_processing.md R133, over R130): both operand forms, the flags of a subtraction, the refusal of R15 as
operand. -/
def Obligations.SubWritesDifference : Prop :=
  (∀ (c : Cond) (sf : Bool) (rn rd rm : RegNum) (s : State),
    decodeArm (c.bits ++ 0b0000010#7 ++ BitVec.ofBool sf ++ rn ++ rd ++ 0#8 ++ rm) = .ok (.subReg c sf rn rd rm) ∧
    (s.passes c →
      (rn = 15#4 ∨ rm = 15#4 → exec (.subReg c sf rn rd rm) s = .refused .r15Operand) ∧
      (rn ≠ 15#4 → rm ≠ 15#4 →
        WritesBack (.subReg c sf rn rd rm) s sf rd (s.reg rn - s.second rm) (diffFlags (s.reg rn) (s.second rm)).held))) ∧
  (∀ (c : Cond) (sf : Bool) (rn rd : RegNum) (rot : BitVec 4) (imm : Byte) (s : State),
    decodeArm (c.bits ++ 0b0010010#7 ++ BitVec.ofBool sf ++ rn ++ rd ++ rot ++ imm) =
      .ok (.subImm c sf rn rd rot imm) ∧
    (s.passes c →
      (rn = 15#4 → exec (.subImm c sf rn rd rot imm) s = .refused .r15Operand) ∧
      (rn ≠ 15#4 →
        WritesBack (.subImm c sf rn rd rot imm) s sf rd (s.reg rn - rotated rot imm)
          (diffFlags (s.reg rn) (rotated rot imm)).held)))

/-- CMP (41_data_processing.md R134): both operand forms; the flags of the subtraction and nothing else; refused at the last
address (10_state.md R32). -/
def Obligations.CmpWritesFlagsOnly : Prop :=
  (∀ (c : Cond) (rn rm : RegNum) (s : State),
    decodeArm (c.bits ++ 0b00010101#8 ++ rn ++ 0#12 ++ rm) = .ok (.cmpReg c rn rm) ∧
    (s.passes c →
      (rn = 15#4 ∨ rm = 15#4 → exec (.cmpReg c rn rm) s = .refused .r15Operand) ∧
      (rn ≠ 15#4 → rm ≠ 15#4 → s.canAdvance 4 →
        exec (.cmpReg c rn rm) s = .next ((s.setFlags (diffFlags (s.reg rn) (s.second rm)).held).setPc (s.pc + 4#32))) ∧
      (rn ≠ 15#4 → rm ≠ 15#4 → ¬ s.canAdvance 4 → exec (.cmpReg c rn rm) s = .refused .pcWrap))) ∧
  (∀ (c : Cond) (rn : RegNum) (rot : BitVec 4) (imm : Byte) (s : State),
    decodeArm (c.bits ++ 0b00110101#8 ++ rn ++ 0#4 ++ rot ++ imm) = .ok (.cmpImm c rn rot imm) ∧
    (s.passes c →
      (rn = 15#4 → exec (.cmpImm c rn rot imm) s = .refused .r15Operand) ∧
      (rn ≠ 15#4 → s.canAdvance 4 →
        exec (.cmpImm c rn rot imm) s =
          .next ((s.setFlags (diffFlags (s.reg rn) (rotated rot imm)).held).setPc (s.pc + 4#32))) ∧
      (rn ≠ 15#4 → ¬ s.canAdvance 4 → exec (.cmpImm c rn rot imm) s = .refused .pcWrap)))

/-- The two forms the flag rule gives V agree, for sums and differences, with what the machine computes
(41_data_processing.md R135). -/
def Obligations.FlagResults : Prop :=
  (∀ a b : Word, addFlags a b = sumFlags a b ∧
    ((sumFlags a b).v = true ↔ a.toInt + b.toInt < -(2 ^ 31) ∨ 2 ^ 31 - 1 < a.toInt + b.toInt)) ∧
  (∀ a b : Word, subFlags a b = diffFlags a b ∧
    ((diffFlags a b).v = true ↔ a.toInt - b.toInt < -(2 ^ 31) ∨ 2 ^ 31 - 1 < a.toInt - b.toInt)) ∧
  (∀ (v : Word) (c : Held Bool) (old : HeldFlags), moveFlags v c old = movedFlags v c old)

/-- What the conditions say after a comparison of a and b (41_data_processing.md R134; 45_thumb.md R202 for THUMB): both
ARM forms, under every condition that passes, and the THUMB form. -/
def Obligations.ConditionsAfterCompare : Prop :=
  ∀ (i : Instr) (a b : Word) (s t : State), comparison i s = some (a, b) →
    (∀ c, armCond i = some c → s.passes c) → exec i s = .next t →
    let holds := fun c => condHolds c t.flags
    holds .eq = decide (a = b) ∧ holds .ne = decide (a ≠ b) ∧
    holds .cs = decide (b.toNat ≤ a.toNat) ∧ holds .cc = decide (a.toNat < b.toNat) ∧
    holds .hi = decide (b.toNat < a.toNat) ∧ holds .ls = decide (a.toNat ≤ b.toNat) ∧
    holds .ge = decide (b.toInt ≤ a.toInt) ∧ holds .lt = decide (a.toInt < b.toInt) ∧
    holds .gt = decide (b.toInt < a.toInt) ∧ holds .le = decide (a.toInt ≤ b.toInt)

/-- Exception return (41_data_processing.md R136): every MOVS, ADDS, SUBS to the PC. The SPSR of the current mode goes to the
CPSR; an illegal mode wedges the machine; User and System mode and a misaligned target are refused. That a field of the
SPSR without a value reads as a free one is the model's choice (log 5), and so is that the wedging step answers next with
all else kept (log 11): 10_state.md R40 lets no claim be made about the contents of a wedged machine. -/
def Obligations.ExceptionReturn : Prop :=
  ∀ (i : Instr) (s : State) (c : Cond) (target : Word), returnForm i s = some (c, target) → s.passes c →
    (s.cpsr.mode = .usr ∨ s.cpsr.mode = .sys → exec i s = .refused .noSpsr) ∧
    (∀ n, s.cpsr.mode.spsr? = some n →
      let p := (s.spsrs.get n).read s.freeStatus
      ((∀ m : Mode, m.bits ≠ p.m) → exec i s = .next { s with wedged := true }) ∧
      (∀ m : Mode, m.bits = p.m →
        (p.t = false → target.toNat % 4 ≠ 0 → exec i s = .refused .misalignedPc) ∧
        (p.t = true → target.toNat % 2 ≠ 0 → exec i s = .refused .misalignedPc) ∧
        ((p.t = false → target.toNat % 4 = 0) → (p.t = true → target.toNat % 2 = 0) →
          exec i s = .next ({ s with cpsr := ⟨p.flags.held, p.i, p.f, p.t, m⟩ }.setPc target))))

/-! ## Status register access -/

/-- MRS (42_psr_access.md R151): CPSR or SPSR to a register; the reserved bits [27:8] are a free draw u; refused at the last
address (10_state.md R32). That a field without a value reads as a free one, and is not refused, is the model's choice
(log 5). -/
def Obligations.MrsReadsStatus : Prop :=
  ∀ (c : Cond) (spsr : Bool) (rd : RegNum) (s : State),
    decodeArm (c.bits ++ 0b00010#5 ++ BitVec.ofBool spsr ++ 0b00#2 ++ 0b1111#4 ++ rd ++ 0#12) = .ok (.mrs c spsr rd) ∧
    (s.passes c →
      (rd = 15#4 → exec (.mrs c spsr rd) s = .refused .mrsToR15) ∧
      (rd ≠ 15#4 → spsr = true → s.cpsr.mode = .usr ∨ s.cpsr.mode = .sys →
        exec (.mrs c spsr rd) s = .refused .noSpsr) ∧
      (rd ≠ 15#4 → (spsr = true → ∃ n, s.cpsr.mode.spsr? = some n) → ¬ s.canAdvance 4 →
        exec (.mrs c spsr rd) s = .refused .pcWrap) ∧
      (∀ p : Psr, rd ≠ 15#4 → s.canAdvance 4 →
        (spsr = false → p = ⟨s.cpsr.flags.read s.freeStatus, s.cpsr.i, s.cpsr.f, s.cpsr.t, s.cpsr.mode.bits⟩) →
        (spsr = true → ∃ n, s.cpsr.mode.spsr? = some n ∧ p = (s.spsrs.get n).read s.freeStatus) →
        let u := Config.freeReserved s.draws
        let v : Word := BitVec.ofBool p.flags.n ++ BitVec.ofBool p.flags.z ++ BitVec.ofBool p.flags.c ++
          BitVec.ofBool p.flags.v ++ u ++ BitVec.ofBool p.i ++ BitVec.ofBool p.f ++ BitVec.ofBool p.t ++ p.m
        exec (.mrs c spsr rd) s = .next (({ s with draws := s.draws + 1 }.setReg rd v).setPc (s.pc + 4#32))))

/-- MSR (42_psr_access.md R152): the mode numbers (10_state.md R38), the encodings, and the refusal of R15; to the CPSR, the
control byte in privileged modes only, T may not change, an illegal mode wedges the machine; to the SPSR of the current mode,
any T and any M may be stored; refused at the last address (10_state.md R32). That the wedging step answers next with all else
kept is the model's choice (log 11): 10_state.md R40 lets no claim be made about the contents of a wedged machine. -/
def Obligations.MsrWritesStatus : Prop :=
  (Mode.usr.bits = 0b10000#5 ∧ Mode.fiq.bits = 0b10001#5 ∧ Mode.irq.bits = 0b10010#5 ∧ Mode.svc.bits = 0b10011#5 ∧
    Mode.abt.bits = 0b10111#5 ∧ Mode.und.bits = 0b11011#5 ∧ Mode.sys.bits = 0b11111#5) ∧
  (∀ (c : Cond) (spsr : Bool) (mask : BitVec 4) (rm : RegNum),
    decodeArm (c.bits ++ 0b00010#5 ++ BitVec.ofBool spsr ++ 0b10#2 ++ mask ++ 0b1111#4 ++ 0#8 ++ rm) =
      .ok (.msrReg c spsr mask rm)) ∧
  (∀ (c : Cond) (spsr : Bool) (mask rot : BitVec 4) (imm : Byte),
    decodeArm (c.bits ++ 0b00110#5 ++ BitVec.ofBool spsr ++ 0b10#2 ++ mask ++ 0b1111#4 ++ rot ++ imm) =
      .ok (.msrImm c spsr mask rot imm)) ∧
  (∀ (c : Cond) (spsr : Bool) (mask : BitVec 4) (s : State), s.passes c →
    exec (.msrReg c spsr mask 15#4) s = .refused .r15Operand) ∧
  (∀ (i : Instr) (s : State) (c : Cond) (mask : BitVec 4) (v : Word),
    msrForm i s = some (c, false, mask, v) → s.passes c →
    let flags := if mask[3] then (flagsIn v).held else s.cpsr.flags
    (mask[0] = true → s.cpsr.mode ≠ .usr → v[5] ≠ s.cpsr.t → exec i s = .refused .tBitChanged) ∧
    (mask[0] = true → s.cpsr.mode ≠ .usr → v[5] = s.cpsr.t → (∀ m : Mode, m.bits ≠ v.extractLsb' 0 5) →
      exec i s = .next { s with wedged := true }) ∧
    (∀ m : Mode, mask[0] = true → s.cpsr.mode ≠ .usr → v[5] = s.cpsr.t → m.bits = v.extractLsb' 0 5 → s.canAdvance 4 →
      exec i s = .next ({ s with cpsr := ⟨flags, v[7], v[6], s.cpsr.t, m⟩ }.setPc (s.pc + 4#32))) ∧
    (∀ m : Mode, mask[0] = true → s.cpsr.mode ≠ .usr → v[5] = s.cpsr.t → m.bits = v.extractLsb' 0 5 → ¬ s.canAdvance 4 →
      exec i s = .refused .pcWrap) ∧
    (mask[0] = false ∨ s.cpsr.mode = .usr → s.canAdvance 4 →
      exec i s = .next ((s.setFlags flags).setPc (s.pc + 4#32))) ∧
    (mask[0] = false ∨ s.cpsr.mode = .usr → ¬ s.canAdvance 4 → exec i s = .refused .pcWrap)) ∧
  (∀ (i : Instr) (s : State) (c : Cond) (mask : BitVec 4) (v : Word),
    msrForm i s = some (c, true, mask, v) → s.passes c →
    (s.cpsr.mode = .usr ∨ s.cpsr.mode = .sys → exec i s = .refused .noSpsr) ∧
    (∀ n, s.cpsr.mode.spsr? = some n → ¬ s.canAdvance 4 → exec i s = .refused .pcWrap) ∧
    (∀ n, s.cpsr.mode.spsr? = some n → s.canAdvance 4 →
      let p := s.spsrs.get n
      let q : HeldPsr := if mask[3] then { p with flags := (flagsIn v).held } else p
      let r : HeldPsr :=
        if mask[0] then { q with i := .value v[7], f := .value v[6], t := .value v[5], m := .value (v.extractLsb' 0 5) } else q
      exec i s = .next ({ s with spsrs := s.spsrs.set n r }.setPc (s.pc + 4#32))))

/-! ## Loads and stores -/

/-- The address and write-back value of a single transfer, and its refusals in their order (43_load_store.md R174). -/
def Obligations.TransferAddress : Prop :=
  (∀ (u : Bool) (base offset : Word),
    let offAddr := if u then base + offset else base - offset
    transferAddress true u false base offset = some (offAddr, none) ∧
    transferAddress true u true base offset = some (offAddr, some offAddr) ∧
    transferAddress false u false base offset = some (base, some offAddr) ∧
    transferAddress false u true base offset = none) ∧
  (∀ (i : Instr) (x : Transfer) (s : State), loadForm i = some x ∨ storeForm i = some x → s.passes x.cond →
    (x.rn = 15#4 → exec i s = .refused .r15Operand) ∧
    (x.rn ≠ 15#4 → x.rd = 15#4 → exec i s = .refused .r15DataRegister) ∧
    (x.rn ≠ 15#4 → x.rd ≠ 15#4 → x.p = false → x.w = true → exec i s = .refused .postIndexedW) ∧
    (∀ addr wb, x.rn ≠ 15#4 → x.rd ≠ 15#4 →
      transferAddress x.p x.u x.w (s.reg x.rn) x.offset = some (addr, wb) →
      (wb.isSome = true → x.rn = x.rd → exec i s = .refused .writebackToData) ∧
      (¬ (wb.isSome = true ∧ x.rn = x.rd) → addr.toNat % x.size.bytes ≠ 0 → exec i s = .refused .misalignedAccess)))

/-- LDR, LDRB, LDRH (43_load_store.md R160, R162, R164): the value read, zero-extended, to Rd, and the write-back; an
aborted read takes the data abort of R170; one that completes at the last address is refused (10_state.md R32). -/
def Obligations.LoadReadsMemory : Prop :=
  (∀ (c : Cond) (p u w : Bool) (rn rd : RegNum) (off : BitVec 12),
    decodeArm (c.bits ++ 0b010#3 ++ BitVec.ofBool p ++ BitVec.ofBool u ++ 0#1 ++ BitVec.ofBool w ++ 1#1 ++ rn ++ rd ++ off) =
      .ok (.ldr c p u w rn rd off) ∧
    decodeArm (c.bits ++ 0b010#3 ++ BitVec.ofBool p ++ BitVec.ofBool u ++ 1#1 ++ BitVec.ofBool w ++ 1#1 ++ rn ++ rd ++ off) =
      .ok (.ldrb c p u w rn rd off)) ∧
  (∀ (c : Cond) (p u w : Bool) (rn rd : RegNum) (immH immL : BitVec 4),
    decodeArm (c.bits ++ 0b000#3 ++ BitVec.ofBool p ++ BitVec.ofBool u ++ 1#1 ++ BitVec.ofBool w ++ 1#1 ++ rn ++ rd ++ immH ++
      0b1011#4 ++ immL) = .ok (.ldrh c p u w rn rd immH immL)) ∧
  (∀ (i : Instr) (x : Transfer) (s : State) (addr : Word) (wb : Option Word),
    loadForm i = some x → s.passes x.cond → x.legal s addr wb →
    (∀ v, s.abortNow = false → s.canAdvance 4 →
      valueAt? s.cfg.bigEndian x.size s.mem addr.toNat = some v →
      exec i s = .next (((s.answered.setReg x.rd v).writeBack x.rn wb).setPc (s.pc + 4#32))) ∧
    (s.abortNow = false → ¬ s.canAdvance 4 → exec i s = .refused .pcWrap) ∧
    (s.abortNow = true → ∃ t, exec i s = .next t ∧ Entered .dataAbort (s.pc + 8#32) s t))

/-- The model's choice (00_scope.md R12 lets a model draw; log 4, log 5): a load, an LDM and a swap complete whatever memory
holds, and each byte without a value reads as a fresh free byte, while the others read as their values. So do a register, a
flag and a field of an SPSR: where it holds no value, each read of a step is a draw of its own, and every step has new draws. -/
def Obligations.LoadOfValuelessByteIsFree : Prop :=
  (∀ (i : Instr) (x : Transfer) (s : State) (addr : Word) (wb : Option Word),
    loadForm i = some x → s.passes x.cond → x.legal s addr wb → s.abortNow = false → s.canAdvance 4 →
    exec i s =
      .next ((({ s.answered with draws := s.draws + valueless s.mem addr.toNat x.size.bytes }.setReg x.rd
        (found s.cfg.bigEndian x.size s.mem addr.toNat s.draws)).writeBack x.rn wb).setPc (s.pc + 4#32))) ∧
  (∀ (c : Cond) (p u w : Bool) (rn rd : RegNum) (off : BitVec 12) (s : State) (addr : Word) (wb : Option Word),
    s.passes c → (⟨c, .byte, p, u, w, rn, rd, off.setWidth 32⟩ : Transfer).legal s addr wb → s.abortNow = false →
    s.canAdvance 4 → s.mem.get? addr.toNat = none →
    exec (.ldrb c p u w rn rd off) s =
      .next ((({ s.answered with draws := s.draws + 1 }.setReg rd ((Config.freeByte s.draws).setWidth 32)).writeBack rn wb).setPc
        (s.pc + 4#32))) ∧
  (∀ (c : Cond) (p u w : Bool) (rn : RegNum) (list : BitVec 16) (s : State),
    s.passes c → s.blockLegal w rn list →
    let n := (regsOf list).length
    let at_ := blockAddr p u (s.reg rn) list
    let word := fun k => found s.cfg.bigEndian .word s.mem (at_ k) (s.draws + blockDraws s.mem at_ k)
    s.quiet n →
    (list.getLsbD 15 = true → (word (n - 1)).toNat % 4 ≠ 0 →
      exec (.ldm c p u false w rn list) s = .refused .misalignedPc) ∧
    ((list.getLsbD 15 = true → (word (n - 1)).toNat % 4 = 0) → (list.getLsbD 15 = false → s.canAdvance 4) →
      ∃ t, exec (.ldm c p u false w rn list) s = .next t ∧
        (∀ k i, (regsOf list)[k]? = some i → i ≠ 15#4 → t.regIn s.cpsr.mode i = .value (word k)) ∧
        (w = true → t.regIn s.cpsr.mode rn = .value (blockWb p u (s.reg rn) list)) ∧
        t.pc = (if list.getLsbD 15 then word (n - 1) else s.pc + 4#32) ∧
        (∀ q : PhysReg, q ≠ .r15 → (∀ i, list.getLsbD i.toNat = true → q ≠ bank s.cpsr.mode i) →
          (w = true → q ≠ bank s.cpsr.mode rn) → t.regs.get q = s.regs.get q) ∧
        t.mem = s.mem ∧ t.modified = s.modified ∧ SameStatus s t ∧ t.draws = s.draws + blockDraws s.mem at_ n ∧
        t.aborts = s.aborts.drop n)) ∧
  (∀ (i : Instr) (c : Cond) (size : Size) (rn rd rm : RegNum) (s : State),
    swapForm i = some (c, size, rn, rd, rm) → s.passes c → s.swapLegal size rn rd rm → s.quiet 2 → s.canAdvance 4 →
    let a := (s.reg rn).toNat
    ∃ t, exec i s = .next t ∧ valueAt? s.cfg.bigEndian size t.mem a = some (narrowed size (s.second rm)) ∧
      SameOutside s t a size.bytes ∧
      t.regs = ((s.setReg rd (found s.cfg.bigEndian size s.mem a s.draws)).setPc (s.pc + 4#32)).regs ∧
      SameStatus s t ∧ t.draws = s.draws + valueless s.mem a size.bytes ∧ t.aborts = s.aborts.drop 2) ∧
  (∀ (s : State) (i : RegNum),
    (∀ v, s.regIn s.cpsr.mode i = .value v → s.reg i = v ∧ s.second i = v) ∧
    (s.regIn s.cpsr.mode i = .unspecified →
      s.reg i = Config.freeRegister s.draws i false ∧ s.second i = Config.freeRegister s.draws i true)) ∧
  (∀ (s : State) (fl : Flags), s.cpsr.flags = fl.held → s.flags = fl) ∧
  (∀ s : State,
    (s.cpsr.flags.n = .unspecified → s.flags.n = (Config.freeStatus s.draws false)[31]) ∧
    (s.cpsr.flags.z = .unspecified → s.flags.z = (Config.freeStatus s.draws false)[30]) ∧
    (s.cpsr.flags.c = .unspecified → s.flags.c = (Config.freeStatus s.draws false)[29]) ∧
    (s.cpsr.flags.v = .unspecified → s.flags.v = (Config.freeStatus s.draws false)[28])) ∧
  (∀ (p : Psr) (w : Word), p.held.read w = p) ∧
  (∀ (h : HeldPsr) (w : Word),
    (h.flags = ⟨.unspecified, .unspecified, .unspecified, .unspecified⟩ → (h.read w).flags = flagsIn w) ∧
    (h.i = .unspecified → (h.read w).i = w[7]) ∧ (h.f = .unspecified → (h.read w).f = w[6]) ∧
    (h.t = .unspecified → (h.read w).t = w[5]) ∧ (h.m = .unspecified → (h.read w).m = w.extractLsb' 0 5)) ∧
  (∀ s t : State, step s = .next t → s.draws < t.draws)

/-- STR, STRB, STRH (43_load_store.md R161, R163, R165): the bytes stored, every other byte unchanged, and the write-back; an
aborted write takes the data abort of R170; one that completes at the last address is refused (10_state.md R32). -/
def Obligations.StoreWritesMemory : Prop :=
  (∀ (c : Cond) (p u w : Bool) (rn rd : RegNum) (off : BitVec 12),
    decodeArm (c.bits ++ 0b010#3 ++ BitVec.ofBool p ++ BitVec.ofBool u ++ 0#1 ++ BitVec.ofBool w ++ 0#1 ++ rn ++ rd ++ off) =
      .ok (.str c p u w rn rd off) ∧
    decodeArm (c.bits ++ 0b010#3 ++ BitVec.ofBool p ++ BitVec.ofBool u ++ 1#1 ++ BitVec.ofBool w ++ 0#1 ++ rn ++ rd ++ off) =
      .ok (.strb c p u w rn rd off)) ∧
  (∀ (c : Cond) (p u w : Bool) (rn rd : RegNum) (immH immL : BitVec 4),
    decodeArm (c.bits ++ 0b000#3 ++ BitVec.ofBool p ++ BitVec.ofBool u ++ 1#1 ++ BitVec.ofBool w ++ 0#1 ++ rn ++ rd ++ immH ++
      0b1011#4 ++ immL) = .ok (.strh c p u w rn rd immH immL)) ∧
  (∀ (i : Instr) (x : Transfer) (s : State) (addr : Word) (wb : Option Word),
    storeForm i = some x → s.passes x.cond → x.legal s addr wb →
    (s.abortNow = false → s.canAdvance 4 →
      ∃ t, exec i s = .next t ∧
        valueAt? s.cfg.bigEndian x.size t.mem addr.toNat = some (narrowed x.size (s.second x.rd)) ∧
        SameOutside s t addr.toNat x.size.bytes ∧
        t.regs = ((s.writeBack x.rn wb).setPc (s.pc + 4#32)).regs ∧ SameStatus s t ∧ t.draws = s.draws ∧
        t.aborts = s.aborts.tail) ∧
    (s.abortNow = false → ¬ s.canAdvance 4 → exec i s = .refused .pcWrap) ∧
    (s.abortNow = true → ∃ t, exec i s = .next t ∧ Entered .dataAbort (s.pc + 8#32) s t))

/-- The data abort of a single transfer (43_load_store.md R170): the base is updated, the load's Rd and the store's bytes lose
their values, nothing else changes but what the exception entry writes. R170 says of Rd and of those bytes that they become
unspecified: that they hold no value, and each read of them is a free draw, is the model's choice (log 14). -/
def Obligations.AbortedTransfer : Prop :=
  ∀ (i : Instr) (x : Transfer) (s : State) (addr : Word) (wb : Option Word),
    loadForm i = some x ∨ storeForm i = some x → s.passes x.cond → x.legal s addr wb → s.abortNow = true →
    ∃ t, exec i s = .next t ∧ Entered .dataAbort (s.pc + 8#32) s t ∧
      (∀ v, wb = some v → bank s.cpsr.mode x.rn ≠ .r14abt → t.regs.get (bank s.cpsr.mode x.rn) = .value v) ∧
      (loadForm i = some x → bank s.cpsr.mode x.rd ≠ .r14abt →
        t.regs.get (bank s.cpsr.mode x.rd) = .unspecified) ∧
      (∀ q : PhysReg, q ≠ .r15 → q ≠ .r14abt → (wb.isSome = true → q ≠ bank s.cpsr.mode x.rn) →
        (loadForm i = some x → q ≠ bank s.cpsr.mode x.rd) → t.regs.get q = s.regs.get q) ∧
      (loadForm i = some x → t.mem = s.mem) ∧
      (storeForm i = some x → SameOutside s t addr.toNat x.size.bytes ∧
        ∀ a, addr.toNat ≤ a → a < addr.toNat + x.size.bytes → t.mem.get? a = none)

/-- What an access of a width reads and writes, in both byte orders (20_memory.md R63). -/
def Obligations.ByteOrder : Prop :=
  ∀ (size : Size) (addr : Word) (s : State), addr.toNat % size.bytes = 0 → s.abortNow = false →
    (∀ v, valueAt? s.cfg.bigEndian size s.mem addr.toNat = some v → memRead size addr s = (some v, s.answered)) ∧
    (∀ v : Word, ∃ t, memWrite size addr v s = (true, t) ∧
      valueAt? s.cfg.bigEndian size t.mem addr.toNat = some (narrowed size v) ∧
      SameOutside s t addr.toNat size.bytes)

/-- A narrower read of what a wider store wrote, and a wider read of what narrower stores wrote, for every pair of widths
(20_memory.md R65). -/
def Obligations.MixedWidthAccess : Prop :=
  (∀ (addr v : Word) (s : State), addr.toNat % 4 = 0 → s.quiet 2 → ∃ t, memWrite .word addr v s = (true, t) ∧
    (∀ k : Nat, k < 4 →
      (memRead .byte (addr + BitVec.ofNat 32 k) t).1 =
        some (((v >>> (if s.cfg.bigEndian then 24 - 8 * k else 8 * k)).setWidth 8).setWidth 32)) ∧
    (∀ k : Nat, k = 0 ∨ k = 2 →
      (memRead .half (addr + BitVec.ofNat 32 k) t).1 =
        some (((v >>> (if s.cfg.bigEndian then 16 - 8 * k else 8 * k)).setWidth 16).setWidth 32))) ∧
  (∀ (addr v : Word) (s : State), addr.toNat % 2 = 0 → s.quiet 2 → ∃ t, memWrite .half addr v s = (true, t) ∧
    ∀ k : Nat, k < 2 →
      (memRead .byte (addr + BitVec.ofNat 32 k) t).1 =
        some (((v >>> (if s.cfg.bigEndian then 8 - 8 * k else 8 * k)).setWidth 8).setWidth 32)) ∧
  (∀ (addr v w : Word) (s : State), addr.toNat % 4 = 0 → s.quiet 3 →
    ∃ t u, memWrite .half addr v s = (true, t) ∧ memWrite .half (addr + 2#32) w t = (true, u) ∧
      (memRead .word addr u).1 =
        some (if s.cfg.bigEndian then v.setWidth 16 ++ w.setWidth 16 else w.setWidth 16 ++ v.setWidth 16)) ∧
  (∀ (addr v w : Word) (s : State), addr.toNat % 2 = 0 → s.quiet 3 →
    ∃ t u, memWrite .byte addr v s = (true, t) ∧ memWrite .byte (addr + 1#32) w t = (true, u) ∧
      (memRead .half addr u).1 =
        some ((if s.cfg.bigEndian then v.setWidth 8 ++ w.setWidth 8 else w.setWidth 8 ++ v.setWidth 8).setWidth 32)) ∧
  (∀ (addr v₀ v₁ v₂ v₃ : Word) (s : State), addr.toNat % 4 = 0 → s.quiet 5 →
    let b := fun (v : Word) => v.setWidth 8
    ∃ t₀ t₁ t₂ t₃, memWrite .byte addr v₀ s = (true, t₀) ∧ memWrite .byte (addr + 1#32) v₁ t₀ = (true, t₁) ∧
      memWrite .byte (addr + 2#32) v₂ t₁ = (true, t₂) ∧ memWrite .byte (addr + 3#32) v₃ t₂ = (true, t₃) ∧
      (memRead .word addr t₃).1 =
        some (if s.cfg.bigEndian then b v₀ ++ b v₁ ++ b v₂ ++ b v₃ else b v₃ ++ b v₂ ++ b v₁ ++ b v₀))

/-- The registers, addresses and write-back value of a block transfer, and its refusals in their order
(43_load_store.md R175). -/
def Obligations.BlockAddresses : Prop :=
  (∀ (base : Word) (list : BitVec 16) (k : Nat),
    let n := (regsOf list).length
    let four := fun (j : Nat) => BitVec.ofNat 32 (4 * j)
    (∀ i : RegNum, i ∈ regsOf list ↔ list.getLsbD i.toNat = true) ∧
    (regsOf list).Pairwise (fun i j => i.toNat < j.toNat) ∧
    (list ≠ 0#16 → 1 ≤ n ∧ n ≤ 16) ∧
    blockAddr false true base list k = (base + four k).toNat ∧ blockWb false true base list = base + four n ∧
    blockAddr true true base list k = (base + 4#32 + four k).toNat ∧ blockWb true true base list = base + four n ∧
    blockAddr false false base list k = (base - four n + 4#32 + four k).toNat ∧
    blockWb false false base list = base - four n ∧
    blockAddr true false base list k = (base - four n + four k).toNat ∧ blockWb true false base list = base - four n) ∧
  (∀ (i : Instr) (c : Cond) (p u sbit w : Bool) (rn : RegNum) (list : BitVec 16) (s : State),
    i = .ldm c p u sbit w rn list ∨ i = .stm c p u sbit w rn list → s.passes c →
    (sbit = true → exec i s = .refused .blockSBit) ∧
    (sbit = false → rn = 15#4 → exec i s = .refused .r15Operand) ∧
    (sbit = false → rn ≠ 15#4 → list = 0#16 → exec i s = .refused .emptyList) ∧
    (sbit = false → rn ≠ 15#4 → list ≠ 0#16 → (s.reg rn).toNat % 4 ≠ 0 → exec i s = .refused .misalignedAccess) ∧
    (sbit = false → rn ≠ 15#4 → list ≠ 0#16 → (s.reg rn).toNat % 4 = 0 → w = true → list.getLsbD rn.toNat = true →
      exec i s = .refused .writebackInList))

/-- LDM (43_load_store.md R166): the words at the block's addresses to the registers of the list, the write-back, and the
jump when R15 is listed; an aborted access leads to the data abort; one that would advance past the last address is refused
(10_state.md R32). -/
def Obligations.LdmLoadsBlock : Prop :=
  (∀ (c : Cond) (p u w : Bool) (rn : RegNum) (list : BitVec 16),
    decodeArm (c.bits ++ 0b100#3 ++ BitVec.ofBool p ++ BitVec.ofBool u ++ 0#1 ++ BitVec.ofBool w ++ 1#1 ++ rn ++ list) =
      .ok (.ldm c p u false w rn list)) ∧
  (∀ (c : Cond) (p u w : Bool) (rn : RegNum) (list : BitVec 16) (s : State) (vs : List Word),
    s.passes c → s.blockLegal w rn list → s.quiet (regsOf list).length → vs.length = (regsOf list).length →
    (∀ k (h : k < vs.length), wordAt? s.cfg.bigEndian s.mem (blockAddr p u (s.reg rn) list k) = some vs[k]) →
    (∀ v, list.getLsbD 15 = true → vs.getLast? = some v → v.toNat % 4 ≠ 0 →
      exec (.ldm c p u false w rn list) s = .refused .misalignedPc) ∧
    ((∀ v, list.getLsbD 15 = true → vs.getLast? = some v → v.toNat % 4 = 0) →
      (list.getLsbD 15 = false → s.canAdvance 4) →
      ∃ t, exec (.ldm c p u false w rn list) s = .next t ∧
        (∀ k (h : k < vs.length) (i : RegNum), (regsOf list)[k]? = some i → i ≠ 15#4 →
          t.regIn s.cpsr.mode i = .value vs[k]) ∧
        (w = true → t.regIn s.cpsr.mode rn = .value (blockWb p u (s.reg rn) list)) ∧
        (list.getLsbD 15 = true → vs.getLast? = some t.pc) ∧
        (list.getLsbD 15 = false → t.pc = s.pc + 4#32) ∧
        (∀ q : PhysReg, q ≠ .r15 → (∀ i, list.getLsbD i.toNat = true → q ≠ bank s.cpsr.mode i) →
          (w = true → q ≠ bank s.cpsr.mode rn) → t.regs.get q = s.regs.get q) ∧
        t.mem = s.mem ∧ t.modified = s.modified ∧ SameStatus s t ∧ t.draws = s.draws ∧
        t.aborts = s.aborts.drop vs.length)) ∧
  (∀ (c : Cond) (p u w : Bool) (rn : RegNum) (list : BitVec 16) (s : State),
    s.passes c → s.blockLegal w rn list → s.quiet (regsOf list).length → list.getLsbD 15 = false → ¬ s.canAdvance 4 →
    exec (.ldm c p u false w rn list) s = .refused .pcWrap) ∧
  (∀ (c : Cond) (p u w : Bool) (rn : RegNum) (list : BitVec 16) (s : State),
    s.passes c → s.blockLegal w rn list → ¬ s.quiet (regsOf list).length →
    ∃ t, exec (.ldm c p u false w rn list) s = .next t ∧ Entered .dataAbort (s.pc + 8#32) s t)

/-- STM (43_load_store.md R167): the registers of the list to the block's addresses, every other byte unchanged, and the
write-back; an aborted access leads to the data abort; one that completes at the last address is refused (10_state.md R32). -/
def Obligations.StmStoresBlock : Prop :=
  (∀ (c : Cond) (p u w : Bool) (rn : RegNum) (list : BitVec 16),
    decodeArm (c.bits ++ 0b100#3 ++ BitVec.ofBool p ++ BitVec.ofBool u ++ 0#1 ++ BitVec.ofBool w ++ 0#1 ++ rn ++ list) =
      .ok (.stm c p u false w rn list)) ∧
  (∀ (c : Cond) (p u w : Bool) (rn : RegNum) (list : BitVec 16) (s : State), s.passes c → s.blockLegal w rn list →
    let n := (regsOf list).length
    let at_ := blockAddr p u (s.reg rn) list
    (list.getLsbD 15 = true → exec (.stm c p u false w rn list) s = .refused .r15Operand) ∧
    (list.getLsbD 15 = false → s.quiet n → s.canAdvance 4 →
      ∃ t, exec (.stm c p u false w rn list) s = .next t ∧
        (∀ k i, (regsOf list)[k]? = some i → wordAt? s.cfg.bigEndian t.mem (at_ k) = some (s.second i)) ∧
        (∀ a, (∀ k < n, a < at_ k ∨ at_ k + 4 ≤ a) → t.mem.get? a = s.mem.get? a) ∧
        t.regs = ((if w then s.setReg rn (blockWb p u (s.reg rn) list) else s).setPc (s.pc + 4#32)).regs ∧
        SameStatus s t ∧ t.draws = s.draws ∧ t.aborts = s.aborts.drop n) ∧
    (list.getLsbD 15 = false → s.quiet n → ¬ s.canAdvance 4 → exec (.stm c p u false w rn list) s = .refused .pcWrap) ∧
    (list.getLsbD 15 = false → ¬ s.quiet n →
      ∃ t, exec (.stm c p u false w rn list) s = .next t ∧ Entered .dataAbort (s.pc + 8#32) s t))

/-- An LDM whose j-th access is the first to abort (43_load_store.md R172): the registers before it are loaded, the base is
updated or restored, the rest is as it was, the remaining reads are issued. -/
def Obligations.LdmAbort : Prop :=
  ∀ (c : Cond) (p u w : Bool) (rn : RegNum) (list : BitVec 16) (s : State) (vs : List Word),
    s.passes c → s.blockLegal w rn list → vs.length < (regsOf list).length → s.quiet vs.length →
    s.aborts.getD vs.length false = true →
    (∀ k (h : k < vs.length), wordAt? s.cfg.bigEndian s.mem (blockAddr p u (s.reg rn) list k) = some vs[k]) →
    ∃ t, exec (.ldm c p u false w rn list) s = .next t ∧ Entered .dataAbort (s.pc + 8#32) s t ∧
      (∀ k (h : k < vs.length) (i : RegNum), (regsOf list)[k]? = some i → i ≠ rn → bank s.cpsr.mode i ≠ .r14abt →
        t.regs.get (bank s.cpsr.mode i) = .value vs[k]) ∧
      (bank s.cpsr.mode rn ≠ .r14abt →
        t.regs.get (bank s.cpsr.mode rn) =
          if w then .value (blockWb p u (s.reg rn) list) else s.regs.get (bank s.cpsr.mode rn)) ∧
      (∀ q : PhysReg, q ≠ .r15 → q ≠ .r14abt → q ≠ bank s.cpsr.mode rn →
        (∀ k i, k < vs.length → (regsOf list)[k]? = some i → q ≠ bank s.cpsr.mode i) →
        t.regs.get q = s.regs.get q) ∧
      t.mem = s.mem ∧ t.aborts = s.aborts.drop (regsOf list).length

/-- An STM some access of which aborts (43_load_store.md R173): the stores answered ok have updated memory, the bytes of the
others have no value, the base is written back if asked for, and no other register changes. R173 says of the bytes of an
aborted store only that they are unspecified: that they hold no value is the model's choice (log 14). -/
def Obligations.StmAbort : Prop :=
  ∀ (c : Cond) (p u w : Bool) (rn : RegNum) (list : BitVec 16) (s : State), s.passes c → s.blockLegal w rn list →
    list.getLsbD 15 = false →
    let n := (regsOf list).length
    let at_ := blockAddr p u (s.reg rn) list
    ¬ s.quiet n →
    ∃ t, exec (.stm c p u false w rn list) s = .next t ∧ Entered .dataAbort (s.pc + 8#32) s t ∧
      (∀ k i, (regsOf list)[k]? = some i → s.aborts.getD k false = false →
        wordAt? s.cfg.bigEndian t.mem (at_ k) = some (s.second i)) ∧
      (∀ k a, k < n → s.aborts.getD k false = true → at_ k ≤ a → a < at_ k + 4 → t.mem.get? a = none) ∧
      (∀ a, (∀ k < n, a < at_ k ∨ at_ k + 4 ≤ a) → t.mem.get? a = s.mem.get? a) ∧
      (w = true → bank s.cpsr.mode rn ≠ .r14abt →
        t.regs.get (bank s.cpsr.mode rn) = .value (blockWb p u (s.reg rn) list)) ∧
      (∀ q : PhysReg, q ≠ .r15 → q ≠ .r14abt → (w = true → q ≠ bank s.cpsr.mode rn) → t.regs.get q = s.regs.get q)

/-- SWP and SWPB (43_load_store.md R168, R169): Rd receives what memory held, memory what Rm held; the refusals in their
order, that of an end at the last address (10_state.md R32) among them. -/
def Obligations.SwapExchanges : Prop :=
  (∀ (c : Cond) (rn rd rm : RegNum),
    decodeArm (c.bits ++ 0b00010000#8 ++ rn ++ rd ++ 0b00001001#8 ++ rm) = .ok (.swp c rn rd rm) ∧
    decodeArm (c.bits ++ 0b00010100#8 ++ rn ++ rd ++ 0b00001001#8 ++ rm) = .ok (.swpb c rn rd rm)) ∧
  (∀ (i : Instr) (c : Cond) (size : Size) (rn rd rm : RegNum) (s : State),
    swapForm i = some (c, size, rn, rd, rm) → s.passes c →
    (rd = 15#4 ∨ rm = 15#4 ∨ rn = 15#4 → exec i s = .refused .r15InSwap) ∧
    (rd ≠ 15#4 → rm ≠ 15#4 → rn ≠ 15#4 → rn = rm ∨ rn = rd → exec i s = .refused .swapBaseIsData) ∧
    (rd ≠ 15#4 → rm ≠ 15#4 → rn ≠ 15#4 → rn ≠ rm → rn ≠ rd → (s.reg rn).toNat % size.bytes ≠ 0 →
      exec i s = .refused .misalignedAccess) ∧
    (∀ v, s.swapLegal size rn rd rm → s.quiet 2 → s.canAdvance 4 →
      valueAt? s.cfg.bigEndian size s.mem (s.reg rn).toNat = some v →
      ∃ t, exec i s = .next t ∧
        valueAt? s.cfg.bigEndian size t.mem (s.reg rn).toNat = some (narrowed size (s.second rm)) ∧
        SameOutside s t (s.reg rn).toNat size.bytes ∧ t.regs = ((s.setReg rd v).setPc (s.pc + 4#32)).regs ∧
        SameStatus s t ∧ t.draws = s.draws ∧ t.aborts = s.aborts.drop 2) ∧
    (s.swapLegal size rn rd rm → s.quiet 2 → ¬ s.canAdvance 4 → exec i s = .refused .pcWrap) ∧
    (s.swapLegal size rn rd rm → ¬ s.quiet 2 → ∃ t, exec i s = .next t ∧ Entered .dataAbort (s.pc + 8#32) s t))

/-- A swap either access of which aborts (43_load_store.md R171): no register and no byte of memory changes, and the data
abort is taken. -/
def Obligations.SwapAbort : Prop :=
  ∀ (i : Instr) (c : Cond) (size : Size) (rn rd rm : RegNum) (s : State),
    swapForm i = some (c, size, rn, rd, rm) → s.passes c → s.swapLegal size rn rd rm → ¬ s.quiet 2 →
    ∃ t, exec i s = .next t ∧ Entered .dataAbort (s.pc + 8#32) s t ∧ t.mem = s.mem ∧ t.modified = s.modified ∧
      ∀ q : PhysReg, q ≠ .r15 → q ≠ .r14abt → t.regs.get q = s.regs.get q

/-! ## Software interrupt, undefined instruction, THUMB instructions -/

/-- SWI in ARM state (44_swi_undefined.md R190) and in THUMB state (45_thumb.md R206), with the comment ignored. -/
def Obligations.SwiEntersSupervisor : Prop :=
  (∀ (c : Cond) (comment : BitVec 24) (s : State),
    decodeArm (c.bits ++ 0b1111#4 ++ comment) = .ok (.swi c comment) ∧
    (s.passes c →
      exec (.swi c comment) s =
        .next ({ s with
          regs := { s.regs with r14svc := .value (s.pc + 4#32), r15 := 0x00000008#32 }
          spsrs := { s.spsrs with svc := s.cpsr.toPsr }
          cpsr := { s.cpsr with mode := .svc, t := false, i := true } }))) ∧
  (∀ (value : Byte) (s : State),
    decodeThumb (0b11011111#8 ++ value) = .ok (.tSwi value) ∧
    exec (.tSwi value) s =
      .next ({ s with
        regs := { s.regs with r14svc := .value (s.pc + 2#32), r15 := 0x00000008#32 }
        spsrs := { s.spsrs with svc := s.cpsr.toPsr }
        cpsr := { s.cpsr with mode := .svc, t := false, i := true } }))

/-- The undefined instruction (44_swi_undefined.md R191): the trap; that no other word is this instruction; and that no other
instruction enters Undefined mode by a trap, which would write SPSR_und. -/
def Obligations.UndefinedTrap : Prop :=
  (∀ (c : Cond) (high : BitVec 20) (low : BitVec 4) (s : State),
    decodeArm (c.bits ++ 0b011#3 ++ high ++ 1#1 ++ low) = .ok (.und c high low) ∧
    (s.passes c →
      exec (.und c high low) s =
        .next ({ s with
          regs := { s.regs with r14und := .value (s.pc + 4#32), r15 := 0x00000004#32 }
          spsrs := { s.spsrs with und := s.cpsr.toPsr }
          cpsr := { s.cpsr with mode := .und, t := false, i := true } }))) ∧
  (∀ (w : Word) (c : Cond) (high : BitVec 20) (low : BitVec 4), decodeArm w = .ok (.und c high low) →
    w = c.bits ++ 0b011#3 ++ high ++ 1#1 ++ low) ∧
  (∀ (i : Instr) (s t : State), exec i s = .next t → s.cpsr.mode ≠ .und → t.spsrs.und ≠ s.spsrs.und →
    ∃ c high low, i = .und c high low)

/-- THUMB ADD, CMP and MOV on high registers (45_thumb.md R200 to R203): encodings, refusals, results, and the refusal
at the last address (10_state.md R32). -/
def Obligations.ThumbHighRegisters : Prop :=
  ∀ (rd rs : RegNum) (s : State),
    let fields := rd.extractLsb' 3 1 ++ rs ++ rd.extractLsb' 0 3
    decodeThumb (0b01000100#8 ++ fields) = .ok (.tAdd rd rs) ∧
    decodeThumb (0b01000101#8 ++ fields) = .ok (.tCmp rd rs) ∧
    decodeThumb (0b01000110#8 ++ fields) = .ok (.tMov rd rs) ∧
    (rd.toNat < 8 → rs.toNat < 8 →
      exec (.tAdd rd rs) s = .refused .bothLow ∧ exec (.tCmp rd rs) s = .refused .bothLow ∧
      exec (.tMov rd rs) s = .refused .bothLow) ∧
    (rs = 15#4 → exec (.tMov rd rs) s = .refused .r15Operand) ∧
    (rs = 15#4 ∨ rd = 15#4 →
      exec (.tAdd rd rs) s = .refused .r15Operand ∧ exec (.tCmp rd rs) s = .refused .r15Operand) ∧
    (thumbPair rd rs → rd ≠ 15#4 → s.canAdvance 2 →
      exec (.tAdd rd rs) s = .next ((s.setReg rd (s.reg rd + s.second rs)).setPc (s.pc + 2#32)) ∧
      exec (.tCmp rd rs) s = .next ((s.setFlags (diffFlags (s.reg rd) (s.second rs)).held).setPc (s.pc + 2#32)) ∧
      exec (.tMov rd rs) s = .next ((s.setReg rd (s.second rs)).setPc (s.pc + 2#32))) ∧
    (thumbPair rd rs → rd ≠ 15#4 → ¬ s.canAdvance 2 →
      exec (.tAdd rd rs) s = .refused .pcWrap ∧ exec (.tCmp rd rs) s = .refused .pcWrap ∧
      exec (.tMov rd rs) s = .refused .pcWrap) ∧
    (thumbPair rd rs → rd = 15#4 → exec (.tMov rd rs) s = .next (s.setPc ((s.second rs).extractLsb' 1 31 ++ 0#1)))

/-! ## Conditions, refusals, frames -/

/-- The condition codes (30_encoding.md R93): the table, the instruction whose condition fails, and the code 1111. A flag
that holds no value is a free one in this test (log 5). -/
def Obligations.ConditionCodes : Prop :=
  (∀ fl : Flags,
    condHolds .eq fl = fl.z ∧ condHolds .ne fl = !fl.z ∧ condHolds .cs fl = fl.c ∧ condHolds .cc fl = !fl.c ∧
    condHolds .mi fl = fl.n ∧ condHolds .pl fl = !fl.n ∧ condHolds .vs fl = fl.v ∧ condHolds .vc fl = !fl.v ∧
    condHolds .hi fl = (fl.c && !fl.z) ∧ condHolds .ls fl = (!fl.c || fl.z) ∧
    condHolds .ge fl = decide (fl.n = fl.v) ∧ condHolds .lt fl = decide (fl.n ≠ fl.v) ∧
    condHolds .gt fl = (!fl.z && decide (fl.n = fl.v)) ∧ condHolds .le fl = (fl.z || decide (fl.n ≠ fl.v)) ∧
    condHolds .al fl = true) ∧
  (∀ (i : Instr) (c : Cond) (s : State), armCond i = some c →
    (c = .nv → exec i s = .refused .cond1111) ∧
    (c ≠ .nv → condHolds c s.flags = false → s.canAdvance 4 → exec i s = .next (s.setPc (s.pc + 4#32))) ∧
    (c ≠ .nv → condHolds c s.flags = false → ¬ s.canAdvance 4 → exec i s = .refused .pcWrap))

/-- No form that would read R15 as an operand or base, or store it, runs (10_state.md R31): it is refused. -/
def Obligations.R15OperandRefused : Prop :=
  ∀ (i : Instr) (s : State), readsR15 i = true → (∀ c, armCond i = some c → s.passes c) →
    ∃ r, exec i s = .refused r

/-- No single transfer, block transfer or swap makes a misaligned access (20_memory.md R66): a word or halfword address that
is no multiple of its size is refused. -/
def Obligations.MisalignedAccessRefused : Prop :=
  (∀ (i : Instr) (x : Transfer) (s : State) (addr : Word) (wb : Option Word),
    loadForm i = some x ∨ storeForm i = some x → s.passes x.cond →
    transferAddress x.p x.u x.w (s.reg x.rn) x.offset = some (addr, wb) → addr.toNat % x.size.bytes ≠ 0 →
    ∃ r, exec i s = .refused r) ∧
  (∀ (i : Instr) (c : Cond) (p u sbit w : Bool) (rn : RegNum) (list : BitVec 16) (s : State),
    i = .ldm c p u sbit w rn list ∨ i = .stm c p u sbit w rn list → s.passes c → (s.reg rn).toNat % 4 ≠ 0 →
    ∃ r, exec i s = .refused r) ∧
  (∀ (c : Cond) (rn rd rm : RegNum) (s : State), s.passes c → (s.reg rn).toNat % 4 ≠ 0 →
    ∃ r, exec (.swp c rn rd rm) s = .refused r)

/-- The frame of the instructions that work on registers and status only (41_data_processing.md, 42_psr_access.md,
40_branch_and_state_switch.md, 45_thumb.md): of the general registers only the pc and the destination (R14 for BL) may change; no
byte of memory and no SPSR does, but for MSR; without the S bit the CPSR stays. -/
def Obligations.RegisterInstructionFrame : Prop :=
  ∀ (i : Instr) (d : Option RegNum) (s t : State), registerForm i = some d → exec i s = .next t →
    (∀ q : PhysReg, q ≠ .r15 → (∀ r, d = some r → q ≠ bank s.cpsr.mode r) → t.regs.get q = s.regs.get q) ∧
    (∀ a, t.mem.get? a = s.mem.get? a) ∧ t.modified = s.modified ∧ t.aborts = s.aborts ∧ t.lines = s.lines ∧
    t.cfg = s.cfg ∧
    ((∀ c mask v, msrForm i s ≠ some (c, true, mask, v)) → t.spsrs = s.spsrs) ∧
    (keepsCpsr i = true → t.cpsr = s.cpsr)

/-- The frame of memory (20_memory.md R68): an instruction that stores nothing leaves every byte as it was; a store, an STM
and a swap leave every byte as it was outside the bytes they store to, even when they abort. -/
def Obligations.MemoryFrame : Prop :=
  ∀ (i : Instr) (s t : State), exec i s = .next t →
    (mayStore i = false → ∀ a, t.mem.get? a = s.mem.get? a) ∧
    (∀ x addr wb, storeForm i = some x →
      transferAddress x.p x.u x.w (s.reg x.rn) x.offset = some (addr, wb) → SameOutside s t addr.toNat x.size.bytes) ∧
    (∀ c p u sbit w rn list, i = .stm c p u sbit w rn list →
      ∀ a, (∀ k < (regsOf list).length,
          a < blockAddr p u (s.reg rn) list k ∨ blockAddr p u (s.reg rn) list k + 4 ≤ a) →
        t.mem.get? a = s.mem.get? a) ∧
    (∀ c size rn rd rm, swapForm i = some (c, size, rn, rd, rm) → SameOutside s t (s.reg rn).toNat size.bytes)

/-- The banking function (10_state.md R24): which physical register a number names in each mode. -/
def Obligations.RegisterBanks : Prop :=
  (∀ m : Mode,
    bank m 0#4 = .r0 ∧ bank m 1#4 = .r1 ∧ bank m 2#4 = .r2 ∧ bank m 3#4 = .r3 ∧ bank m 4#4 = .r4 ∧ bank m 5#4 = .r5 ∧
    bank m 6#4 = .r6 ∧ bank m 7#4 = .r7 ∧ bank m 15#4 = .r15 ∧
    (m = .fiq → bank m 8#4 = .r8fiq ∧ bank m 9#4 = .r9fiq ∧ bank m 10#4 = .r10fiq ∧ bank m 11#4 = .r11fiq ∧
      bank m 12#4 = .r12fiq) ∧
    (m ≠ .fiq → bank m 8#4 = .r8usr ∧ bank m 9#4 = .r9usr ∧ bank m 10#4 = .r10usr ∧ bank m 11#4 = .r11usr ∧
      bank m 12#4 = .r12usr)) ∧
  (bank .usr 13#4 = .r13usr ∧ bank .sys 13#4 = .r13usr ∧ bank .fiq 13#4 = .r13fiq ∧ bank .irq 13#4 = .r13irq ∧
    bank .svc 13#4 = .r13svc ∧ bank .abt 13#4 = .r13abt ∧ bank .und 13#4 = .r13und) ∧
  (bank .usr 14#4 = .r14usr ∧ bank .sys 14#4 = .r14usr ∧ bank .fiq 14#4 = .r14fiq ∧ bank .irq 14#4 = .r14irq ∧
    bank .svc 14#4 = .r14svc ∧ bank .abt 14#4 = .r14abt ∧ bank .und 14#4 = .r14und) ∧
  (∀ (s : State) (i j : RegNum) (v : Word) (m : Mode),
    (s.setReg i v).regIn s.cpsr.mode i = .value v ∧ (s.setReg i v).reg i = v ∧ (j ≠ i → (s.setReg i v).reg j = s.reg j) ∧
    (bank m j ≠ bank s.cpsr.mode i → (s.setReg i v).regIn m j = s.regIn m j))

/-! ## Exceptions -/

/-- Taking an exception (60_exceptions.md R225): the modes, link registers and SPSRs (R222), the vectors (R223), what it saves,
what the status becomes, where the pc goes, and that nothing else changes. Of reset R225 leaves the saved values unspecified,
so only its mode, masks and vector are said here; the rest of reset is 70_reset_and_hazards.md R271 (ResetSequence). -/
def Obligations.ExceptionEntry : Prop :=
  (Exn.reset.mode = .svc ∧ Exn.undefined.mode = .und ∧ Exn.swi.mode = .svc ∧ Exn.prefetchAbort.mode = .abt ∧
    Exn.dataAbort.mode = .abt ∧ Exn.irq.mode = .irq ∧ Exn.fiq.mode = .fiq) ∧
  (bank Exn.reset.mode 14#4 = .r14svc ∧ bank Exn.undefined.mode 14#4 = .r14und ∧ bank Exn.swi.mode 14#4 = .r14svc ∧
    bank Exn.prefetchAbort.mode 14#4 = .r14abt ∧ bank Exn.dataAbort.mode 14#4 = .r14abt ∧
    bank Exn.irq.mode 14#4 = .r14irq ∧ bank Exn.fiq.mode 14#4 = .r14fiq) ∧
  (Exn.reset.spsr = .svc ∧ Exn.undefined.spsr = .und ∧ Exn.swi.spsr = .svc ∧ Exn.prefetchAbort.spsr = .abt ∧
    Exn.dataAbort.spsr = .abt ∧ Exn.irq.spsr = .irq ∧ Exn.fiq.spsr = .fiq ∧ ∀ e : Exn, e.mode.spsr? = some e.spsr) ∧
  (Exn.reset.vector = 0x00#32 ∧ Exn.undefined.vector = 0x04#32 ∧ Exn.swi.vector = 0x08#32 ∧
    Exn.prefetchAbort.vector = 0x0C#32 ∧ Exn.dataAbort.vector = 0x10#32 ∧ Exn.irq.vector = 0x18#32 ∧
    Exn.fiq.vector = 0x1C#32) ∧
  (∀ (e : Exn) (ret : Word) (s : State),
    let t := raise e ret s
    t.cpsr.mode = e.mode ∧ t.cpsr.t = false ∧ t.cpsr.i = true ∧
    (e = .reset ∨ e = .fiq → t.cpsr.f = true) ∧ (e ≠ .reset → e ≠ .fiq → t.cpsr.f = s.cpsr.f) ∧
    t.pc = e.vector ∧
    (e ≠ .reset →
      t.regIn e.mode 14#4 = .value ret ∧
      t.spsrs.get e.spsr =
        ⟨s.cpsr.flags, .value s.cpsr.i, .value s.cpsr.f, .value s.cpsr.t, .value s.cpsr.mode.bits⟩ ∧
      t.cpsr.flags = s.cpsr.flags ∧
      (∀ q : PhysReg, q ≠ .r15 → q ≠ bank e.mode 14#4 → t.regs.get q = s.regs.get q) ∧
      (∀ n, n ≠ e.spsr → t.spsrs.get n = s.spsrs.get n) ∧
      t.mem = s.mem ∧ t.modified = s.modified ∧ t.wedged = s.wedged))

/-- An exception followed by its return statement (60_exceptions.md R229, R230) restores the CPSR and resumes at the link value
less the offset; the only trace is the link register and the SPSR of the exception's mode, and that a flag that held no value
holds a free one, since the return reads the SPSR (log 5). The words of the return statements are with it, and the return
from BL. -/
def Obligations.ReturnRestores : Prop :=
  (∀ (e : Exn) (ret : Word) (s : State), e ≠ .reset →
    pcFits s.cpsr.t (ret - returnOffset e) = true →
    exec (returnStatement e) (raise e ret s) =
      .next ({ s with
        regs := ((s.setRegIn e.mode 14#4 ret).setPc (ret - returnOffset e)).regs
        cpsr := { s.cpsr with flags := (s.cpsr.flags.read s.freeStatus).held }
        spsrs := s.spsrs.set e.spsr s.cpsr.toPsr })) ∧
  (∀ (fl : Flags) (s : State), s.cpsr.flags = fl.held → (s.cpsr.flags.read s.freeStatus).held = s.cpsr.flags) ∧
  decodeArm 0xE1B0F00E#32 = .ok (returnStatement .swi) ∧ decodeArm 0xE1B0F00E#32 = .ok (returnStatement .undefined) ∧
  decodeArm 0xE25EF004#32 = .ok (returnStatement .fiq) ∧ decodeArm 0xE25EF004#32 = .ok (returnStatement .irq) ∧
  decodeArm 0xE25EF004#32 = .ok (returnStatement .prefetchAbort) ∧
  decodeArm 0xE25EF008#32 = .ok (returnStatement .dataAbort) ∧
  decodeArm 0xE1A0F00E#32 = .ok (.movReg .al false 15#4 14#4) ∧
  (∀ s : State, (s.reg 14#4).toNat % 4 = 0 → exec (.movReg .al false 15#4 14#4) s = .next (s.setPc (s.reg 14#4)))

/-- FIQ and IRQ at an instruction boundary (60_exceptions.md R232, R233): FIQ first, each only while its disable bit is 0,
with the link value next + 4. -/
def Obligations.InterruptsAtBoundary : Prop :=
  ∀ s : State, s.linesNow.nRESET = true → s.wedged = false →
    (s.linesNow.nFIQ = false → s.cpsr.f = false → step s = .next (raise .fiq (s.pc + 4#32) s.boundaryPassed)) ∧
    (s.linesNow.nFIQ = true ∨ s.cpsr.f = true → s.linesNow.nIRQ = false → s.cpsr.i = false →
      step s = .next (raise .irq (s.pc + 4#32) s.boundaryPassed)) ∧
    (raise .fiq (s.pc + 4#32) s).cpsr = ⟨s.cpsr.flags, true, true, false, .fiq⟩ ∧
    (raise .fiq (s.pc + 4#32) s).pc = 0x1C#32 ∧ (raise .fiq (s.pc + 4#32) s).regs.r14fiq = .value (s.pc + 4#32) ∧
    (raise .irq (s.pc + 4#32) s).cpsr = ⟨s.cpsr.flags, true, s.cpsr.f, false, .irq⟩ ∧
    (raise .irq (s.pc + 4#32) s).pc = 0x18#32 ∧ (raise .irq (s.pc + 4#32) s).regs.r14irq = .value (s.pc + 4#32)

/-- A fetch that aborts (60_exceptions.md R220, R234; 20_memory.md R73): the prefetch abort is taken with link value pc + 4. -/
def Obligations.PrefetchAbortTaken : Prop :=
  ∀ s : State, s.undisturbed → s.pcAligned → s.unmodified s.pc.toNat (instrLength s.cpsr.t) → s.abortNow = true →
    ∃ t, step s = .next t ∧ Entered .prefetchAbort (s.pc + 4#32) s t ∧ t.mem = s.mem ∧
      ∀ q : PhysReg, q ≠ .r15 → q ≠ .r14abt → t.regs.get q = s.regs.get q

/-- A data abort with an FIQ pending (60_exceptions.md R237): the step after the data abort entry takes the FIQ, its return
resumes the abort handler at 0x10 with R14_abt and SPSR_abt intact; a pending IRQ waits. A flag that held no value holds a free
one after the return (log 5). -/
def Obligations.FiqDuringDataAbort : Prop :=
  ∀ (ret : Word) (s : State), s.cpsr.f = false → s.wedged = false → s.linesNow.nRESET = true →
    let t := raise .dataAbort ret s
    t.cpsr.mode = .abt ∧ t.cpsr.i = true ∧ t.cpsr.f = false ∧ t.pc = 0x10#32 ∧
    (s.linesNow.nFIQ = false →
      ∃ u v, step t = .next u ∧ u.regs.r14fiq = .value 0x14#32 ∧ u.spsrs.fiq = t.cpsr.toPsr ∧ u.pc = 0x1C#32 ∧
        u.cpsr.mode = .fiq ∧ exec (returnStatement .fiq) u = .next v ∧ v.pc = 0x10#32 ∧
        v.cpsr = { t.cpsr with flags := (t.cpsr.flags.read u.freeStatus).held } ∧
        v.regs.r14abt = .value ret ∧ v.spsrs.abt = s.cpsr.toPsr) ∧
    (s.linesNow.nFIQ = true → s.linesNow.nIRQ = false → step t = fetchAndRun exec t.boundaryPassed)

/-- The T bit changes only by BX, by exception entry and by exception return, and BX changes neither the mode nor a
register but the pc (10_state.md R44). -/
def Obligations.StateSwitches : Prop :=
  (∀ (i : Instr) (s t : State), exec i s = .next t → t.cpsr.t ≠ s.cpsr.t →
    (∃ c rm, i = .bx c rm) ∨ (∃ rs, i = .tBx rs) ∨ (∃ e ret, Entered e ret s t) ∨
      (∃ c v n, returnForm i s = some (c, v) ∧ s.cpsr.mode.spsr? = some n ∧ 
        t.cpsr.toPsr = ((s.spsrs.get n).read s.freeStatus).held)) ∧
  (∀ (i : Instr) (s t : State), ((∃ c rm, i = .bx c rm) ∨ (∃ rs, i = .tBx rs)) → exec i s = .next t →
    t = { s with cpsr := { s.cpsr with t := t.cpsr.t } }.setPc t.pc)

/-- What a step from User mode can do without a reset (10_state.md R37, R46; 60_exceptions.md R245): it stays in User mode with
I, F, every SPSR and every register of another mode unchanged, or it takes an exception, which writes of those only the
link register and the SPSR of its own mode. It never wedges the machine. -/
def Obligations.UserModeIsConfined : Prop :=
  ∀ s t : State, s.cpsr.mode = .usr → s.wedged = false → s.linesNow.nRESET = true → step s = .next t →
    t.wedged = false ∧
    ((t.cpsr.mode = .usr ∧ t.cpsr.i = s.cpsr.i ∧ t.cpsr.f = s.cpsr.f ∧ t.spsrs = s.spsrs ∧
      ∀ q : PhysReg, (∀ i, q ≠ bank .usr i) → t.regs.get q = s.regs.get q) ∨
     (∃ e ret, e ≠ .reset ∧ Entered e ret s t ∧
      ∀ q : PhysReg, (∀ i, q ≠ bank .usr i) → q ≠ bank e.mode 14#4 → t.regs.get q = s.regs.get q))

/-- Only an MSR of an illegal mode and an exception return to one wedge the machine (10_state.md R40). That the wedged state
differs in the flag alone is the model's choice (log 11): R40 lets no claim be made about the contents of a wedged machine. -/
def Obligations.OnlyIllegalModesWedge : Prop :=
  ∀ (i : Instr) (s t : State), exec i s = .next t → s.wedged = false → t.wedged = true →
    t = { s with wedged := true } ∧
    ((∃ c mask v, msrForm i s = some (c, false, mask, v) ∧ mask[0] = true ∧ s.cpsr.mode ≠ .usr ∧
        ∀ m : Mode, m.bits ≠ v.extractLsb' 0 5) ∨
     (∃ c v n, returnForm i s = some (c, v) ∧ s.cpsr.mode.spsr? = some n ∧ 
        ∀ m : Mode, m.bits ≠ ((s.spsrs.get n).read s.freeStatus).m))

/-- A wedged machine has no step but reset (10_state.md R40). That it waits for the first sample with nRESET low is the model's
choice (log 11). -/
def Obligations.WedgedUntilReset : Prop :=
  ∀ s : State, s.wedged = true →
    ((∀ l ∈ s.lines, l.nRESET = true) → step s = .fault .wedged) ∧
    ((∃ l ∈ s.lines, l.nRESET = false) →
      ∃ t, step s = .next t ∧ t.wedged = false ∧ t.pc = 0#32 ∧ t.cpsr.mode = .svc ∧ t.cpsr.t = false ∧
        t.cpsr.i = true ∧ t.cpsr.f = true)

/-! ## Reset, the step, the run -/

/-- Reset of a running machine (70_reset_and_hazards.md R270, R271): it comes before everything else, writes what the rule
writes, and leaves every other register, every SPSR and the flags without a value (00_scope.md R12). That it takes every value
from memory, too, is the model's choice (log 12). -/
def Obligations.ResetSequence : Prop :=
  ∀ s : State, s.linesNow.nRESET = false →
    ∃ t, step s = .next t ∧ t.cpsr.mode = .svc ∧ t.cpsr.i = true ∧ t.cpsr.f = true ∧ t.cpsr.t = false ∧ t.pc = 0#32 ∧
      t.wedged = false ∧
      (∀ q : PhysReg, q ≠ .r15 → t.regs.get q = .unspecified) ∧
      t.cpsr.flags = ⟨.unspecified, .unspecified, .unspecified, .unspecified⟩ ∧
      (∀ n, t.spsrs.get n = ⟨t.cpsr.flags, .unspecified, .unspecified, .unspecified, .unspecified⟩) ∧
      ∀ a, t.mem.get? a = none

/-- Nothing of the registers, the status or the memory before a reset shows after it (70_reset_and_hazards.md R271, R273): two
machines that agree on the parameters, the environment, the set of stored bytes and the count of draws are the same machine
after it. That memory is among what is lost is the model's choice (log 12). -/
def Obligations.ResetForgets : Prop :=
  ∀ s t : State, s.linesNow.nRESET = false → s.lines = t.lines → s.cfg = t.cfg → s.aborts = t.aborts →
    s.modified = t.modified → s.draws = t.draws → ∃ u, step s = .next u ∧ step t = .next u

/-- The machine right after reset (10_state.md R48, 70_reset_and_hazards.md R272). That no byte of memory holds a value is the
model's choice (log 4). -/
def Obligations.ResetState : Prop :=
  State.reset.cpsr.mode = .svc ∧ State.reset.cpsr.i = true ∧ State.reset.cpsr.f = true ∧ State.reset.cpsr.t = false ∧
    State.reset.pc = 0#32 ∧ State.reset.wedged = false ∧ ∀ a, State.reset.mem.get? a = none

/-- A step runs the instruction its fetch decodes (60_exceptions.md R220): with nothing of the environment before it, the step is
exec of that instruction, after the boundary and the fetch's answer have passed. -/
def Obligations.StepRunsDecoded : Prop :=
  ∀ (s : State) (bytes : List Byte) (i : Instr), s.undisturbed → s.pcAligned →
    s.unmodified s.pc.toNat (instrLength s.cpsr.t) → s.abortNow = false → bytes.length = instrLength s.cpsr.t →
    (∀ k (h : k < bytes.length), s.mem.get? (s.pc.toNat + k) = some bytes[k]) →
    decode s.cfg.bigEndian s.cpsr.t bytes = .ok i →
    step s = exec i s.boundaryPassed.answered

/-- A word that matches no row of the subset is refused (30_encoding.md R103), whatever its condition field. -/
def Obligations.OutsideSubsetRefused : Prop :=
  (∀ (s : State) (bytes : List Byte), s.undisturbed → s.pcAligned → s.unmodified s.pc.toNat (instrLength s.cpsr.t) →
    s.abortNow = false → bytes.length = instrLength s.cpsr.t →
    (∀ k (h : k < bytes.length), s.mem.get? (s.pc.toNat + k) = some bytes[k]) →
    decode s.cfg.bigEndian s.cpsr.t bytes = .error .notInSubset →
    step s = .refused .notInSubset) ∧
  (∀ w : Word, decodeArm w = .error .notInSubset ↔ ∀ r ∈ armTable, w &&& r.mask ≠ r.value) ∧
  (∀ w v : Word, w.extractLsb' 0 28 = v.extractLsb' 0 28 →
    (decodeArm w = .error .notInSubset ↔ decodeArm v = .error .notInSubset))

/-- A fetch from a byte that a store of the run has written is refused (20_memory.md R80): an instruction notes every byte it
changes; a single store, an STM and a swap that is not aborted note every byte they store to, whether or not its value
changes; a byte once noted stays so. That an aborted store of a single store or an STM counts is the model's choice
(log 13). -/
def Obligations.ModifiedFetchRefused : Prop :=
  (∀ s : State, s.undisturbed → s.pcAligned → ¬ s.unmodified s.pc.toNat (instrLength s.cpsr.t) →
    step s = .refused .fetchModified) ∧
  (∀ (i : Instr) (s t : State), exec i s = .next t → ∀ a, s.mem.get? a ≠ t.mem.get? a → a ∈ t.modified) ∧
  (∀ (i : Instr) (s t : State), exec i s = .next t → ∀ a, a ∈ s.modified → a ∈ t.modified) ∧
  (∀ (i : Instr) (x : Transfer) (s t : State) (addr : Word) (wb : Option Word),
    storeForm i = some x → s.passes x.cond → x.legal s addr wb → exec i s = .next t →
    ∀ a, addr.toNat ≤ a → a < addr.toNat + x.size.bytes → a ∈ t.modified) ∧
  (∀ (c : Cond) (p u sbit w : Bool) (rn : RegNum) (list : BitVec 16) (s t : State),
    s.passes c → exec (.stm c p u sbit w rn list) s = .next t →
    ∀ k a, k < (regsOf list).length → blockAddr p u (s.reg rn) list k ≤ a → a < blockAddr p u (s.reg rn) list k + 4 →
      a ∈ t.modified) ∧
  (∀ (i : Instr) (c : Cond) (size : Size) (rn rd rm : RegNum) (s t : State),
    swapForm i = some (c, size, rn, rd, rm) → s.passes c → s.quiet 2 → exec i s = .next t →
    ∀ a, (s.reg rn).toNat ≤ a → a < (s.reg rn).toNat + size.bytes → a ∈ t.modified)

/-- The run (70_reset_and_hazards.md R283): it ends exactly at the boundary where pc = cfg.endPc, before that boundary's interrupt
check, and everywhere else goes on with the step, whose fault or refusal is the run's; without an endPc it never ends so; no
step changes the parameters (00_scope.md R7, 20_memory.md R62). That it ends there before the reset and wedged tests of that
boundary, too, is the model's choice (log 9). -/
def Obligations.RunEnds : Prop :=
  (∀ (s : State) (k : Nat), s.cfg.endPc = some s.pc → runToEnd k s = .ended s) ∧
  (∀ s : State, s.cfg.endPc ≠ some s.pc → runToEnd 0 s = .running s) ∧
  (∀ (s : State) (k : Nat), s.cfg.endPc ≠ some s.pc →
    (∀ t, step s = .next t → runToEnd (k + 1) s = runToEnd k t) ∧
    (∀ r, step s = .fault r → runToEnd (k + 1) s = .fault r) ∧
    (∀ r, step s = .refused r → runToEnd (k + 1) s = .refused r)) ∧
  (∀ (s t : State) (k : Nat), runToEnd k s = .ended t → t.cfg.endPc = some t.pc ∧ t.cfg = s.cfg) ∧
  (∀ (s t : State) (j k : Nat), runToEnd k s = .ended t → runToEnd (k + j) s = .ended t) ∧
  (∀ s t : State, step s = .next t → t.cfg = s.cfg)

/-- Every step keeps the invariant: memory and the set of stored bytes in canonical form, the pc aligned to the operating state
(10_state.md R30, R32; 20_memory.md R67). -/
def Obligations.StepKeepsInv : Prop := ∀ s t : State, s.Inv → step s = .next t → t.Inv

/-- The invariant holds right after reset (10_state.md R48). -/
def Obligations.ResetHasInv : Prop := State.reset.Inv

/-! ## Encodings -/

/-- Decode and encode agree (30_encoding.md R94, R95): every well-formed instruction, in both byte orders, is what the decoder
reads from its bytes, under the operating state of its instruction set. -/
def Obligations.DecodeEncode : Prop :=
  ∀ (i : Instr) (bigEndian : Bool), i.wellFormed = true →
    decode bigEndian (encode i).isThumb ((encode i).bytes bigEndian) = .ok i

/-- Encode and decode agree (30_encoding.md R94, R95): a word that decodes is the encoding of what it decodes to, which is well
formed, so no two words decode to one instruction. -/
def Obligations.EncodeDecode : Prop :=
  (∀ (w : Word) (i : Instr), decodeArm w = .ok i → i.wellFormed = true ∧ encode i = .arm w) ∧
  (∀ (h : Half) (i : Instr), decodeThumb h = .ok i → i.wellFormed = true ∧ encode i = .thumb h)

/-- The ARM rows are pairwise disjoint (30_encoding.md R102). -/
def Obligations.ArmRowsDisjoint : Prop :=
  armTable.Pairwise (fun r q => ∀ w : Word, ¬ (w &&& r.mask = r.value ∧ w &&& q.mask = q.value))

/-- Words of 95_test_vectors.md sections 2.1 and 2.4 to 2.7 and of the examples of 40_branch_and_state_switch.md R121 and
45_thumb.md R201 decode to the instructions they stand for (30_encoding.md R94, R95). -/
def Obligations.SampleWords : Prop :=
  decodeArm 0xE12FFF10#32 = .ok (.bx .al 0#4) ∧ decodeArm 0x1AFFFFFB#32 = .ok (.b .ne 0xFFFFFB#24) ∧
  decodeArm 0xE3B014FF#32 = .ok (.movImm .al true 1#4 4#4 0xFF#8) ∧
  decodeArm 0xE321F0DF#32 = .ok (.msrImm .al false 1#4 0#4 0xDF#8) ∧
  decodeArm 0xE5210004#32 = .ok (.str .al true false true 1#4 0#4 4#12) ∧
  decodeArm 0xE8BD800F#32 = .ok (.ldm .al false true false true 13#4 0x800F#16) ∧
  decodeArm 0xE1020091#32 = .ok (.swp .al 2#4 0#4 1#4) ∧ decodeArm 0xEF000011#32 = .ok (.swi .al 0x11#24) ∧
  decodeThumb 0x4480#16 = .ok (.tAdd 8#4 0#4) ∧ decodeThumb 0xD0FE#16 = .ok (.tB .eq 0xFE#8)
end

