-- ==== Sys2Proof/Laws/State.lean ====
section
/-!
SUPPORT. The small lemmas of the state: what each update does to each field (all by rfl), the register file's read after
write, and the program counter under each update.
-/

namespace Sys2Proof.Machine

section Fields
variable (s : State)

@[simp] theorem State.setPc_regs (v : Word) : (s.setPc v).regs = { s.regs with r15 := v } := rfl
@[simp] theorem State.setPc_cpsr (v : Word) : (s.setPc v).cpsr = s.cpsr := rfl
@[simp] theorem State.setPc_spsrs (v : Word) : (s.setPc v).spsrs = s.spsrs := rfl
@[simp] theorem State.setPc_mem (v : Word) : (s.setPc v).mem = s.mem := rfl
@[simp] theorem State.setPc_modified (v : Word) : (s.setPc v).modified = s.modified := rfl
@[simp] theorem State.setPc_wedged (v : Word) : (s.setPc v).wedged = s.wedged := rfl
@[simp] theorem State.setPc_cfg (v : Word) : (s.setPc v).cfg = s.cfg := rfl
@[simp] theorem State.setPc_lines (v : Word) : (s.setPc v).lines = s.lines := rfl
@[simp] theorem State.setPc_aborts (v : Word) : (s.setPc v).aborts = s.aborts := rfl
@[simp] theorem State.setPc_draws (v : Word) : (s.setPc v).draws = s.draws := rfl

@[simp] theorem State.setFlags_regs (fl : HeldFlags) : (s.setFlags fl).regs = s.regs := rfl
@[simp] theorem State.setFlags_cpsr (fl : HeldFlags) : (s.setFlags fl).cpsr = { s.cpsr with flags := fl } := rfl
@[simp] theorem State.setFlags_spsrs (fl : HeldFlags) : (s.setFlags fl).spsrs = s.spsrs := rfl
@[simp] theorem State.setFlags_mem (fl : HeldFlags) : (s.setFlags fl).mem = s.mem := rfl
@[simp] theorem State.setFlags_modified (fl : HeldFlags) : (s.setFlags fl).modified = s.modified := rfl
@[simp] theorem State.setFlags_wedged (fl : HeldFlags) : (s.setFlags fl).wedged = s.wedged := rfl
@[simp] theorem State.setFlags_cfg (fl : HeldFlags) : (s.setFlags fl).cfg = s.cfg := rfl
@[simp] theorem State.setFlags_lines (fl : HeldFlags) : (s.setFlags fl).lines = s.lines := rfl
@[simp] theorem State.setFlags_aborts (fl : HeldFlags) : (s.setFlags fl).aborts = s.aborts := rfl
@[simp] theorem State.setFlags_draws (fl : HeldFlags) : (s.setFlags fl).draws = s.draws := rfl

@[simp] theorem State.setRegIn_regs (m : Mode) (i : RegNum) (v : Word) : (s.setRegIn m i v).regs = s.regs.set (bank m i) v := rfl
@[simp] theorem State.setRegIn_cpsr (m : Mode) (i : RegNum) (v : Word) : (s.setRegIn m i v).cpsr = s.cpsr := rfl
@[simp] theorem State.setRegIn_spsrs (m : Mode) (i : RegNum) (v : Word) : (s.setRegIn m i v).spsrs = s.spsrs := rfl
@[simp] theorem State.setRegIn_mem (m : Mode) (i : RegNum) (v : Word) : (s.setRegIn m i v).mem = s.mem := rfl
@[simp] theorem State.setRegIn_modified (m : Mode) (i : RegNum) (v : Word) : (s.setRegIn m i v).modified = s.modified := rfl
@[simp] theorem State.setRegIn_wedged (m : Mode) (i : RegNum) (v : Word) : (s.setRegIn m i v).wedged = s.wedged := rfl
@[simp] theorem State.setRegIn_cfg (m : Mode) (i : RegNum) (v : Word) : (s.setRegIn m i v).cfg = s.cfg := rfl
@[simp] theorem State.setRegIn_lines (m : Mode) (i : RegNum) (v : Word) : (s.setRegIn m i v).lines = s.lines := rfl
@[simp] theorem State.setRegIn_aborts (m : Mode) (i : RegNum) (v : Word) : (s.setRegIn m i v).aborts = s.aborts := rfl
@[simp] theorem State.setRegIn_draws (m : Mode) (i : RegNum) (v : Word) : (s.setRegIn m i v).draws = s.draws := rfl

@[simp] theorem State.setReg_regs (i : RegNum) (v : Word) : (s.setReg i v).regs = s.regs.set (bank s.cpsr.mode i) v := rfl
@[simp] theorem State.setReg_cpsr (i : RegNum) (v : Word) : (s.setReg i v).cpsr = s.cpsr := rfl
@[simp] theorem State.setReg_spsrs (i : RegNum) (v : Word) : (s.setReg i v).spsrs = s.spsrs := rfl
@[simp] theorem State.setReg_mem (i : RegNum) (v : Word) : (s.setReg i v).mem = s.mem := rfl
@[simp] theorem State.setReg_modified (i : RegNum) (v : Word) : (s.setReg i v).modified = s.modified := rfl
@[simp] theorem State.setReg_wedged (i : RegNum) (v : Word) : (s.setReg i v).wedged = s.wedged := rfl
@[simp] theorem State.setReg_cfg (i : RegNum) (v : Word) : (s.setReg i v).cfg = s.cfg := rfl
@[simp] theorem State.setReg_lines (i : RegNum) (v : Word) : (s.setReg i v).lines = s.lines := rfl
@[simp] theorem State.setReg_aborts (i : RegNum) (v : Word) : (s.setReg i v).aborts = s.aborts := rfl
@[simp] theorem State.setReg_draws (i : RegNum) (v : Word) : (s.setReg i v).draws = s.draws := rfl

@[simp] theorem State.putReg_regs (i : RegNum) (h : Held Word) : (s.putReg i h).regs = s.regs.put (bank s.cpsr.mode i) h := rfl
@[simp] theorem State.putReg_cpsr (i : RegNum) (h : Held Word) : (s.putReg i h).cpsr = s.cpsr := rfl
@[simp] theorem State.putReg_spsrs (i : RegNum) (h : Held Word) : (s.putReg i h).spsrs = s.spsrs := rfl
@[simp] theorem State.putReg_mem (i : RegNum) (h : Held Word) : (s.putReg i h).mem = s.mem := rfl
@[simp] theorem State.putReg_modified (i : RegNum) (h : Held Word) : (s.putReg i h).modified = s.modified := rfl
@[simp] theorem State.putReg_wedged (i : RegNum) (h : Held Word) : (s.putReg i h).wedged = s.wedged := rfl
@[simp] theorem State.putReg_cfg (i : RegNum) (h : Held Word) : (s.putReg i h).cfg = s.cfg := rfl
@[simp] theorem State.putReg_lines (i : RegNum) (h : Held Word) : (s.putReg i h).lines = s.lines := rfl
@[simp] theorem State.putReg_aborts (i : RegNum) (h : Held Word) : (s.putReg i h).aborts = s.aborts := rfl
@[simp] theorem State.putReg_draws (i : RegNum) (h : Held Word) : (s.putReg i h).draws = s.draws := rfl

@[simp] theorem State.setSpsr_regs (n : SpsrName) (p : HeldPsr) : (s.setSpsr n p).regs = s.regs := rfl
@[simp] theorem State.setSpsr_cpsr (n : SpsrName) (p : HeldPsr) : (s.setSpsr n p).cpsr = s.cpsr := rfl
@[simp] theorem State.setSpsr_spsrs (n : SpsrName) (p : HeldPsr) : (s.setSpsr n p).spsrs = s.spsrs.set n p := rfl
@[simp] theorem State.setSpsr_mem (n : SpsrName) (p : HeldPsr) : (s.setSpsr n p).mem = s.mem := rfl
@[simp] theorem State.setSpsr_modified (n : SpsrName) (p : HeldPsr) : (s.setSpsr n p).modified = s.modified := rfl
@[simp] theorem State.setSpsr_wedged (n : SpsrName) (p : HeldPsr) : (s.setSpsr n p).wedged = s.wedged := rfl
@[simp] theorem State.setSpsr_cfg (n : SpsrName) (p : HeldPsr) : (s.setSpsr n p).cfg = s.cfg := rfl
@[simp] theorem State.setSpsr_lines (n : SpsrName) (p : HeldPsr) : (s.setSpsr n p).lines = s.lines := rfl
@[simp] theorem State.setSpsr_aborts (n : SpsrName) (p : HeldPsr) : (s.setSpsr n p).aborts = s.aborts := rfl
@[simp] theorem State.setSpsr_draws (n : SpsrName) (p : HeldPsr) : (s.setSpsr n p).draws = s.draws := rfl

@[simp] theorem State.drew_regs (k : Nat) : (s.drew k).regs = s.regs := rfl
@[simp] theorem State.drew_cpsr (k : Nat) : (s.drew k).cpsr = s.cpsr := rfl
@[simp] theorem State.drew_spsrs (k : Nat) : (s.drew k).spsrs = s.spsrs := rfl
@[simp] theorem State.drew_mem (k : Nat) : (s.drew k).mem = s.mem := rfl
@[simp] theorem State.drew_modified (k : Nat) : (s.drew k).modified = s.modified := rfl
@[simp] theorem State.drew_wedged (k : Nat) : (s.drew k).wedged = s.wedged := rfl
@[simp] theorem State.drew_cfg (k : Nat) : (s.drew k).cfg = s.cfg := rfl
@[simp] theorem State.drew_lines (k : Nat) : (s.drew k).lines = s.lines := rfl
@[simp] theorem State.drew_aborts (k : Nat) : (s.drew k).aborts = s.aborts := rfl
@[simp] theorem State.drew_draws (k : Nat) : (s.drew k).draws = s.draws + k := rfl

@[simp] theorem State.answered_regs : (s.answered).regs = s.regs := rfl
@[simp] theorem State.answered_cpsr : (s.answered).cpsr = s.cpsr := rfl
@[simp] theorem State.answered_spsrs : (s.answered).spsrs = s.spsrs := rfl
@[simp] theorem State.answered_mem : (s.answered).mem = s.mem := rfl
@[simp] theorem State.answered_modified : (s.answered).modified = s.modified := rfl
@[simp] theorem State.answered_wedged : (s.answered).wedged = s.wedged := rfl
@[simp] theorem State.answered_cfg : (s.answered).cfg = s.cfg := rfl
@[simp] theorem State.answered_lines : (s.answered).lines = s.lines := rfl
@[simp] theorem State.answered_aborts : (s.answered).aborts = s.aborts.tail := rfl
@[simp] theorem State.answered_draws : (s.answered).draws = s.draws := rfl

@[simp] theorem State.boundaryPassed_regs : (s.boundaryPassed).regs = s.regs := rfl
@[simp] theorem State.boundaryPassed_cpsr : (s.boundaryPassed).cpsr = s.cpsr := rfl
@[simp] theorem State.boundaryPassed_spsrs : (s.boundaryPassed).spsrs = s.spsrs := rfl
@[simp] theorem State.boundaryPassed_mem : (s.boundaryPassed).mem = s.mem := rfl
@[simp] theorem State.boundaryPassed_modified : (s.boundaryPassed).modified = s.modified := rfl
@[simp] theorem State.boundaryPassed_wedged : (s.boundaryPassed).wedged = s.wedged := rfl
@[simp] theorem State.boundaryPassed_cfg : (s.boundaryPassed).cfg = s.cfg := rfl
@[simp] theorem State.boundaryPassed_lines : (s.boundaryPassed).lines = s.lines.tail := rfl
@[simp] theorem State.boundaryPassed_aborts : (s.boundaryPassed).aborts = s.aborts := rfl
@[simp] theorem State.boundaryPassed_draws : (s.boundaryPassed).draws = s.draws + 1 := rfl

@[simp] theorem State.wedge_regs : (s.wedge).regs = s.regs := rfl
@[simp] theorem State.wedge_cpsr : (s.wedge).cpsr = s.cpsr := rfl
@[simp] theorem State.wedge_spsrs : (s.wedge).spsrs = s.spsrs := rfl
@[simp] theorem State.wedge_mem : (s.wedge).mem = s.mem := rfl
@[simp] theorem State.wedge_modified : (s.wedge).modified = s.modified := rfl
@[simp] theorem State.wedge_wedged : (s.wedge).wedged = true := rfl
@[simp] theorem State.wedge_cfg : (s.wedge).cfg = s.cfg := rfl
@[simp] theorem State.wedge_lines : (s.wedge).lines = s.lines := rfl
@[simp] theorem State.wedge_aborts : (s.wedge).aborts = s.aborts := rfl
@[simp] theorem State.wedge_draws : (s.wedge).draws = s.draws := rfl

@[simp] theorem State.setPc_pc (v : Word) : (s.setPc v).pc = v := rfl
@[simp] theorem State.setFlags_pc (fl : HeldFlags) : (s.setFlags fl).pc = s.pc := rfl
@[simp] theorem State.setSpsr_pc (n : SpsrName) (p : HeldPsr) : (s.setSpsr n p).pc = s.pc := rfl
@[simp] theorem State.drew_pc (k : Nat) : (s.drew k).pc = s.pc := rfl
@[simp] theorem State.answered_pc : (s.answered).pc = s.pc := rfl
@[simp] theorem State.boundaryPassed_pc : (s.boundaryPassed).pc = s.pc := rfl
@[simp] theorem State.wedge_pc : (s.wedge).pc = s.pc := rfl
@[simp] theorem State.scrambled_pc : (s.scrambled).pc = s.pc := rfl

theorem State.writeBack_cases (i : RegNum) (wb : Option Word) :
    s.writeBack i wb = s ∨ ∃ v, wb = some v ∧ s.writeBack i wb = s.setReg i v := by
  cases wb with
  | none => exact .inl rfl
  | some v => exact .inr ⟨v, rfl, rfl⟩

@[simp] theorem State.writeBack_cpsr (i : RegNum) (wb : Option Word) : (s.writeBack i wb).cpsr = s.cpsr := by
  cases wb <;> rfl
@[simp] theorem State.writeBack_spsrs (i : RegNum) (wb : Option Word) : (s.writeBack i wb).spsrs = s.spsrs := by
  cases wb <;> rfl
@[simp] theorem State.writeBack_mem (i : RegNum) (wb : Option Word) : (s.writeBack i wb).mem = s.mem := by
  cases wb <;> rfl
@[simp] theorem State.writeBack_modified (i : RegNum) (wb : Option Word) : (s.writeBack i wb).modified = s.modified := by
  cases wb <;> rfl
@[simp] theorem State.writeBack_wedged (i : RegNum) (wb : Option Word) : (s.writeBack i wb).wedged = s.wedged := by
  cases wb <;> rfl
@[simp] theorem State.writeBack_cfg (i : RegNum) (wb : Option Word) : (s.writeBack i wb).cfg = s.cfg := by
  cases wb <;> rfl
@[simp] theorem State.writeBack_lines (i : RegNum) (wb : Option Word) : (s.writeBack i wb).lines = s.lines := by
  cases wb <;> rfl
@[simp] theorem State.writeBack_aborts (i : RegNum) (wb : Option Word) : (s.writeBack i wb).aborts = s.aborts := by
  cases wb <;> rfl
@[simp] theorem State.writeBack_draws (i : RegNum) (wb : Option Word) : (s.writeBack i wb).draws = s.draws := by
  cases wb <;> rfl

end Fields

/-! ## What is held and what is read -/

@[simp] theorem Held.read_value {α : Type} (v free : α) : (Held.value v).read free = v := rfl
@[simp] theorem Held.read_unspecified {α : Type} (free : α) : (Held.unspecified : Held α).read free = free := rfl

/-- Flags that hold values read as them. -/
@[simp] theorem Flags.held_read (fl : Flags) (free : Word) : fl.held.read free = fl := rfl

/-- A status register that holds values reads as them. -/
@[simp] theorem Psr.held_read (p : Psr) (free : Word) : p.held.read free = p := rfl

/-- The copy of a CPSR, read: its flags read, the rest as it is. -/
@[simp] theorem Cpsr.toPsr_read (c : Cpsr) (free : Word) :
    c.toPsr.read free = ⟨c.flags.read free, c.i, c.f, c.t, c.mode.bits⟩ := rfl

/-- What a physical register holds after making one hold something. -/
theorem RegFile.get_put (r : RegFile) {p : PhysReg} (hp : p ≠ .r15) (q : PhysReg) (h : Held Word) :
    (r.put p h).get q = if q = p then h else r.get q := by
  cases p <;> first | exact absurd rfl hp | (cases q <;> rfl)

/-- What a physical register holds after writing one. -/
theorem RegFile.get_set (r : RegFile) (p q : PhysReg) (v : Word) :
    (r.set p v).get q = if q = p then .value v else r.get q := by
  cases p <;> cases q <;> rfl

@[simp] theorem RegFile.get_set_self (r : RegFile) (p : PhysReg) (v : Word) : (r.set p v).get p = .value v := by
  simp [RegFile.get_set]

theorem RegFile.get_set_ne (r : RegFile) {p q : PhysReg} (h : q ≠ p) (v : Word) :
    (r.set p v).get q = r.get q := by
  simp [RegFile.get_set, h]

theorem RegFile.get_r15 (r : RegFile) : r.get .r15 = .value r.r15 := rfl

/-- Only register number 15 names the program counter (10_state.md R24). -/
theorem bank_eq_r15 : ∀ (m : Mode) (i : RegNum), bank m i = .r15 ↔ i = 15#4 := by
  intro m i
  cases m <;> revert i <;> decide

theorem bank_ne_r15 (m : Mode) {i : RegNum} (h : i ≠ 15#4) : bank m i ≠ .r15 :=
  fun hb => h ((bank_eq_r15 m i).1 hb)

/-- Within a mode the register numbers name different registers (10_state.md R24). -/
theorem bank_injective (m : Mode) : ∀ i j : RegNum, bank m i = bank m j → i = j := by
  cases m <;> decide

theorem State.putReg_pc (s : State) {i : RegNum} (h : i ≠ 15#4) (v : Held Word) : (s.putReg i v).pc = s.pc := by
  have hb := bank_ne_r15 s.cpsr.mode h
  have := RegFile.get_put s.regs hb .r15 v
  rw [if_neg (Ne.symm hb)] at this
  exact Held.value.inj this

theorem State.setReg_pc (s : State) {i : RegNum} (h : i ≠ 15#4) (v : Word) : (s.setReg i v).pc = s.pc :=
  s.putReg_pc h (.value v)

theorem State.writeBack_pc (s : State) {i : RegNum} (h : i ≠ 15#4) (wb : Option Word) :
    (s.writeBack i wb).pc = s.pc := by
  cases wb with
  | none => rfl
  | some v => exact s.setReg_pc h v

/-- What `x[i]` holds after `x[j] <- v`. -/
theorem State.regIn_setReg (s : State) (i j : RegNum) (v : Word) :
    (s.setReg j v).regIn s.cpsr.mode i = if i = j then .value v else s.regIn s.cpsr.mode i := by
  unfold State.regIn
  rw [State.setReg_regs, RegFile.get_set]
  by_cases h : i = j
  · simp [h]
  · have : bank s.cpsr.mode i ≠ bank s.cpsr.mode j := fun hb => h (bank_injective _ _ _ hb)
    simp [h, this]

/-- `x[i]` after `x[j] <- v`. -/
theorem State.reg_setReg (s : State) (i j : RegNum) (v : Word) :
    (s.setReg j v).reg i = if i = j then v else s.reg i := by
  unfold State.reg
  rw [State.setReg_cpsr, State.setReg_draws, State.regIn_setReg]
  split <;> rfl

/-- Both reads of a register that holds a value give it. -/
theorem State.reg_of_value {s : State} {i : RegNum} {v : Word} (h : s.regIn s.cpsr.mode i = .value v) :
    s.reg i = v ∧ s.second i = v := by
  simp [State.reg, State.second, h]

theorem SpsrFile.get_set (p : SpsrFile) (m n : SpsrName) (v : HeldPsr) :
    (p.set m v).get n = if n = m then v else p.get n := by
  cases m <;> cases n <;> rfl

end Sys2Proof.Machine
end

