-- ==== Sys2Proof/Laws/Memory.lean ====
section
/-!
SUPPORT. Memory: read after write, the canonical form under every memory operation, and what reading and writing
several bytes can do.
-/

namespace Sys2Proof.Machine

/-! ## One byte -/

theorem Memory.get?_put (m : Memory) (a x : Nat) (b : Byte) :
    (m.put a b).get? x = if x = a then some b else m.get? x := by
  induction m with
  | nil => simp [Memory.put, Memory.get?, eq_comm]
  | cons c m ih =>
    obtain ⟨k, c⟩ := c
    simp only [Memory.put]
    split
    · simp only [Memory.get?, eq_comm]
    · split
      · rename_i h1 h2; subst h2; simp only [Memory.get?, eq_comm]; split <;> simp_all
      · simp only [Memory.get?, ih]; split <;> split <;> simp_all

theorem Memory.forget_cons (k : Nat) (c : Byte) (m : Memory) (a : Nat) :
    Memory.forget ((k, c) :: m) a = if k = a then Memory.forget m a else (k, c) :: Memory.forget m a := by
  unfold Memory.forget
  by_cases h : k = a <;> simp [h]

theorem Memory.get?_forget (m : Memory) (a x : Nat) :
    (m.forget a).get? x = if x = a then none else m.get? x := by
  induction m with
  | nil => simp [Memory.forget, Memory.get?]
  | cons c m ih =>
    obtain ⟨k, c⟩ := c
    rw [Memory.forget_cons]
    by_cases h : k = a
    · by_cases hx : x = a
      · rw [if_pos h, ih, if_pos hx, if_pos hx]
      · have : k ≠ x := by omega
        simp [h, hx, ih, Memory.get?]; omega
    · by_cases hx : k = x
      · subst hx; simp [h, Memory.get?]
      · simp [h, hx, Memory.get?, ih]

theorem Memory.mem_put {m : Memory} {a : Nat} {b : Byte} {c : Host.Cell} (h : c ∈ m.put a b) :
    c.1 = a ∨ c ∈ m := by
  induction m with
  | nil => simp_all [Memory.put]
  | cons d m ih =>
    obtain ⟨k, d⟩ := d
    simp only [Memory.put] at h
    split at h
    · simp_all; rcases h with rfl | h <;> simp_all
    · split at h
      · simp_all; rcases h with rfl | h <;> simp_all
      · simp only [List.mem_cons] at h ⊢
        rcases h with rfl | h
        · simp
        · rcases ih h with h | h <;> simp [h]

/-- Writing a byte keeps the canonical form. -/
theorem Memory.put_wf {m : Memory} {a : Nat} (b : Byte) (h : m.wf) (ha : a < 2 ^ 32) : (m.put a b).wf := by
  refine ⟨?_, fun c hc => ?_⟩
  · induction m with
    | nil => simp [Memory.put]
    | cons d m ih =>
      obtain ⟨k, d⟩ := d
      obtain ⟨hp, hb⟩ := h
      rw [List.pairwise_cons] at hp
      simp only [Memory.put]
      split
      · rw [List.pairwise_cons, List.pairwise_cons]
        refine ⟨fun c hc => ?_, hp⟩
        rcases List.mem_cons.1 hc with rfl | hc
        · assumption
        · have := hp.1 c hc; simp at this ⊢; omega
      · split
        · rename_i _ hk; subst hk; rw [List.pairwise_cons]; exact hp
        · rw [List.pairwise_cons]
          refine ⟨fun c hc => ?_, ih ⟨hp.2, fun c hc => hb c (List.mem_cons_of_mem _ hc)⟩⟩
          rcases Memory.mem_put hc with h | h
          · simp only [h]; omega
          · exact hp.1 c h
  · rcases Memory.mem_put hc with h' | h'
    · omega
    · exact h.2 c h'

/-- Taking a byte's value away keeps the canonical form. -/
theorem Memory.forget_wf {m : Memory} (a : Nat) (h : m.wf) : (m.forget a).wf :=
  ⟨h.1.filter _, fun c hc => h.2 c (List.mem_filter.1 hc).1⟩

theorem AddrSet.mem_add (m : AddrSet) (a x : Nat) : x ∈ AddrSet.add m a ↔ x = a ∨ x ∈ m := by
  induction m with
  | nil => simp [AddrSet.add]
  | cons k m ih =>
    simp only [AddrSet.add]
    split
    · simp
    · split
      · rename_i _ h; subst h; simp
      · simp only [List.mem_cons, ih]; tauto

/-- Adding an address keeps the canonical form. -/
theorem AddrSet.add_wf {m : AddrSet} {a : Nat} (h : AddrSet.wf m) (ha : a < 2 ^ 32) : AddrSet.wf (AddrSet.add m a) := by
  refine ⟨?_, fun x hx => ?_⟩
  · induction m with
    | nil => simp [AddrSet.add]
    | cons k m ih =>
      obtain ⟨hp, hb⟩ := h
      rw [List.pairwise_cons] at hp
      simp only [AddrSet.add]
      split
      · rw [List.pairwise_cons, List.pairwise_cons]
        refine ⟨fun x hx => ?_, hp⟩
        rcases List.mem_cons.1 hx with rfl | hx
        · assumption
        · have := hp.1 x hx; omega
      · split
        · rw [List.pairwise_cons]; exact hp
        · rw [List.pairwise_cons]
          refine ⟨fun x hx => ?_, ih ⟨hp.2, fun x hx => hb x (List.mem_cons_of_mem _ hx)⟩⟩
          rcases (AddrSet.mem_add m a x).1 hx with rfl | h
          · omega
          · exact hp.1 x h
  · rcases (AddrSet.mem_add m a x).1 hx with rfl | h'
    · exact ha
    · exact h.2 x h'

/-! ## Several bytes -/

/-- Reading changes nothing but the count of draws. -/
theorem readBytes_state (n a : Nat) (s : State) :
    ∃ k, (readBytes n a s).2 = s.drew k := by
  induction n generalizing a s with
  | zero => exact ⟨0, rfl⟩
  | succ n ih =>
    simp only [readBytes]
    split
    · exact ih (a + 1) s
    · obtain ⟨k, hk⟩ := ih (a + 1) (s.drew 1)
      refine ⟨1 + k, ?_⟩
      simp only [hk]
      simp [State.drew, Nat.add_assoc]

theorem readBytes_length (n a : Nat) (s : State) : (readBytes n a s).1.length = n := by
  induction n generalizing a s with
  | zero => rfl
  | succ n ih => simp only [readBytes]; split <;> simp [ih]

/-- Where every byte holds a value, reading gives those values and changes nothing. -/
theorem readBytes_of_values (bs : List Byte) (a : Nat) (s : State)
    (h : ∀ k (hk : k < bs.length), s.mem.get? (a + k) = some bs[k]) :
    readBytes bs.length a s = (bs, s) := by
  induction bs generalizing a with
  | nil => rfl
  | cons b bs ih =>
    have h0 := h 0 (by simp)
    simp only [Nat.add_zero, List.getElem_cons_zero] at h0
    have ht := ih (a + 1) (fun k hk => by
      have := h (k + 1) (by simpa using hk)
      simpa [Nat.add_assoc, Nat.add_comm 1 k] using this)
    simp only [List.length_cons, readBytes, h0, ht]

/-- Writing bytes changes memory and the set of stored bytes alone. -/
theorem writeBytes_state (bs : List Byte) (a : Nat) (s : State) :
    ∃ m d, writeBytes bs a s = { s with mem := m, modified := d } := by
  induction bs generalizing a s with
  | nil => exact ⟨s.mem, s.modified, rfl⟩
  | cons b bs ih =>
    obtain ⟨m, d, h⟩ := ih (a + 1) { s with mem := s.mem.put a b, modified := AddrSet.add s.modified a }
    exact ⟨m, d, by simp only [writeBytes, h]⟩

/-- A byte outside the bytes written reads as before; a byte inside reads as written. -/
theorem writeBytes_get? (bs : List Byte) (a x : Nat) (s : State) :
    (writeBytes bs a s).mem.get? x =
      if h : a ≤ x ∧ x < a + bs.length then some (bs[x - a]'(by omega)) else s.mem.get? x := by
  induction bs generalizing a s with
  | nil => simp only [writeBytes, List.length_nil]; rw [dif_neg (by omega)]
  | cons b bs ih =>
    simp only [writeBytes, ih, List.length_cons, Memory.get?_put]
    by_cases h1 : a + 1 ≤ x ∧ x < a + 1 + bs.length
    · rw [dif_pos h1, dif_pos (by omega)]
      have : x - a = (x - (a + 1)) + 1 := by omega
      simp [this]
    · rw [dif_neg h1]
      by_cases h2 : x = a
      · subst h2; simp
      · rw [if_neg h2, dif_neg (by omega)]

theorem writeBytes_modified (bs : List Byte) (a x : Nat) (s : State) :
    x ∈ (writeBytes bs a s).modified ↔ (a ≤ x ∧ x < a + bs.length) ∨ x ∈ s.modified := by
  induction bs generalizing a s with
  | nil => exact ⟨.inr, fun h => h.resolve_left (by simp only [List.length_nil]; omega)⟩
  | cons b bs ih =>
    simp only [writeBytes, ih, List.length_cons, AddrSet.mem_add]
    constructor
    · rintro (h | h | h)
      · left; omega
      · left; omega
      · exact .inr h
    · rintro (h | h)
      · by_cases hx : x = a
        · exact .inr (.inl hx)
        · left; omega
      · exact .inr (.inr h)

/-- Writing bytes below 2^32 keeps both canonical forms. -/
theorem writeBytes_wf (bs : List Byte) (a : Nat) (s : State) (hm : Memory.wf s.mem) (hd : AddrSet.wf s.modified)
    (ha : a + bs.length ≤ 2 ^ 32) :
    Memory.wf (writeBytes bs a s).mem ∧ AddrSet.wf (writeBytes bs a s).modified := by
  induction bs generalizing a s with
  | nil => exact ⟨hm, hd⟩
  | cons b bs ih =>
    simp only [List.length_cons] at ha
    exact ih (a + 1) _ (Memory.put_wf b hm (by omega)) (AddrSet.add_wf hd (by omega)) (by omega)

/-- Taking values away changes memory and the set of stored bytes alone. -/
theorem forgetBytes_state (n a : Nat) (s : State) :
    ∃ m d, forgetBytes n a s = { s with mem := m, modified := d } := by
  induction n generalizing a s with
  | zero => exact ⟨s.mem, s.modified, rfl⟩
  | succ n ih =>
    obtain ⟨m, d, h⟩ := ih (a + 1) { s with mem := s.mem.forget a, modified := AddrSet.add s.modified a }
    exact ⟨m, d, by simp only [forgetBytes, h]⟩

theorem forgetBytes_get? (n a x : Nat) (s : State) :
    (forgetBytes n a s).mem.get? x = if a ≤ x ∧ x < a + n then none else s.mem.get? x := by
  induction n generalizing a s with
  | zero => simp only [forgetBytes]; rw [if_neg (by omega)]
  | succ n ih =>
    simp only [forgetBytes, ih, Memory.get?_forget]
    by_cases h2 : x = a
    · subst h2; simp
    · by_cases h1 : a + 1 ≤ x ∧ x < a + 1 + n
      · rw [if_pos h1, if_pos (by omega)]
      · rw [if_neg h1, if_neg h2, if_neg (by omega)]

theorem forgetBytes_wf (n a : Nat) (s : State) (hm : Memory.wf s.mem) (hd : AddrSet.wf s.modified)
    (ha : a + n ≤ 2 ^ 32) :
    Memory.wf (forgetBytes n a s).mem ∧ AddrSet.wf (forgetBytes n a s).modified := by
  induction n generalizing a s with
  | zero => exact ⟨hm, hd⟩
  | succ n ih =>
    exact ih (a + 1) _ (Memory.forget_wf a hm) (AddrSet.add_wf hd (by omega)) (by omega)

/-! ## One access -/

theorem storeBytes_length (be : Bool) (size : Size) (v : Word) : (storeBytes be size v).length = size.bytes := by
  cases size <;> cases be <;> rfl

/-- Everything a read can do. -/
theorem memRead_cases (size : Size) (addr : Word) (s : State) :
    (s.abortNow = true ∧ memRead size addr s = (none, s.answered)) ∨
    (s.abortNow = false ∧ ∃ k v, memRead size addr s = (some v, s.answered.drew k)) := by
  unfold memRead
  cases h : s.abortNow with
  | true => exact .inl ⟨rfl, by simp⟩
  | false =>
    obtain ⟨k, hk⟩ := readBytes_state size.bytes addr.toNat s.answered
    exact .inr ⟨rfl, k, assemble s.cfg.bigEndian (readBytes size.bytes addr.toNat s.answered).1, by
      simp only [Bool.false_eq_true, if_false, hk]⟩

/-- Everything a write can do. -/
theorem memWrite_cases (size : Size) (addr v : Word) (s : State) :
    (s.abortNow = true ∧ memWrite size addr v s = (false, s.answered)) ∨
    (s.abortNow = false ∧
      memWrite size addr v s = (true, writeBytes (storeBytes s.cfg.bigEndian size v) addr.toNat s.answered)) := by
  unfold memWrite
  cases h : s.abortNow with
  | true => exact .inl ⟨rfl, by simp⟩
  | false => exact .inr ⟨rfl, by simp⟩

/-- An aligned access ends inside the address space. -/
theorem aligned_end {size : Size} {addr : Word} (h : aligned size addr = true) : addr.toNat + size.bytes ≤ 2 ^ 32 := by
  have := addr.isLt
  have h : addr.toNat % size.bytes = 0 := of_decide_eq_true h
  cases size <;> simp only [Size.bytes] at * <;> omega

end Sys2Proof.Machine
end

