-- ==== Sys2Proof/Laws/Ops.lean ====
section
/-!
SUPPORT. For each shared operation: everything it can do when it answers a next state (`…_next`), and when it does so
(`…_eq`).
-/

namespace Sys2Proof.Machine

/-! ## How an instruction ends -/

theorem advance_next {n : Nat} {s t : State} (h : advance n s = .next t) : s.canAdvance n ∧ t = s.stepped n := by
  unfold advance at h
  split at h
  · exact ⟨by assumption, by injection h with h; exact h.symm⟩
  · cases h

theorem advance_eq {n : Nat} {s : State} (h : s.canAdvance n) : advance n s = .next (s.stepped n) := if_pos h

theorem branchBy_next {d : Int} {s t : State} (h : branchBy d s = .next t) :
    (0 ≤ (s.pc.toNat : Int) + d ∧ (s.pc.toNat : Int) + d < 2 ^ 32) ∧
      t = s.setPc (BitVec.ofInt 32 ((s.pc.toNat : Int) + d)) := by
  unfold branchBy at h
  simp only at h
  split at h
  · exact ⟨by assumption, by injection h with h; exact h.symm⟩
  · cases h

theorem branchBy_eq {d : Int} {s : State} (h : 0 ≤ (s.pc.toNat : Int) + d ∧ (s.pc.toNat : Int) + d < 2 ^ 32) :
    branchBy d s = .next (s.setPc (BitVec.ofInt 32 ((s.pc.toNat : Int) + d))) := if_pos h

theorem jumpArm_next {v : Word} {s t : State} (h : jumpArm v s = .next t) :
    v.extractLsb' 0 2 = 0#2 ∧ t = s.setPc v := by
  unfold jumpArm at h
  split at h
  · exact ⟨by assumption, by injection h with h; exact h.symm⟩
  · cases h

theorem exchange_next {v : Word} {s t : State} (h : exchange v s = .next t) :
    (v.getLsbD 0 = true ∧ t = { s with cpsr := { s.cpsr with t := true } }.setPc (clearBit0 v)) ∨
    (v.getLsbD 0 = false ∧ v.getLsbD 1 = false ∧ t = { s with cpsr := { s.cpsr with t := false } }.setPc v) := by
  unfold exchange at h
  cases h0 : v.getLsbD 0 with
  | true => rw [h0] at h; exact .inl ⟨rfl, by injection h with h; exact h.symm⟩
  | false =>
    cases h1 : v.getLsbD 1 with
    | true => rw [h0, h1] at h; cases h
    | false => rw [h0, h1] at h; exact .inr ⟨rfl, rfl, by injection h with h; exact h.symm⟩

theorem exceptionReturn_next {v : Word} {s t : State} (h : exceptionReturn v s = .next t) :
    ∃ n, s.cpsr.mode.spsr? = some n ∧
      let p := (s.spsrs.get n).read s.freeStatus
      ((Mode.ofBits p.m = none ∧ t = s.wedge) ∨
       ∃ m, Mode.ofBits p.m = some m ∧ pcFits p.t v = true ∧ t = { s with cpsr := p.toCpsr m }.setPc v) := by
  unfold exceptionReturn at h
  split at h
  · cases h
  · rename_i n hn
    refine ⟨n, hn, ?_⟩
    simp only at h
    split at h
    · rename_i hm; exact .inl ⟨hm, by injection h with h; exact h.symm⟩
    · rename_i m hm
      split at h
      · rename_i hf; exact .inr ⟨m, hm, hf, by injection h with h; exact h.symm⟩
      · cases h

/-! ## Operands and conditions -/

theorem conditional_next {cond : Cond} {s t : State} {body : Result} (h : conditional cond s body = .next t) :
    cond ≠ .nv ∧ ((condHolds cond s.flags = true ∧ body = .next t) ∨
      (condHolds cond s.flags = false ∧ advance 4 s = .next t)) := by
  unfold conditional at h
  split at h
  · cases h
  · rename_i hc
    refine ⟨hc, ?_⟩
    cases hh : condHolds cond s.flags <;> simp only [hh, if_true, Bool.false_eq_true, if_false] at h
    · exact .inr ⟨rfl, h⟩
    · exact .inl ⟨rfl, h⟩

theorem conditional_passes {cond : Cond} {s : State} (h : s.passes cond) (body : Result) :
    conditional cond s body = body := by
  unfold conditional
  rw [if_neg h.1, if_pos h.2]

theorem conditional_fails {cond : Cond} {s : State} (hn : cond ≠ .nv) (h : condHolds cond s.flags = false)
    (body : Result) : conditional cond s body = advance 4 s := by
  unfold conditional
  rw [if_neg hn, h]
  rfl

theorem withReg_next {i : RegNum} {s t : State} {body : Word → Result} (h : withReg i s body = .next t) :
    i ≠ 15#4 ∧ body (s.reg i) = .next t := by
  unfold withReg at h
  split at h
  · cases h
  · exact ⟨by assumption, h⟩

theorem withReg_eq {i : RegNum} {s : State} (h : i ≠ 15#4) (body : Word → Result) :
    withReg i s body = body (s.reg i) := if_neg h

theorem withSecond_next {i : RegNum} {s t : State} {body : Word → Result} (h : withSecond i s body = .next t) :
    i ≠ 15#4 ∧ body (s.second i) = .next t := by
  unfold withSecond at h
  split at h
  · cases h
  · exact ⟨by assumption, h⟩

theorem withSecond_eq {i : RegNum} {s : State} (h : i ≠ 15#4) (body : Word → Result) :
    withSecond i s body = body (s.second i) := if_neg h

theorem withTransfer_next {size : Size} {p u w : Bool} {rn rd : RegNum} {offset : Word} {s t : State}
    {body : Word → Option Word → Result} (h : withTransfer size p u w rn rd offset s body = .next t) :
    rn ≠ 15#4 ∧ rd ≠ 15#4 ∧ ∃ addr wb, transferAddress p u w (s.reg rn) offset = some (addr, wb) ∧
      ¬ (wb.isSome ∧ rn = rd) ∧ aligned size addr = true ∧ body addr wb = .next t := by
  unfold withTransfer at h
  split at h
  · cases h
  split at h
  · cases h
  split at h
  · cases h
  rename_i h1 h2 _ addr wb ha
  split at h
  · cases h
  rename_i h3
  split at h
  · rename_i h4; exact ⟨h1, h2, addr, wb, ha, h3, h4, h⟩
  · cases h

theorem withTransfer_eq {size : Size} {p u w : Bool} {rn rd : RegNum} {offset : Word} {s : State}
    {addr : Word} {wb : Option Word} (h1 : rn ≠ 15#4) (h2 : rd ≠ 15#4)
    (ha : transferAddress p u w (s.reg rn) offset = some (addr, wb)) (h3 : ¬ (wb.isSome ∧ rn = rd))
    (h4 : aligned size addr = true) (body : Word → Option Word → Result) :
    withTransfer size p u w rn rd offset s body = body addr wb := by
  unfold withTransfer
  rw [if_neg h1, if_neg h2, ha]
  simp only
  rw [if_neg h3, if_pos h4]

theorem withBlock_next {p u sbit w : Bool} {rn : RegNum} {list : BitVec 16} {s t : State}
    {body : Word → Word → Word → Result} (h : withBlock p u sbit w rn list s body = .next t) :
    sbit = false ∧ rn ≠ 15#4 ∧ list ≠ 0#16 ∧ aligned .word (s.reg rn) = true ∧
      ¬ (w = true ∧ list.getLsbD rn.toNat = true) ∧
      body (s.reg rn) (blockRange p u (s.reg rn) (regsOf list).length).1
        (blockRange p u (s.reg rn) (regsOf list).length).2 = .next t := by
  unfold withBlock at h
  split at h
  · cases h
  split at h
  · cases h
  split at h
  · cases h
  split at h
  · cases h
  split at h
  · cases h
  rename_i h1 h2 h3 h4 h5
  exact ⟨by simpa using h1, h2, h3, by simpa using h4, h5, h⟩

theorem withBlock_eq {p u w : Bool} {rn : RegNum} {list : BitVec 16} {s : State} (h2 : rn ≠ 15#4) (h3 : list ≠ 0#16)
    (h4 : aligned .word (s.reg rn) = true) (h5 : ¬ (w = true ∧ list.getLsbD rn.toNat = true))
    (body : Word → Word → Word → Result) :
    withBlock p u false w rn list s body =
      body (s.reg rn) (blockRange p u (s.reg rn) (regsOf list).length).1
        (blockRange p u (s.reg rn) (regsOf list).length).2 := by
  unfold withBlock
  rw [if_neg (by decide), if_neg h2, if_neg h3, if_neg (by simp [h4]), if_neg h5]

theorem withThumbSource_next {readsRd : Bool} {rd rs : RegNum} {s t : State} {body : Word → Result}
    (h : withThumbSource readsRd rd rs s body = .next t) :
    bothLow rd rs = false ∧ rs ≠ 15#4 ∧ ¬ (readsRd = true ∧ rd = 15#4) ∧ body (s.second rs) = .next t := by
  unfold withThumbSource at h
  split at h
  · cases h
  split at h
  · cases h
  rename_i h1 h2
  exact ⟨by simpa using h1, fun hr => h2 (.inl hr), fun hr => h2 (.inr hr), h⟩

theorem withThumbSource_eq {readsRd : Bool} {rd rs : RegNum} {s : State} (h1 : bothLow rd rs = false) (h2 : rs ≠ 15#4)
    (h3 : ¬ (readsRd = true ∧ rd = 15#4)) (body : Word → Result) :
    withThumbSource readsRd rd rs s body = body (s.second rs) := by
  unfold withThumbSource
  rw [if_neg (by simp [h1]), if_neg (by rintro (h | h) <;> [exact h2 h; exact h3 h])]

/-! ## Reads of bytes that may hold no value (log 4) -/

/-- The first byte of an access, and the rest, counted. -/
theorem valueless_succ (m : Memory) (a n : Nat) :
    valueless m a (n + 1) = (if m.get? a = none then 1 else 0) + valueless m (a + 1) n := by
  have hs : (fun j => decide (m.get? (a + (j + 1)) = none)) = fun j => decide (m.get? (a + 1 + j) = none) :=
    funext fun j => by rw [show a + (j + 1) = a + 1 + j by omega]
  simp only [valueless, List.range_succ_eq_map, List.filter_cons, List.filter_map, Function.comp_def, Nat.add_zero,
    Nat.succ_eq_add_one]
  rw [hs]
  split <;> simp_all [Nat.add_comm]

theorem foundByte_succ (m : Memory) (a d j : Nat) :
    foundByte m a d (j + 1) = foundByte m (a + 1) (d + if m.get? a = none then 1 else 0) j := by
  rw [foundByte, foundByte, valueless_succ, show a + (j + 1) = a + 1 + j by omega, Nat.add_assoc d]

/-- Reading bytes gives at each place its value or the free byte of its draw, and counts the draws. -/
theorem readBytes_found (n a : Nat) (s : State) :
    readBytes n a s = ((List.range n).map (foundByte s.mem a s.draws), s.drew (valueless s.mem a n)) := by
  induction n generalizing a s with
  | zero => rfl
  | succ n ih =>
    simp only [readBytes, ih, List.range_succ_eq_map, List.map_cons, List.map_map, Function.comp_def, Nat.succ_eq_add_one,
      foundByte_succ, valueless_succ]
    cases h : s.mem.get? a <;> simp [foundByte, valueless, h, State.drew, Nat.add_assoc]

theorem found_eq_assemble (be : Bool) (size : Size) (m : Memory) (a d : Nat) :
    found be size m a d = assemble be ((List.range size.bytes).map (foundByte m a d)) := by
  cases size <;> rfl

/-- A read that is answered ok: what it finds, the answer used, the draws counted. -/
theorem memRead_found {s : State} (h : s.abortNow = false) (size : Size) (addr : Word) :
    memRead size addr s = (some (found s.cfg.bigEndian size s.mem addr.toNat s.draws),
      s.answered.drew (valueless s.mem addr.toNat size.bytes)) := by
  simp [memRead, h, readBytes_found, found_eq_assemble]

/-! ## Data processing -/

theorem writeResult_next {sf : Bool} {rd : RegNum} {v : Word} {fl : HeldFlags} {s t : State}
    (h : writeResult sf rd v fl s = .next t) :
    (rd ≠ 15#4 ∧ advance 4 (if sf then (s.setReg rd v).setFlags fl else s.setReg rd v) = .next t) ∨
    (rd = 15#4 ∧ sf = true ∧ exceptionReturn v s = .next t) ∨ (rd = 15#4 ∧ sf = false ∧ jumpArm v s = .next t) := by
  unfold writeResult at h
  by_cases hr : rd = 15#4
  · subst hr
    cases sf
    · exact .inr (.inr ⟨rfl, rfl, by simpa using h⟩)
    · exact .inr (.inl ⟨rfl, rfl, by simpa using h⟩)
  · rw [if_pos hr] at h
    exact .inl ⟨hr, h⟩

/-! ## Exceptions -/

@[simp] theorem raise_cpsr (e : Exn) (ret : Word) (s : State) :
    (raise e ret s).cpsr = { s.cpsr with mode := e.mode, t := false, i := true, f := s.cpsr.f || e.masksFiq } := rfl

@[simp] theorem raise_pc (e : Exn) (ret : Word) (s : State) : (raise e ret s).pc = e.vector := rfl

@[simp] theorem raise_mem (e : Exn) (ret : Word) (s : State) : (raise e ret s).mem = s.mem := rfl
@[simp] theorem raise_modified (e : Exn) (ret : Word) (s : State) : (raise e ret s).modified = s.modified := rfl
@[simp] theorem raise_wedged (e : Exn) (ret : Word) (s : State) : (raise e ret s).wedged = s.wedged := rfl
@[simp] theorem raise_cfg (e : Exn) (ret : Word) (s : State) : (raise e ret s).cfg = s.cfg := rfl
@[simp] theorem raise_lines (e : Exn) (ret : Word) (s : State) : (raise e ret s).lines = s.lines := rfl
@[simp] theorem raise_aborts (e : Exn) (ret : Word) (s : State) : (raise e ret s).aborts = s.aborts := rfl
@[simp] theorem raise_draws (e : Exn) (ret : Word) (s : State) : (raise e ret s).draws = s.draws := rfl

@[simp] theorem raise_spsrs (e : Exn) (ret : Word) (s : State) :
    (raise e ret s).spsrs = s.spsrs.set e.spsr s.cpsr.toPsr := rfl

/-- The registers after an exception entry (60_exceptions.md R225). -/
theorem raise_get (e : Exn) (ret : Word) (s : State) (p : PhysReg) :
    (raise e ret s).regs.get p =
      if p = .r15 then .value e.vector else if p = bank e.mode 14#4 then .value ret else s.regs.get p := by
  cases e <;> cases p <;> rfl

/-- The SPSR an exception writes is the one of the mode it enters (60_exceptions.md R222). -/
theorem Exn.spsr_mode (e : Exn) : e.mode.spsr? = some e.spsr := by cases e <;> rfl

/-- The mode numbers (10_state.md R38). -/
@[simp] theorem Mode.ofBits_bits (m : Mode) : Mode.ofBits m.bits = some m := by cases m <;> rfl

theorem Mode.bits_of_ofBits : ∀ {b : BitVec 5} {m : Mode}, Mode.ofBits b = some m → m.bits = b := by decide

/-- A saved status that is the copy of a CPSR restores it, with the flags as they read. -/
theorem Cpsr.toCpsr_toPsr (c : Cpsr) (free : Word) :
    (c.toPsr.read free).toCpsr c.mode = { c with flags := (c.flags.read free).held } := rfl

/-- The registers after a reset (70_reset_and_hazards.md R271). -/
theorem takeReset_get (s : State) {p : PhysReg} (h : p ≠ .r15) : (takeReset s).regs.get p = .unspecified := by
  cases p <;> first | exact absurd rfl h | rfl

@[simp] theorem takeReset_pc (s : State) : (takeReset s).pc = 0#32 := rfl
@[simp] theorem takeReset_mem (s : State) : (takeReset s).mem = [] := rfl
@[simp] theorem takeReset_modified (s : State) : (takeReset s).modified = s.modified := rfl
@[simp] theorem takeReset_draws (s : State) : (takeReset s).draws = s.draws := rfl

/-- A saved status survives the way through a register (42_psr_access.md R150, R152). -/
theorem Psr.ofWord_toWord (p : Psr) (u : BitVec 20) : Psr.ofWord (p.toWord u) = p := by
  obtain ⟨⟨n, z, c, v⟩, i, f, t, m⟩ := p
  simp only [Psr.ofWord, Psr.toWord, Flags.ofWord, flag]
  congr 1
  · congr 1 <;> (simp only [BitVec.getLsbD_append, BitVec.getLsbD_ofBool]; simp)
  · simp only [BitVec.getLsbD_append, BitVec.getLsbD_ofBool]; simp
  · simp only [BitVec.getLsbD_append, BitVec.getLsbD_ofBool]; simp
  · simp only [BitVec.getLsbD_append, BitVec.getLsbD_ofBool]; simp
  · apply BitVec.eq_of_getLsbD_eq
    intro j hj
    simp only [BitVec.getLsbD_extractLsb', BitVec.getLsbD_append, BitVec.getLsbD_ofBool]
    simp [hj]

/-! ## Blocks -/

/-- Everything the load of one register leaves alone: status, memory, the parameters, the lines, the pc. -/
theorem loadOne_frame (i : RegNum) (addr : Word) (b : BlockLoad) :
    let t := (loadOne i addr b).state
    t.cpsr = b.state.cpsr ∧ t.spsrs = b.state.spsrs ∧ t.mem = b.state.mem ∧ t.modified = b.state.modified ∧
      t.wedged = b.state.wedged ∧ t.cfg = b.state.cfg ∧ t.lines = b.state.lines ∧ t.pc = b.state.pc := by
  unfold loadOne
  rcases memRead_cases .word addr b.state with ⟨-, h⟩ | ⟨-, k, v, h⟩ <;> rw [h]
  · simp
  · by_cases ha : b.aborted = true
    · simp [ha]
    · by_cases hi : i = 15#4
      · simp [ha, hi]
      · simp [ha, hi, State.setReg_pc _ hi]

/-- Everything the loop of an LDM leaves alone. -/
theorem loadBlock_frame (is : List RegNum) (addr : Word) (b : BlockLoad) :
    let t := (loadBlock is addr b).state
    t.cpsr = b.state.cpsr ∧ t.spsrs = b.state.spsrs ∧ t.mem = b.state.mem ∧ t.modified = b.state.modified ∧
      t.wedged = b.state.wedged ∧ t.cfg = b.state.cfg ∧ t.lines = b.state.lines ∧ t.pc = b.state.pc := by
  induction is generalizing addr b with
  | nil => simp [loadBlock]
  | cons i is ih =>
    have h1 := loadOne_frame i addr b
    have h2 := ih (addr + 4#32) (loadOne i addr b)
    simp only [loadBlock] at *
    simp_all only [and_self]

/-- Everything the store of one register leaves alone: registers, status, the parameters, the lines. -/
theorem storeOne_frame (i : RegNum) (addr : Word) (b : Bool × State) :
    let t := (storeOne i addr b).2
    t.regs = b.2.regs ∧ t.cpsr = b.2.cpsr ∧ t.spsrs = b.2.spsrs ∧ t.wedged = b.2.wedged ∧ t.cfg = b.2.cfg ∧
      t.lines = b.2.lines ∧ t.draws = b.2.draws ∧ t.aborts = b.2.aborts.tail := by
  unfold storeOne
  rcases memWrite_cases .word addr (b.2.second i) b.2 with ⟨-, h⟩ | ⟨-, h⟩ <;> rw [h]
  · obtain ⟨m, d, hf⟩ := forgetBytes_state 4 addr.toNat b.2.answered
    simp [hf]
  · obtain ⟨m, d, hf⟩ := writeBytes_state (storeBytes b.2.cfg.bigEndian .word (b.2.second i)) addr.toNat b.2.answered
    simp [hf]

/-- Everything the loop of an STM leaves alone. -/
theorem storeBlock_frame (is : List RegNum) (addr : Word) (b : Bool × State) :
    let t := (storeBlock is addr b).2
    t.regs = b.2.regs ∧ t.cpsr = b.2.cpsr ∧ t.spsrs = b.2.spsrs ∧ t.wedged = b.2.wedged ∧ t.cfg = b.2.cfg ∧
      t.lines = b.2.lines ∧ t.draws = b.2.draws := by
  induction is generalizing addr b with
  | nil => simp [storeBlock]
  | cons i is ih =>
    have h1 := storeOne_frame i addr b
    have h2 := ih (addr + 4#32) (storeOne i addr b)
    simp only [storeBlock] at *
    simp_all only [and_self]

/-! ## The step -/

/-- Everything a step can do (60_exceptions.md R220). -/
theorem step_cases {s t : State} (h : step s = .next t) :
    (s.linesNow.nRESET = false ∧ t = takeReset s.boundaryPassed) ∨
    (s.linesNow.nRESET = true ∧ s.wedged = true ∧ wedgedStep s = .next t) ∨
    (s.linesNow.nRESET = true ∧ s.wedged = false ∧ s.linesNow.nFIQ = false ∧ s.cpsr.f = false ∧
      t = raise .fiq (s.pc + 4#32) s.boundaryPassed) ∨
    (s.linesNow.nRESET = true ∧ s.wedged = false ∧ ¬ (s.linesNow.nFIQ = false ∧ s.cpsr.f = false) ∧
      s.linesNow.nIRQ = false ∧ s.cpsr.i = false ∧ t = raise .irq (s.pc + 4#32) s.boundaryPassed) ∨
    (s.linesNow.nRESET = true ∧ s.wedged = false ∧ ¬ (s.linesNow.nFIQ = false ∧ s.cpsr.f = false) ∧
      ¬ (s.linesNow.nIRQ = false ∧ s.cpsr.i = false) ∧ fetchAndRun exec s.boundaryPassed = .next t) := by
  unfold step stepWith at h
  cases hr : s.linesNow.nRESET with
  | false => rw [hr] at h; exact .inl ⟨rfl, by injection h with h; exact h.symm⟩
  | true =>
    rw [hr, if_neg (by decide)] at h
    cases hw : s.wedged with
    | true => rw [hw] at h; exact .inr (.inl ⟨rfl, rfl, h⟩)
    | false =>
      rw [hw, if_neg (by decide)] at h
      unfold boundaryStep at h
      split at h
      · rename_i hf
        exact .inr (.inr (.inl ⟨rfl, rfl, hf.1, hf.2, by injection h with h; exact h.symm⟩))
      · split at h
        · rename_i hf hi
          exact .inr (.inr (.inr (.inl ⟨rfl, rfl, hf, hi.1, hi.2, by injection h with h; exact h.symm⟩)))
        · rename_i hf hi
          exact .inr (.inr (.inr (.inr ⟨rfl, rfl, hf, hi, h⟩)))

/-- Everything a fetch and its execution can do (60_exceptions.md R220). -/
theorem fetchAndRun_cases {run : Instr → State → Result} {s t : State} (h : fetchAndRun run s = .next t) :
    pcFits s.cpsr.t s.pc = true ∧ anyModified s.modified s.pc.toNat (instrLength s.cpsr.t) = false ∧
    ((s.abortNow = true ∧ t = raise .prefetchAbort (s.pc + 4#32) s.answered) ∨
     (s.abortNow = false ∧ ∃ i k bytes, decode s.cfg.bigEndian s.cpsr.t bytes = .ok i ∧
      bytes = (readBytes (instrLength s.cpsr.t) s.pc.toNat s.answered).1 ∧
      run i (s.answered.drew k) = .next t)) := by
  unfold fetchAndRun at h
  split at h
  · rename_i hp
    refine ⟨hp, ?_⟩
    unfold fetch at h
    simp only at h
    cases hm : anyModified s.modified s.pc.toNat (instrLength s.cpsr.t) with
    | true => rw [hm] at h; cases h
    | false =>
      refine ⟨rfl, ?_⟩
      rw [hm, if_neg (by decide)] at h
      cases ha : s.abortNow with
      | true => rw [ha] at h; exact .inl ⟨rfl, by injection h with h; exact h.symm⟩
      | false =>
        rw [ha, if_neg (by decide)] at h
        obtain ⟨k, hk⟩ := readBytes_state (instrLength s.cpsr.t) s.pc.toNat s.answered
        simp only [hk] at h
        unfold decodeAndRun at h
        refine .inr ⟨rfl, ?_⟩
        split at h
        · rename_i i hi
          exact ⟨i, k, _, hi, rfl, h⟩
        · cases h
  · cases h

end Sys2Proof.Machine
end

