-- ==== Sys2Proof/Laws/PerInstr.lean ====
section
/-!
SUPPORT. Per instruction: the encoding of every instruction has the fixed bits of its row of spec/30_encoding.md R96.
-/

namespace Sys2Proof.Laws.RowMatch

/-- The mask and the match of each instruction's row (30_encoding.md R96). -/
def row : Instr → Nat × Nat
  | .bx .. => (0x0FFFFFF0, 0x012FFF10)
  | .b .. => (0x0F000000, 0x0A000000)
  | .bl .. => (0x0F000000, 0x0B000000)
  | .movReg .. => (0x0FEF0FF0, 0x01A00000)
  | .movImm .. => (0x0FEF0000, 0x03A00000)
  | .addReg .. => (0x0FE00FF0, 0x00800000)
  | .addImm .. => (0x0FE00000, 0x02800000)
  | .subReg .. => (0x0FE00FF0, 0x00400000)
  | .subImm .. => (0x0FE00000, 0x02400000)
  | .cmpReg .. => (0x0FF0FFF0, 0x01500000)
  | .cmpImm .. => (0x0FF0F000, 0x03500000)
  | .mrs .. => (0x0FBF0FFF, 0x010F0000)
  | .msrReg .. => (0x0FB0FFF0, 0x0120F000)
  | .msrImm .. => (0x0FB0F000, 0x0320F000)
  | .ldr .. => (0x0E500000, 0x04100000)
  | .str .. => (0x0E500000, 0x04000000)
  | .ldrb .. => (0x0E500000, 0x04500000)
  | .strb .. => (0x0E500000, 0x04400000)
  | .ldrh .. => (0x0E5000F0, 0x005000B0)
  | .strh .. => (0x0E5000F0, 0x004000B0)
  | .ldm .. => (0x0E100000, 0x08100000)
  | .stm .. => (0x0E100000, 0x08000000)
  | .swp .. => (0x0FF00FF0, 0x01000090)
  | .swpb .. => (0x0FF00FF0, 0x01400090)
  | .swi .. => (0x0F000000, 0x0F000000)
  | .und .. => (0x0E000010, 0x06000010)
  | .tAdd .. => (0xFF00, 0x4400)
  | .tCmp .. => (0xFF00, 0x4500)
  | .tMov .. => (0xFF00, 0x4600)
  | .tBx .. => (0xFF87, 0x4700)
  | .tB .. => (0xF000, 0xD000)
  | .tSwi .. => (0xFF00, 0xDF00)

/-- An encoded instruction has the fixed bits of a row. -/
def fits (c : Code) (r : Nat × Nat) : Prop :=
  match c with
  | .arm w => w &&& BitVec.ofNat 32 r.1 = BitVec.ofNat 32 r.2
  | .thumb h => h &&& BitVec.ofNat 16 r.1 = BitVec.ofNat 16 r.2

/-- The encoding of an instruction selects the instruction's own row (30_encoding.md R96). -/
def Statement (i : Instr) : Prop := fits (encode i) (row i)

theorem bx (cond : Cond) (rm : RegNum) :
    Statement (.bx cond rm) := by
  apply BitVec.eq_of_getLsbD_eq
  intro j hj
  simp only [row, BitVec.getLsbD_and, BitVec.getLsbD_append]
  interval_cases j <;> simp

theorem b (cond : Cond) (offset : BitVec 24) :
    Statement (.b cond offset) := by
  apply BitVec.eq_of_getLsbD_eq
  intro j hj
  simp only [row, BitVec.getLsbD_and, BitVec.getLsbD_append]
  interval_cases j <;> simp

theorem bl (cond : Cond) (offset : BitVec 24) :
    Statement (.bl cond offset) := by
  apply BitVec.eq_of_getLsbD_eq
  intro j hj
  simp only [row, BitVec.getLsbD_and, BitVec.getLsbD_append]
  interval_cases j <;> simp

theorem movReg (cond : Cond) (sf : Bool) (rd : RegNum) (rm : RegNum) :
    Statement (.movReg cond sf rd rm) := by
  apply BitVec.eq_of_getLsbD_eq
  intro j hj
  simp only [row, BitVec.getLsbD_and, BitVec.getLsbD_append, flag, BitVec.getLsbD_ofBool]
  interval_cases j <;> simp

theorem movImm (cond : Cond) (sf : Bool) (rd : RegNum) (rot : BitVec 4) (imm : Byte) :
    Statement (.movImm cond sf rd rot imm) := by
  apply BitVec.eq_of_getLsbD_eq
  intro j hj
  simp only [row, BitVec.getLsbD_and, BitVec.getLsbD_append, flag, BitVec.getLsbD_ofBool]
  interval_cases j <;> simp

theorem addReg (cond : Cond) (sf : Bool) (rn : RegNum) (rd : RegNum) (rm : RegNum) :
    Statement (.addReg cond sf rn rd rm) := by
  apply BitVec.eq_of_getLsbD_eq
  intro j hj
  simp only [row, BitVec.getLsbD_and, BitVec.getLsbD_append, flag, BitVec.getLsbD_ofBool]
  interval_cases j <;> simp

theorem addImm (cond : Cond) (sf : Bool) (rn : RegNum) (rd : RegNum) (rot : BitVec 4) (imm : Byte) :
    Statement (.addImm cond sf rn rd rot imm) := by
  apply BitVec.eq_of_getLsbD_eq
  intro j hj
  simp only [row, BitVec.getLsbD_and, BitVec.getLsbD_append, flag, BitVec.getLsbD_ofBool]
  interval_cases j <;> simp

theorem subReg (cond : Cond) (sf : Bool) (rn : RegNum) (rd : RegNum) (rm : RegNum) :
    Statement (.subReg cond sf rn rd rm) := by
  apply BitVec.eq_of_getLsbD_eq
  intro j hj
  simp only [row, BitVec.getLsbD_and, BitVec.getLsbD_append, flag, BitVec.getLsbD_ofBool]
  interval_cases j <;> simp

theorem subImm (cond : Cond) (sf : Bool) (rn : RegNum) (rd : RegNum) (rot : BitVec 4) (imm : Byte) :
    Statement (.subImm cond sf rn rd rot imm) := by
  apply BitVec.eq_of_getLsbD_eq
  intro j hj
  simp only [row, BitVec.getLsbD_and, BitVec.getLsbD_append, flag, BitVec.getLsbD_ofBool]
  interval_cases j <;> simp

theorem cmpReg (cond : Cond) (rn : RegNum) (rm : RegNum) :
    Statement (.cmpReg cond rn rm) := by
  apply BitVec.eq_of_getLsbD_eq
  intro j hj
  simp only [row, BitVec.getLsbD_and, BitVec.getLsbD_append]
  interval_cases j <;> simp

theorem cmpImm (cond : Cond) (rn : RegNum) (rot : BitVec 4) (imm : Byte) :
    Statement (.cmpImm cond rn rot imm) := by
  apply BitVec.eq_of_getLsbD_eq
  intro j hj
  simp only [row, BitVec.getLsbD_and, BitVec.getLsbD_append]
  interval_cases j <;> simp

theorem mrs (cond : Cond) (spsr : Bool) (rd : RegNum) :
    Statement (.mrs cond spsr rd) := by
  apply BitVec.eq_of_getLsbD_eq
  intro j hj
  simp only [row, BitVec.getLsbD_and, BitVec.getLsbD_append, flag, BitVec.getLsbD_ofBool]
  interval_cases j <;> simp

theorem msrReg (cond : Cond) (spsr : Bool) (mask : BitVec 4) (rm : RegNum) :
    Statement (.msrReg cond spsr mask rm) := by
  apply BitVec.eq_of_getLsbD_eq
  intro j hj
  simp only [row, BitVec.getLsbD_and, BitVec.getLsbD_append, flag, BitVec.getLsbD_ofBool]
  interval_cases j <;> simp

theorem msrImm (cond : Cond) (spsr : Bool) (mask : BitVec 4) (rot : BitVec 4) (imm : Byte) :
    Statement (.msrImm cond spsr mask rot imm) := by
  apply BitVec.eq_of_getLsbD_eq
  intro j hj
  simp only [row, BitVec.getLsbD_and, BitVec.getLsbD_append, flag, BitVec.getLsbD_ofBool]
  interval_cases j <;> simp

theorem ldr (cond : Cond) (p : Bool) (u : Bool) (w : Bool) (rn : RegNum) (rd : RegNum) (offset : BitVec 12) :
    Statement (.ldr cond p u w rn rd offset) := by
  apply BitVec.eq_of_getLsbD_eq
  intro j hj
  simp only [row, BitVec.getLsbD_and, BitVec.getLsbD_append, flag, BitVec.getLsbD_ofBool]
  interval_cases j <;> simp

theorem str (cond : Cond) (p : Bool) (u : Bool) (w : Bool) (rn : RegNum) (rd : RegNum) (offset : BitVec 12) :
    Statement (.str cond p u w rn rd offset) := by
  apply BitVec.eq_of_getLsbD_eq
  intro j hj
  simp only [row, BitVec.getLsbD_and, BitVec.getLsbD_append, flag, BitVec.getLsbD_ofBool]
  interval_cases j <;> simp

theorem ldrb (cond : Cond) (p : Bool) (u : Bool) (w : Bool) (rn : RegNum) (rd : RegNum) (offset : BitVec 12) :
    Statement (.ldrb cond p u w rn rd offset) := by
  apply BitVec.eq_of_getLsbD_eq
  intro j hj
  simp only [row, BitVec.getLsbD_and, BitVec.getLsbD_append, flag, BitVec.getLsbD_ofBool]
  interval_cases j <;> simp

theorem strb (cond : Cond) (p : Bool) (u : Bool) (w : Bool) (rn : RegNum) (rd : RegNum) (offset : BitVec 12) :
    Statement (.strb cond p u w rn rd offset) := by
  apply BitVec.eq_of_getLsbD_eq
  intro j hj
  simp only [row, BitVec.getLsbD_and, BitVec.getLsbD_append, flag, BitVec.getLsbD_ofBool]
  interval_cases j <;> simp

theorem ldrh (cond : Cond) (p : Bool) (u : Bool) (w : Bool) (rn : RegNum) (rd : RegNum) (immH : BitVec 4) (immL : BitVec 4) :
    Statement (.ldrh cond p u w rn rd immH immL) := by
  apply BitVec.eq_of_getLsbD_eq
  intro j hj
  simp only [row, BitVec.getLsbD_and, BitVec.getLsbD_append, flag, BitVec.getLsbD_ofBool]
  interval_cases j <;> simp

theorem strh (cond : Cond) (p : Bool) (u : Bool) (w : Bool) (rn : RegNum) (rd : RegNum) (immH : BitVec 4) (immL : BitVec 4) :
    Statement (.strh cond p u w rn rd immH immL) := by
  apply BitVec.eq_of_getLsbD_eq
  intro j hj
  simp only [row, BitVec.getLsbD_and, BitVec.getLsbD_append, flag, BitVec.getLsbD_ofBool]
  interval_cases j <;> simp

theorem ldm (cond : Cond) (p : Bool) (u : Bool) (sbit : Bool) (w : Bool) (rn : RegNum) (list : BitVec 16) :
    Statement (.ldm cond p u sbit w rn list) := by
  apply BitVec.eq_of_getLsbD_eq
  intro j hj
  simp only [row, BitVec.getLsbD_and, BitVec.getLsbD_append, flag, BitVec.getLsbD_ofBool]
  interval_cases j <;> simp

theorem stm (cond : Cond) (p : Bool) (u : Bool) (sbit : Bool) (w : Bool) (rn : RegNum) (list : BitVec 16) :
    Statement (.stm cond p u sbit w rn list) := by
  apply BitVec.eq_of_getLsbD_eq
  intro j hj
  simp only [row, BitVec.getLsbD_and, BitVec.getLsbD_append, flag, BitVec.getLsbD_ofBool]
  interval_cases j <;> simp

theorem swp (cond : Cond) (rn : RegNum) (rd : RegNum) (rm : RegNum) :
    Statement (.swp cond rn rd rm) := by
  apply BitVec.eq_of_getLsbD_eq
  intro j hj
  simp only [row, BitVec.getLsbD_and, BitVec.getLsbD_append]
  interval_cases j <;> simp

theorem swpb (cond : Cond) (rn : RegNum) (rd : RegNum) (rm : RegNum) :
    Statement (.swpb cond rn rd rm) := by
  apply BitVec.eq_of_getLsbD_eq
  intro j hj
  simp only [row, BitVec.getLsbD_and, BitVec.getLsbD_append]
  interval_cases j <;> simp

theorem swi (cond : Cond) (comment : BitVec 24) :
    Statement (.swi cond comment) := by
  apply BitVec.eq_of_getLsbD_eq
  intro j hj
  simp only [row, BitVec.getLsbD_and, BitVec.getLsbD_append]
  interval_cases j <;> simp

theorem und (cond : Cond) (high : BitVec 20) (low : BitVec 4) :
    Statement (.und cond high low) := by
  apply BitVec.eq_of_getLsbD_eq
  intro j hj
  simp only [row, BitVec.getLsbD_and, BitVec.getLsbD_append]
  interval_cases j <;> simp

theorem tAdd (rd : RegNum) (rs : RegNum) :
    Statement (.tAdd rd rs) := by
  apply BitVec.eq_of_getLsbD_eq
  intro j hj
  simp only [row, BitVec.getLsbD_and, BitVec.getLsbD_append, BitVec.getLsbD_extractLsb']
  interval_cases j <;> simp

theorem tCmp (rd : RegNum) (rs : RegNum) :
    Statement (.tCmp rd rs) := by
  apply BitVec.eq_of_getLsbD_eq
  intro j hj
  simp only [row, BitVec.getLsbD_and, BitVec.getLsbD_append, BitVec.getLsbD_extractLsb']
  interval_cases j <;> simp

theorem tMov (rd : RegNum) (rs : RegNum) :
    Statement (.tMov rd rs) := by
  apply BitVec.eq_of_getLsbD_eq
  intro j hj
  simp only [row, BitVec.getLsbD_and, BitVec.getLsbD_append, BitVec.getLsbD_extractLsb']
  interval_cases j <;> simp

theorem tBx (rs : RegNum) :
    Statement (.tBx rs) := by
  apply BitVec.eq_of_getLsbD_eq
  intro j hj
  simp only [row, BitVec.getLsbD_and, BitVec.getLsbD_append]
  interval_cases j <;> simp

theorem tB (cond : Cond) (offset : Byte) :
    Statement (.tB cond offset) := by
  apply BitVec.eq_of_getLsbD_eq
  intro j hj
  simp only [row, BitVec.getLsbD_and, BitVec.getLsbD_append]
  interval_cases j <;> simp

theorem tSwi (value : Byte) :
    Statement (.tSwi value) := by
  apply BitVec.eq_of_getLsbD_eq
  intro j hj
  simp only [row, BitVec.getLsbD_and, BitVec.getLsbD_append]
  interval_cases j <;> simp

end Sys2Proof.Laws.RowMatch
end

