-- ==== Sys2Proof/Tests/Slice0.lean ====
section
/-!
SUPPORT. Tests. Well-formedness smoke tests; for every instruction a word written out from spec/30_encoding.md R94 to R96
and what it decodes to; one step of every instruction, its expected result from spec/95_test_vectors.md (the vector's
name stands beside it) or from the example of the instruction's rule; and for every statement with hypotheses a state
and operands that meet them, clause by clause.
-/

namespace Sys2Proof.Tests

open Sys2Proof.Machine

/-! ## Well-formedness -/

theorem test_wellFormed_refuses_thumb_branch_al : (Instr.tB .al 0).wellFormed = false := by decide
theorem test_wellFormed_refuses_thumb_branch_nv : (Instr.tB .nv 0).wellFormed = false := by decide
theorem test_wellFormed_accepts_thumb_branch_le : (Instr.tB .le 0).wellFormed = true := by decide

/-! ## Decoding: words of 95_test_vectors.md and of the rules' examples -/

theorem test_decode_bx : decodeTableWord 32 0xE12FFF10 = some (.bx .al 0) := by decide
theorem test_decode_b : decodeTableWord 32 0x1AFFFFFC = some (.b .ne 0xFFFFFC) := by decide
theorem test_decode_bl : decodeTableWord 32 0xEB0003FE = some (.bl .al 0x3FE) := by decide
theorem test_decode_movReg : decodeTableWord 32 0xE1B0F00E = some (.movReg .al true 15 14) := by decide
theorem test_decode_movImm : decodeTableWord 32 0xE3B014FF = some (.movImm .al true 1 4 0xFF) := by decide
theorem test_decode_addReg : decodeTableWord 32 0xE0902001 = some (.addReg .al true 0 2 1) := by decide
theorem test_decode_addImm : decodeTableWord 32 0xE284401C = some (.addImm .al false 4 4 0 0x1C) := by decide
theorem test_decode_subReg : decodeTableWord 32 0xE0502001 = some (.subReg .al true 0 2 1) := by decide
theorem test_decode_subImm : decodeTableWord 32 0xE25EF004 = some (.subImm .al true 14 15 0 4) := by decide
theorem test_decode_cmpReg : decodeTableWord 32 0xE1500001 = some (.cmpReg .al 0 1) := by decide
theorem test_decode_cmpImm : decodeTableWord 32 0xE3500005 = some (.cmpImm .al 0 0 5) := by decide
theorem test_decode_mrs : decodeTableWord 32 0xE14F0000 = some (.mrs .al true 0) := by decide
theorem test_decode_msrReg : decodeTableWord 32 0xE169F000 = some (.msrReg .al true 9 0) := by decide
theorem test_decode_msrImm : decodeTableWord 32 0xE321F0DF = some (.msrImm .al false 1 0 0xDF) := by decide
theorem test_decode_ldr : decodeTableWord 32 0xE4910004 = some (.ldr .al false true false 1 0 4) := by decide
theorem test_decode_str : decodeTableWord 32 0xE5210004 = some (.str .al true false true 1 0 4) := by decide
theorem test_decode_ldrb : decodeTableWord 32 0xE5D12001 = some (.ldrb .al true true false 1 2 1) := by decide
theorem test_decode_strb : decodeTableWord 32 0xE5C12000 = some (.strb .al true true false 1 2 0) := by decide
theorem test_decode_ldrh : decodeTableWord 32 0xE1D100B2 = some (.ldrh .al true true false 1 0 0 2) := by decide
theorem test_decode_strh : decodeTableWord 32 0xE1C100B0 = some (.strh .al true true false 1 0 0 0) := by decide
theorem test_decode_ldm : decodeTableWord 32 0xE8BD800F = some (.ldm .al false true false true 13 0x800F) := by decide
theorem test_decode_stm : decodeTableWord 32 0xE92D400F = some (.stm .al true false false true 13 0x400F) := by decide
theorem test_decode_swp : decodeTableWord 32 0xE10D2093 = some (.swp .al 13 2 3) := by decide
theorem test_decode_swpb : decodeTableWord 32 0xE1420091 = some (.swpb .al 2 0 1) := by decide
theorem test_decode_swi : decodeTableWord 32 0xEF000011 = some (.swi .al 0x11) := by decide
theorem test_decode_und : decodeTableWord 32 0xE7F000F0 = some (.und .al 0xF8007 0) := by decide
theorem test_decode_tAdd : decodeTableWord 16 0x4442 = some (.tAdd 2 8) := by decide
theorem test_decode_tCmp : decodeTableWord 16 0x4542 = some (.tCmp 2 8) := by decide
theorem test_decode_tMov : decodeTableWord 16 0x46F7 = some (.tMov 15 14) := by decide
theorem test_decode_tBx : decodeTableWord 16 0x4720 = some (.tBx 4) := by decide
theorem test_decode_tB : decodeTableWord 16 0xD0FE = some (.tB .eq 0xFE) := by decide
theorem test_decode_tSwi : decodeTableWord 16 0xDF01 = some (.tSwi 1) := by decide

/-- D-E12, D-E15, D-E18, D-E19. -/
theorem test_decode_refuses_words_outside_the_subset :
    decodeTableWord 32 0xE0000090 = none ∧ decodeTableWord 32 0xE1A00101 = none ∧ decodeTableWord 16 0xDE00 = none ∧
      decodeTableWord 16 0x1C08 = none := by decide

/-! ## One step -/

/-- A state in a mode, with registers, at an address; interrupts disabled, flags clear. -/
def at_ (m : Mode) (pc : Word) (regs : RegFile) : State :=
  { State.reset with regs := { regs with r15 := pc }, cpsr := { State.reset.cpsr with mode := m } }

/-- The step of the instruction with the given bits. -/
def arm (s : State) (w : Nat) : Result := step (s.withFetchWord 32 w)

/-- The step of the THUMB instruction with the given bits. -/
def thumb (s : State) (h : Nat) : Result := step (s.withFetchWord 16 h)

/-- The step answers a next state with a property. -/
def gives (r : Result) (p : State → Bool) : Bool :=
  match r with
  | .next t => p t
  | .fault _ => false
  | .refused _ => false

/-- The step is refused for a reason. -/
def refuses (r : Result) (why : Refusal) : Bool :=
  match r with
  | .next _ => false
  | .fault _ => false
  | .refused x => x = why

/-- Store a word, little-endian. -/
def putWord (s : State) (a : Nat) (v : Word) : State := { s with mem := placeBytes (wordBytes false v) a s.mem }

def regs0 : RegFile := RegFile.zero

/-- Flags with values. -/
def fl (n z c v : Bool) : HeldFlags := Flags.held ⟨n, z, c, v⟩

/-- A saved status with values. -/
def psr (flags : HeldFlags) (i f t : Bool) (m : BitVec 5) : HeldPsr := ⟨flags, .value i, .value f, .value t, .value m⟩

/-- D-B4. -/
theorem test_bx_enters_thumb :
    gives (arm (at_ .svc 0x20 { regs0 with r0 := .value 0x8101 }) 0xE12FFF10) (fun t => t.cpsr.t && t.pc = 0x8100) = true := by
  decide
/-- D-B6. -/
theorem test_bx_refuses_misaligned :
    refuses (arm (at_ .svc 0x20 { regs0 with r0 := .value 0x8102 }) 0xE12FFF10) .misalignedPc = true := by decide
/-- D-B8, D-B7. -/
theorem test_b_taken : gives (arm (at_ .svc 0x8010 regs0) 0x1AFFFFFC) (fun t => t.pc = 0x8008) = true := by decide
theorem test_b_not_taken :
    gives (arm ((at_ .svc 0x8010 regs0).setFlags (fl false true false false)) 0x1AFFFFFC) (fun t => t.pc = 0x8014) = true := by
  decide
/-- D-B3, in IRQ mode. -/
theorem test_bl_links :
    gives (arm (at_ .irq 0x1000 regs0) 0xEB0003FE) (fun t => t.regs.r14irq = .value 0x1004 && t.pc = 0x2000) = true := by decide
/-- D-A16. -/
theorem test_movs_pc_returns :
    gives (arm { at_ .svc 0x48 { regs0 with r14svc := .value 0x8010 } with
        spsrs := { State.reset.spsrs with svc := psr (fl false true true false) false false false 0b10000 } } 0xE1B0F00E)
      (fun t => t.cpsr = ⟨fl false true true false, false, false, false, .usr⟩ && t.pc = 0x8010) = true := by decide
/-- D-A19. -/
theorem test_movs_pc_wedges : gives (arm (at_ .svc 0x48 regs0) 0xE1B0F00E) (fun t => t.wedged && t.pc = 0x48) = true := by
  decide
/-- D-A10. -/
theorem test_movs_imm_carry :
    gives (arm ((at_ .svc 0 regs0).setFlags (fl false false false true)) 0xE3B014FF)
      (fun t => t.regs.r1 = .value 0xFF000000 && t.cpsr.flags = fl true false true true) = true := by decide
/-- D-A2. -/
theorem test_adds_overflow :
    gives (arm (at_ .svc 0 { regs0 with r0 := .value 0x7FFFFFFF, r1 := .value 1 }) 0xE0902001)
      (fun t => t.regs.r2 = .value 0x80000000 && t.cpsr.flags = fl true false false true) = true := by decide
/-- D-A15. -/
theorem test_add_refuses_pc : refuses (arm (at_ .svc 0 regs0) 0xE28F0004) .r15Operand = true := by decide
/-- The example of R132. -/
theorem test_add_imm_keeps_flags :
    gives (arm ((at_ .svc 0 { regs0 with r0 := .value 5 }).setFlags (fl true true true true)) 0xE2800001)
      (fun t => t.regs.r0 = .value 6 && t.cpsr.flags = fl true true true true) = true := by decide
/-- D-A4. -/
theorem test_subs_borrow :
    gives (arm (at_ .svc 0 { regs0 with r1 := .value 1 }) 0xE0502001)
      (fun t => t.regs.r2 = .value 0xFFFFFFFF && t.cpsr.flags = fl true false false false) = true := by decide
/-- D-A18. -/
theorem test_subs_pc_returns_to_thumb :
    gives (arm { at_ .irq 0x84 { regs0 with r14irq := .value 0x8108 } with
        spsrs := { State.reset.spsrs with irq := psr (fl false false true false) false false true 0b10000 } } 0xE25EF004)
      (fun t => t.cpsr.t && t.cpsr.mode = .usr && t.pc = 0x8104) = true := by decide
/-- D-A8. -/
theorem test_cmp_reg :
    gives (arm (at_ .svc 0 { regs0 with r0 := .value 3, r1 := .value 5 }) 0xE1500001)
      (fun t => t.regs.r0 = .value 3 && t.cpsr.flags = fl true false false false) = true := by decide
/-- The example of R134. -/
theorem test_cmp_imm :
    gives (arm (at_ .svc 0 { regs0 with r0 := .value 5 }) 0xE3500005)
      (fun t => t.cpsr.flags = fl false true true false) = true := by decide
/-- D-P8. -/
theorem test_mrs_refuses_spsr_of_user : refuses (arm (at_ .usr 0 regs0) 0xE14F0000) .noSpsr = true := by decide
/-- D-P5. -/
theorem test_msr_in_user_mode_writes_flags_only :
    gives (arm { at_ .usr 0 { regs0 with r0 := .value 0xF00000D3 } with cpsr := ⟨fl false false false false, false, false, false, .usr⟩ }
        0xE129F000)
      (fun t => t.cpsr = ⟨fl true true true true, false, false, false, .usr⟩) = true := by decide
/-- D-P9. -/
theorem test_msr_spsr :
    gives (arm (at_ .svc 0 { regs0 with r0 := .value 0x60000030 }) 0xE169F000)
      (fun t => t.spsrs.svc = psr (fl false true true false) false false true 0b10000) = true := by decide
/-- D-P2, D-P6. -/
theorem test_msr_to_system :
    gives (arm (at_ .svc 0 regs0) 0xE321F0DF) (fun t => t.cpsr.mode = .sys && t.cpsr.i && t.cpsr.f) = true := by decide
theorem test_msr_refuses_t : refuses (arm (at_ .svc 0 regs0) 0xE321F033) .tBitChanged = true := by decide
/-- D-L3, D-L6. -/
theorem test_ldr_post_indexed :
    gives (arm (putWord (at_ .svc 0 { regs0 with r1 := .value 0x1000 }) 0x1000 7) 0xE4910004)
      (fun t => t.regs.r0 = .value 7 && t.regs.r1 = .value 0x1004) = true := by decide
theorem test_ldr_abort_writes_back :
    gives (arm { at_ .svc 0x8008 { regs0 with r1 := .value 0x1000 } with aborts := [false, true] } 0xE4910004)
      (fun t => t.regs.r0 = .unspecified && t.regs.r1 = .value 0x1004 && t.regs.r14abt = .value 0x8010 && t.pc = 0x10) = true := by
  decide
/-- D-M4, big-endian; D-L7. -/
theorem test_str_big_endian :
    gives (arm { at_ .svc 0 { regs0 with r0 := .value 0xAABBCCDD, r1 := .value 0x1000 } with cfg := ⟨true, none⟩ } 0xE5810000)
      (fun t => t.mem.get? 0x1000 = some 0xAA && t.mem.get? 0x1003 = some 0xDD) = true := by decide
theorem test_str_abort_forgets :
    gives (arm { putWord (at_ .svc 0x8000 { regs0 with r1 := .value 0x2004 }) 0x2000 1 with aborts := [false, true] } 0xE5210004)
      (fun t => t.regs.r1 = .value 0x2000 && t.mem.get? 0x2000 = none && t.regs.r14abt = .value 0x8008) = true := by decide
/-- The example of R162, with the byte's top bit set. -/
theorem test_ldrb_zero_extends :
    gives (arm (putWord (at_ .svc 0 { regs0 with r1 := .value 0x1000 }) 0x1000 0x8000) 0xE5D12001)
      (fun t => t.regs.r2 = .value 0x80) = true := by decide
/-- The example of R163. -/
theorem test_strb_stores_low_byte :
    gives (arm (putWord (at_ .svc 0 { regs0 with r1 := .value 0x1000, r2 := .value 0x12345678 }) 0x1000 0) 0xE5C12000)
      (fun t => t.mem.get? 0x1000 = some 0x78 && t.mem.get? 0x1001 = some 0) = true := by decide
/-- D-M2, D-L2. -/
theorem test_ldrh :
    gives (arm (putWord (at_ .svc 0 { regs0 with r1 := .value 0x1000 }) 0x1000 0x44332211) 0xE1D100B2)
      (fun t => t.regs.r0 = .value 0x4433) = true := by decide
theorem test_ldrh_refuses_odd : refuses (arm (at_ .svc 0 { regs0 with r1 := .value 0x1000 }) 0xE1D100B1) .misalignedAccess = true := by
  decide
/-- D-M5. -/
theorem test_strh :
    gives (arm (at_ .svc 0 { regs0 with r0 := .value 0xAABBCCDD, r1 := .value 0x1000 }) 0xE1C100B0)
      (fun t => t.mem.get? 0x1000 = some 0xDD && t.mem.get? 0x1001 = some 0xCC && t.mem.get? 0x1002 = none) = true := by
  decide
/-- D-L14 (two registers, decrementing), D-L10. -/
theorem test_ldm_decrement_after :
    gives (arm (putWord (putWord (at_ .svc 0 { regs0 with r0 := .value 0x3008 }) 0x3004 5) 0x3008 6) 0xE8100006)
      (fun t => t.regs.r1 = .value 5 && t.regs.r2 = .value 6 && t.regs.r0 = .value 0x3008) = true := by decide
theorem test_ldm_abort_restores_base :
    gives (arm { putWord (at_ .svc 0 { regs0 with r0 := .value 0x3000, r1 := .value 9 }) 0x3000 5 with aborts := [false, false, true] }
        0xE8900003)
      (fun t => t.regs.r0 = .value 0x3000 && t.regs.r1 = .value 9 && t.cpsr.mode = .abt) = true := by decide
/-- D-L12 (its first and last words). -/
theorem test_stm_push :
    gives (arm (at_ .svc 0 { regs0 with r0 := .value 1, r14svc := .value 0x8020, r13svc := .value 0x3014 }) 0xE92D400F)
      (fun t => t.regs.r13svc = .value 0x3000 && wordAt? false t.mem 0x3000 = some 1 && wordAt? false t.mem 0x3010 = some 0x8020) =
      true := by decide
/-- D-L15, D-L16. -/
theorem test_swp :
    gives (arm (putWord (at_ .svc 0 { regs0 with r1 := .value 9, r2 := .value 0x4000 }) 0x4000 7) 0xE1020091)
      (fun t => t.regs.r0 = .value 7 && wordAt? false t.mem 0x4000 = some 9) = true := by decide
theorem test_swp_abort_undoes :
    gives (arm { putWord (at_ .svc 0x8000 { regs0 with r1 := .value 9, r2 := .value 0x4000 }) 0x4000 7 with aborts := [false, false, true] }
        0xE1020091)
      (fun t => t.regs.r0 = .value 0 && wordAt? false t.mem 0x4000 = some 7 && t.regs.r14abt = .value 0x8008) = true := by decide
/-- D-L18. -/
theorem test_swpb :
    gives (arm (putWord (at_ .svc 0 { regs0 with r1 := .value 0x1234, r2 := .value 0x4001 }) 0x4000 0xAB00) 0xE1420091)
      (fun t => t.regs.r0 = .value 0xAB && t.mem.get? 0x4001 = some 0x34) = true := by decide
/-- D-X1. -/
theorem test_swi :
    gives (arm { at_ .usr 0x8000 regs0 with cpsr := ⟨fl false false true false, false, false, false, .usr⟩ } 0xEF000011)
      (fun t => t.regs.r14svc = .value 0x8004 && t.spsrs.svc = psr (fl false false true false) false false false 0b10000 &&
        t.cpsr = ⟨fl false false true false, true, false, false, .svc⟩ && t.pc = 8) = true := by decide
/-- D-X3. -/
theorem test_undefined :
    gives (arm (at_ .usr 0x9000 regs0) 0xE7F000F0)
      (fun t => t.regs.r14und = .value 0x9004 && t.cpsr.mode = .und && t.pc = 4) = true := by decide
/-- D-T2. -/
theorem test_thumb_add :
    gives (thumb (at_ .usr 0x8102 { regs0 with r2 := .value 7, r8usr := .value 7 }) 0x4442)
      (fun t => t.regs.r2 = .value 14 && t.pc = 0x8104) = true := by
  decide
/-- D-T3. -/
theorem test_thumb_cmp :
    gives (thumb (at_ .usr 0x8104 { regs0 with r2 := .value 14, r8usr := .value 7 }) 0x4542)
      (fun t => t.cpsr.flags = fl false false true false) = true := by decide
/-- D-T5, D-T4. -/
theorem test_thumb_mov_pc :
    gives (thumb (at_ .usr 0x8104 { regs0 with r14usr := .value 0x8105 }) 0x46F7) (fun t => t.pc = 0x8104 && t.cpsr.t) = true := by
  decide
theorem test_thumb_mov_refuses_low : refuses (thumb (at_ .usr 0x8104 regs0) 0x4608) .bothLow = true := by decide
/-- D-T6. -/
theorem test_thumb_bx :
    gives (thumb (at_ .usr 0x810C { regs0 with r4 := .value 0x801C }) 0x4720) (fun t => !t.cpsr.t && t.pc = 0x801C) = true := by decide
/-- D-T8. -/
theorem test_thumb_b :
    gives (thumb ((at_ .usr 0x8106 regs0).setFlags (fl false true false false)) 0xD000) (fun t => t.pc = 0x810A) = true := by
  decide
/-- D-X2. -/
theorem test_thumb_swi :
    gives (thumb (at_ .usr 0x8108 regs0) 0xDF01)
      (fun t => t.regs.r14svc = .value 0x810A && t.spsrs.svc.t = .value true && !t.cpsr.t && t.pc = 8) = true := by decide

/-- D-X10. -/
theorem test_fiq_before_irq :
    gives (step { at_ .usr 0x8008 regs0 with
        cpsr := ⟨fl false false false false, false, false, false, .usr⟩, lines := [⟨true, false, false⟩] })
      (fun t => t.regs.r14fiq = .value 0x800C && t.cpsr.mode = .fiq && t.cpsr.i && t.cpsr.f && t.pc = 0x1C) = true := by decide
/-- D-X6. -/
theorem test_prefetch_abort_from_thumb :
    gives (step { at_ .usr 0x9002 regs0 with
        cpsr := ⟨fl false false false false, false, false, true, .usr⟩, aborts := [true] })
      (fun t => t.regs.r14abt = .value 0x9006 && t.spsrs.abt.t = .value true && !t.cpsr.t && t.pc = 0xC) = true := by decide
/-- D-X13. -/
theorem test_reset_of_wedged :
    gives (step { at_ .usr 0x9002 regs0 with wedged := true, lines := [⟨false, true, true⟩] })
      (fun t => !t.wedged && t.cpsr.mode = .svc && t.pc = 0) = true := by decide

/-! ## Hypotheses that can be met

One theorem per statement with hypotheses; `wit` is the state, and boundary values stand where a clause has a range. -/

def wit : State :=
  { at_ .svc 0x8000 { regs0 with
      r0 := .value 0x8101, r1 := .value 0x8100, r2 := .value 0x8102, r3 := .value 0x1000, r4 := .value 0x1004, r5 := .value 2
      r6 := .value 0xFFFFFFFC }
    with
    mem := placeBytes [1, 2, 3, 4, 5, 6, 7, 8] 0x1000 (placeBytes [0x10, 0xFF, 0x2F, 0xE1] 0x8000 [])
    spsrs := { State.reset.spsrs with svc := psr (fl false true true false) false false true 0b10000 } }

/-- `wit` at the last address a word instruction can advance from, and at the first it can not. -/
def witTop : State := wit.setPc 0xFFFFFFF8
def witEnd : State := wit.setPc 0xFFFFFFFC

/-- `wit` whose first access aborts. -/
def witAbort : State := { wit with aborts := [true] }

theorem test_witness_BxSwitchesState :
    wit.passes .al ∧ (0#4 ≠ 15#4 ∧ (wit.reg 0#4)[0] = true) ∧
      (1#4 ≠ 15#4 ∧ (wit.reg 1#4)[0] = false ∧ (wit.reg 1#4)[1] = false) ∧
      (2#4 ≠ 15#4 ∧ (wit.reg 2#4)[0] = false ∧ (wit.reg 2#4)[1] = true) := by decide

def witThumb : State := { wit with cpsr := { wit.cpsr with t := true } }

theorem test_witness_ThumbBxSwitchesState :
    witThumb.cpsr.t = true ∧ (witThumb.reg 0#4)[0] = true ∧
      ((witThumb.reg 1#4)[0] = false ∧ (witThumb.reg 1#4)[1] = false) ∧
      ((witThumb.reg 2#4)[0] = false ∧ (witThumb.reg 2#4)[1] = true) := by decide

/-- The target is 0, the last word of the address space, and one word beyond each. -/
theorem test_witness_BranchGoesToTarget :
    let exact := fun (s : State) (o : BitVec 24) => (s.pc.toNat : Int) + 8 + 4 * o.toInt
    wit.passes .al ∧ exact (wit.setPc 0x10) 0xFFFFFA#24 = 0 ∧ exact (wit.setPc 0xFFFFFFF0) 1#24 = 2 ^ 32 - 4 ∧
      exact (wit.setPc 0x10) 0xFFFFF9#24 = -4 ∧ exact (wit.setPc 0xFFFFFFF0) 2#24 = 2 ^ 32 := by decide

theorem test_witness_BranchWithLink :
    let exact := fun (s : State) (o : BitVec 24) => (s.pc.toNat : Int) + 8 + 4 * o.toInt
    wit.passes .ne ∧ exact (wit.setPc 0x10) 0xFFFFFA#24 = 0 ∧ exact (wit.setPc 0xFFFFFFF0) 1#24 = 2 ^ 32 - 4 := by decide

theorem test_witness_ThumbConditionalBranch :
    let exact := fun (s : State) (o : Byte) => (s.pc.toNat : Int) + 4 + 2 * o.toInt
    Cond.ne ≠ .al ∧ Cond.ne ≠ .nv ∧ condHolds .ne wit.flags = true ∧ exact (wit.setPc 4) 0xFC#8 = 0 ∧
      exact (wit.setPc 0xFFFFFFF8) 1#8 = 2 ^ 32 - 2 ∧ condHolds .eq wit.flags = false ∧
      (wit.setPc 0xFFFFFFFC).canAdvance 2 ∧ ¬ (wit.setPc 0xFFFFFFFE).canAdvance 2 := by decide

theorem test_witness_LinkAndThumbBranchesRefuseWrap :
    wit.passes .al ∧ (((wit.setPc 0x10).pc.toNat : Int) + 8 + 4 * (0xFFFFF9#24).toInt = -4) ∧
      condHolds .ne wit.flags = true ∧ (((wit.setPc 0xFFFFFFFC).pc.toNat : Int) + 4 + 2 * (0#8).toInt = 2 ^ 32) := by decide

/-- For MOV, ADD and SUB: the clauses of WritesBack, at the ends of the address space and of alignment. -/
theorem test_witness_MovWritesOperand :
    wit.passes .al ∧ witTop.passes .al ∧ witTop.canAdvance 4 ∧ ¬ witEnd.canAdvance 4 ∧
      (wit.reg 1#4).toNat % 4 = 0 ∧ (wit.reg 2#4).toNat % 4 ≠ 0 := by decide

theorem test_witness_AddWritesSum :
    witTop.passes .al ∧ witTop.canAdvance 4 ∧ ¬ witEnd.canAdvance 4 ∧ (wit.reg 1#4 + wit.reg 6#4).toNat % 4 = 0 ∧
      (wit.reg 1#4 + wit.reg 5#4).toNat % 4 ≠ 0 := by decide

theorem test_witness_SubWritesDifference :
    witTop.passes .al ∧ witTop.canAdvance 4 ∧ ¬ witEnd.canAdvance 4 ∧ (wit.reg 1#4 - wit.reg 6#4).toNat % 4 = 0 ∧
      (wit.reg 1#4 - wit.reg 5#4).toNat % 4 ≠ 0 := by decide

theorem test_witness_CmpWritesFlagsOnly :
    witTop.passes .al ∧ witTop.canAdvance 4 ∧ witEnd.passes .al ∧ ¬ witEnd.canAdvance 4 := by decide

theorem test_witness_ConditionsAfterCompare :
    comparison (.cmpImm .ne 0#4 4#4 0xFF#8) wit = some (0x8101, 0xFF000000) ∧
      (∀ c, armCond (.cmpImm .ne 0#4 4#4 0xFF#8) = some c → wit.passes c) ∧
      ∃ t, exec (.cmpImm .ne 0#4 4#4 0xFF#8) wit = .next t := by
  refine ⟨by decide, ?_, _, rfl⟩
  rintro c h
  cases h
  decide

/-- A return to a legal mode in THUMB state at an even and an odd address, to an illegal mode, and one without an SPSR. -/
theorem test_witness_ExceptionReturn :
    returnForm (.movReg .al true 15#4 2#4) wit = some (.al, 0x8102) ∧ wit.passes .al ∧
      wit.cpsr.mode.spsr? = some .svc ∧ Mode.usr.bits = ((wit.spsrs.get .svc).read wit.freeStatus).m ∧
      (((wit.spsrs.get .svc).read wit.freeStatus).t = true ∧ (0x8102#32).toNat % 2 = 0) ∧
      (returnForm (.movReg .al true 15#4 0#4) wit = some (.al, 0x8101) ∧ (0x8101#32).toNat % 2 ≠ 0) ∧
      (State.reset.cpsr.mode.spsr? = some .svc ∧ Mode.ofBits ((State.reset.spsrs.get .svc).read State.reset.freeStatus).m = none) ∧
      (at_ .sys 0 regs0).cpsr.mode = .sys := by decide

theorem test_witness_ExceptionReturn_illegal : ∀ m : Mode, m.bits ≠ ((State.reset.spsrs.get .svc).read State.reset.freeStatus).m := by
  intro m; cases m <;> decide

theorem test_witness_MrsReadsStatus :
    witTop.passes .al ∧ witTop.canAdvance 4 ∧ (at_ .usr 0 regs0).cpsr.mode = .usr ∧ wit.cpsr.mode.spsr? = some .svc ∧
      ¬ witEnd.canAdvance 4 := by decide

/-- MSR: each clause, with the immediate as operand. -/
theorem test_witness_MsrWritesStatus :
    msrForm (.msrImm .al false 9#4 0#4 0xD0#8) witTop = some (.al, false, 9#4, 0xD0) ∧ witTop.passes .al ∧
      witTop.cpsr.mode ≠ .usr ∧ witTop.canAdvance 4 ∧ ((0xD0#32)[5] = witTop.cpsr.t ∧ Mode.usr.bits = (0xD0#32).extractLsb' 0 5) ∧
      (0x33#32)[5] ≠ witTop.cpsr.t ∧ Mode.ofBits ((0x00#32).extractLsb' 0 5) = none ∧ (9#4)[0] = true ∧ (8#4)[0] = false ∧
      msrForm (.msrReg .al true 9#4 0#4) witTop = some (.al, true, 9#4, 0x8101) ∧ witTop.cpsr.mode.spsr? = some .svc ∧
      (at_ .usr 0 regs0).cpsr.mode = .usr ∧ ¬ witEnd.canAdvance 4 ∧
      msrForm (.msrImm .al false 9#4 0#4 0xD0#8) witEnd = some (.al, false, 9#4, 0xD0) := by decide

/-- Word accesses at the last word of the address space, with and without write-back. -/
theorem test_witness_TransferAddress :
    loadForm (.ldr .al true true false 6#4 0#4 0#12) = some ⟨.al, .word, true, true, false, 6#4, 0#4, 0⟩ ∧ wit.passes .al ∧
      transferAddress true true false (wit.reg 6#4) 0 = some (0xFFFFFFFC, none) ∧
      transferAddress false true false (wit.reg 3#4) 4 = some (0x1000, some 0x1004) ∧
      transferAddress true true false (wit.reg 2#4) 0 = some (0x8102, none) ∧ (0x8102#32).toNat % Size.word.bytes ≠ 0 := by decide

/-- A word load at the top of the address space and a post-indexed one, the read answered ok and aborted. -/
theorem test_witness_LoadReadsMemory :
    let x : Transfer := ⟨.al, .word, false, true, false, 3#4, 0#4, 4⟩
    loadForm (.ldr .al false true false 3#4 0#4 4#12) = some x ∧ witTop.passes x.cond ∧ x.legal witTop 0x1000 (some 0x1004) ∧
      witTop.abortNow = false ∧ witTop.canAdvance 4 ∧ valueAt? witTop.cfg.bigEndian .word witTop.mem 0x1000 = some 0x04030201 ∧
      x.legal witAbort 0x1000 (some 0x1004) ∧ witAbort.abortNow = true ∧ x.legal witEnd 0x1000 (some 0x1004) ∧
      witEnd.abortNow = false ∧ ¬ witEnd.canAdvance 4 := by decide

/-- A load at the last byte of the address space; a block of two words of which the second holds no value, and a block whose
one word goes to the pc, aligned and not; a swap of a word without a value. -/
theorem test_witness_LoadOfValuelessByteIsFree :
    let x : Transfer := ⟨.al, .byte, true, true, false, 6#4, 0#4, (3#12).setWidth 32⟩
    (loadForm (.ldrb .al true true false 6#4 0#4 3#12) = some x ∧ witTop.passes .al ∧ x.legal witTop 0xFFFFFFFF none ∧
      witTop.abortNow = false ∧ witTop.canAdvance 4 ∧ witTop.mem.get? 0xFFFFFFFF = none) ∧
    (witTop.blockLegal false 4#4 3#16 ∧ witTop.quiet (regsOf 3#16).length ∧ (3#16).getLsbD 15 = false ∧
      blockDraws witTop.mem (blockAddr false true (witTop.reg 4#4) 3#16) 2 = 4) ∧
    (wit.blockLegal true 3#4 0x8000#16 ∧ (0x8000#16).getLsbD 15 = true ∧
      found false .word wit.mem (blockAddr false true (wit.reg 3#4) 0x8000#16 0) 0 = 0x04030201 ∧
      found false .word (putWord wit 0x1000 0x8000).mem (blockAddr false true (wit.reg 3#4) 0x8000#16 0) 0 = 0x8000) ∧
    (swapForm (.swp .al 6#4 0#4 1#4) = some (.al, .word, 6#4, 0#4, 1#4) ∧ witTop.swapLegal .word 6#4 0#4 1#4 ∧
      witTop.quiet 2 ∧ valueless witTop.mem (witTop.reg 6#4).toNat 4 = 4) :=
  ⟨by decide, by decide, by decide, by decide⟩

/-- After a reset of a running machine no register and no flag holds a value; two reads of one register are two draws. -/
theorem test_witness_LoadOfValuelessByteIsFree_registers :
    let s := takeReset wit
    s.regIn s.cpsr.mode 1#4 = .unspecified ∧ wit.regIn wit.cpsr.mode 1#4 = .value 0x8100 ∧
      s.cpsr.flags = HeldFlags.unspecified ∧ wit.cpsr.flags = Flags.held ⟨false, false, false, false⟩ ∧
      s.spsrs.svc = HeldPsr.unspecified ∧ (∃ t, step wit = .next t) ∧
      ∃ t, exec (.subReg .al false 1#4 0#4 1#4) s = .next t ∧
        t.regs.r0 = .value (Config.freeRegister s.draws 1#4 false - Config.freeRegister s.draws 1#4 true) :=
  ⟨rfl, rfl, rfl, rfl, rfl, ⟨_, rfl⟩, _, rfl, rfl⟩

theorem test_witness_StoreWritesMemory :
    let x : Transfer := ⟨.al, .word, true, false, true, 4#4, 0#4, 4⟩
    storeForm (.str .al true false true 4#4 0#4 4#12) = some x ∧ witTop.passes x.cond ∧ x.legal witTop 0x1000 (some 0x1000) ∧
      witTop.abortNow = false ∧ witTop.canAdvance 4 ∧ x.legal witAbort 0x1000 (some 0x1000) ∧ witAbort.abortNow = true ∧
      x.legal witEnd 0x1000 (some 0x1000) ∧ witEnd.abortNow = false ∧ ¬ witEnd.canAdvance 4 := by decide

theorem test_witness_AbortedTransfer :
    let x : Transfer := ⟨.al, .word, true, false, true, 4#4, 0#4, 4⟩
    storeForm (.str .al true false true 4#4 0#4 4#12) = some x ∧ loadForm (.ldr .al true false true 4#4 0#4 4#12) = some x ∧
      witAbort.passes x.cond ∧ x.legal witAbort 0x1000 (some 0x1000) ∧ witAbort.abortNow = true ∧
      bank witAbort.cpsr.mode 4#4 ≠ .r14abt ∧ bank witAbort.cpsr.mode 0#4 ≠ .r14abt := by decide

theorem test_witness_ByteOrder :
    (0xFFFFFFFC#32).toNat % Size.word.bytes = 0 ∧ wit.abortNow = false ∧ (0x1004#32).toNat % Size.word.bytes = 0 ∧
      valueAt? wit.cfg.bigEndian .word wit.mem 0x1004 = some 0x08070605 := by decide

theorem test_witness_MixedWidthAccess :
    (0xFFFFFFFC#32).toNat % 4 = 0 ∧ (0xFFFFFFFE#32).toNat % 2 = 0 ∧ wit.quiet 5 := by decide

theorem test_witness_BlockAddresses :
    (1#16 ≠ 0#16 ∧ (regsOf 1#16).length = 1 ∧ (regsOf 0xFFFF#16).length = 16) ∧ wit.passes .al ∧ (3#4 ≠ 15#4) ∧
      (wit.reg 2#4).toNat % 4 ≠ 0 ∧ (wit.reg 3#4).toNat % 4 = 0 ∧ (8#16).getLsbD (3#4).toNat = true := by decide

/-- One register at the end of the address space; two with the pc and write-back, the pc's word aligned and not. -/
theorem test_witness_LdmLoadsBlock :
    (witTop.passes .al ∧ witTop.blockLegal true 3#4 1#16 ∧ witTop.quiet (regsOf 1#16).length ∧
      wordAt? false witTop.mem (blockAddr false true 0x1000 1#16 0) = some 0x04030201 ∧
      (1#16).getLsbD 15 = false ∧ witTop.canAdvance 4) ∧
    (wit.blockLegal true 3#4 0x8000#16 ∧ (0x8000#16).getLsbD 15 = true ∧
      wordAt? false wit.mem (blockAddr false true (wit.reg 3#4) 0x8000#16 0) = some 0x04030201 ∧ (0x04030201#32).toNat % 4 ≠ 0) ∧
    (wordAt? false (putWord wit 0x1000 0x8000).mem (blockAddr false true (wit.reg 3#4) 0x8000#16 0) = some 0x8000 ∧
      (0x8000#32).toNat % 4 = 0) ∧
    (witEnd.blockLegal true 3#4 1#16 ∧ witEnd.quiet (regsOf 1#16).length ∧ ¬ witEnd.canAdvance 4) ∧
    ¬ witAbort.quiet (regsOf 1#16).length := by decide

/-- Three registers up to the last word of the address space. -/
theorem test_witness_StmStoresBlock :
    let s := { witTop with regs := { witTop.regs with r7 := .value 0xFFFFFFF4 } }
    s.passes .al ∧ s.blockLegal false 7#4 7#16 ∧ (7#16).getLsbD 15 = false ∧ s.quiet (regsOf 7#16).length ∧ s.canAdvance 4 ∧
      blockAddr false true (s.reg 7#4) 7#16 2 = 0xFFFFFFFC ∧ ¬ ({ s with aborts := [false, false, true] } : State).quiet 3 ∧
      s.blockLegal false 7#4 0x8000#16 ∧ (0x8000#16).getLsbD 15 = true ∧
      (witEnd.blockLegal false 3#4 7#16 ∧ witEnd.quiet (regsOf 7#16).length ∧ ¬ witEnd.canAdvance 4) := by decide

/-- The second of two accesses aborts, after one register has been loaded. -/
theorem test_witness_LdmAbort :
    let s := { wit with aborts := [false, true] }
    s.passes .al ∧ s.blockLegal true 3#4 3#16 ∧ [(0x04030201 : Word)].length < (regsOf 3#16).length ∧ s.quiet 1 ∧
      s.aborts.getD 1 false = true ∧ wordAt? false s.mem (blockAddr false true (s.reg 3#4) 3#16 0) = some 0x04030201 ∧
      (regsOf 3#16)[0]? = some 0#4 ∧ 0#4 ≠ 3#4 ∧ bank s.cpsr.mode 0#4 ≠ .r14abt ∧ bank s.cpsr.mode 3#4 ≠ .r14abt := by decide

theorem test_witness_StmAbort :
    let s := { wit with aborts := [false, true] }
    s.passes .al ∧ s.blockLegal true 3#4 3#16 ∧ (3#16).getLsbD 15 = false ∧ ¬ s.quiet (regsOf 3#16).length ∧
      ((regsOf 3#16)[0]? = some 0#4 ∧ s.aborts.getD 0 false = false) ∧ s.aborts.getD 1 false = true := by decide

theorem test_witness_SwapExchanges :
    swapForm (.swp .al 3#4 0#4 1#4) = some (.al, .word, 3#4, 0#4, 1#4) ∧ witTop.passes .al ∧
      witTop.swapLegal .word 3#4 0#4 1#4 ∧ witTop.quiet 2 ∧ witTop.canAdvance 4 ∧
      valueAt? witTop.cfg.bigEndian .word witTop.mem (witTop.reg 3#4).toNat = some 0x04030201 ∧
      (wit.reg 2#4).toNat % Size.word.bytes ≠ 0 ∧ witAbort.swapLegal .word 3#4 0#4 1#4 ∧ ¬ witAbort.quiet 2 ∧
      witEnd.swapLegal .word 3#4 0#4 1#4 ∧ witEnd.quiet 2 ∧ ¬ witEnd.canAdvance 4 := by decide

theorem test_witness_SwapAbort :
    let s := { wit with aborts := [false, true] }
    swapForm (.swp .al 3#4 0#4 1#4) = some (.al, .word, 3#4, 0#4, 1#4) ∧ s.passes .al ∧ s.swapLegal .word 3#4 0#4 1#4 ∧
      ¬ s.quiet 2 := by decide

theorem test_witness_SwiEntersSupervisor : wit.passes .al := by decide

theorem test_witness_UndefinedTrap :
    wit.passes .al ∧ wit.cpsr.mode ≠ .und ∧
      (decodeArm 0xE7F000F0).toOption = some (.und .al 0xF8007#20 0#4) ∧
      ∃ t, exec (.und .al 0xF8007#20 0#4) wit = .next t ∧ t.spsrs.und ≠ wit.spsrs.und :=
  ⟨by decide, by decide, by decide, _, rfl, by decide⟩

theorem test_witness_ThumbHighRegisters :
    ((7#4).toNat < 8 ∧ (0#4).toNat < 8) ∧ (thumbPair 8#4 7#4 ∧ 8#4 ≠ 15#4 ∧ (wit.setPc 0xFFFFFFFC).canAdvance 2) ∧
      thumbPair 15#4 7#4 ∧ ¬ (wit.setPc 0xFFFFFFFE).canAdvance 2 := by decide

theorem test_witness_ConditionCodes :
    armCond (.swi .eq 0#24) = some .eq ∧ armCond (.swi .nv 0#24) = some .nv ∧ condHolds .eq witTop.flags = false ∧
      witTop.canAdvance 4 ∧ ¬ witEnd.canAdvance 4 := by decide

theorem test_witness_R15OperandRefused :
    readsR15 (.str .al true true false 3#4 15#4 0#12) = true ∧
      ∀ c, armCond (.str .al true true false 3#4 15#4 0#12) = some c → wit.passes c := by
  refine ⟨by decide, ?_⟩
  rintro c h
  cases h
  decide

theorem test_witness_MisalignedAccessRefused :
    loadForm (.ldr .al true true false 2#4 0#4 0#12) = some ⟨.al, .word, true, true, false, 2#4, 0#4, 0⟩ ∧ wit.passes .al ∧
      transferAddress true true false (wit.reg 2#4) 0 = some (0x8102, none) ∧ (0x8102#32).toNat % Size.word.bytes ≠ 0 ∧
      (wit.reg 2#4).toNat % 4 ≠ 0 := by decide

theorem test_witness_RegisterInstructionFrame :
    registerForm (.addReg .al false 0#4 1#4 2#4) = some (some 1#4) ∧ keepsCpsr (.addReg .al false 0#4 1#4 2#4) = true ∧
      ∃ t, exec (.addReg .al false 0#4 1#4 2#4) wit = .next t := ⟨by decide, by decide, _, rfl⟩

theorem test_witness_MemoryFrame :
    mayStore (.addReg .al false 0#4 1#4 2#4) = false ∧
      (storeForm (.str .al true false true 4#4 0#4 4#12) = some ⟨.al, .word, true, false, true, 4#4, 0#4, 4⟩ ∧
        transferAddress true false true (wit.reg 4#4) 4 = some (0x1000, some 0x1000)) ∧
      (∃ t, exec (.str .al true false true 4#4 0#4 4#12) wit = .next t) ∧
      (∃ t, exec (.stm .al false true false true 3#4 3#16) wit = .next t) ∧
      ∃ t, exec (.swp .al 3#4 0#4 1#4) wit = .next t :=
  ⟨by decide, by decide, ⟨_, rfl⟩, ⟨_, rfl⟩, ⟨_, rfl⟩⟩

theorem test_witness_RegisterBanks :
    Mode.fiq = .fiq ∧ Mode.svc ≠ .fiq ∧ 1#4 ≠ 0#4 ∧ bank .fiq 8#4 ≠ bank wit.cpsr.mode 8#4 := by decide

theorem test_witness_ExceptionEntry :
    Exn.swi ≠ .reset ∧ Exn.swi ≠ .fiq ∧ PhysReg.r13svc ≠ bank Exn.swi.mode 14#4 ∧ SpsrName.fiq ≠ Exn.swi.spsr := by decide

theorem test_witness_ReturnRestores :
    Exn.dataAbort ≠ .reset ∧ pcFits wit.cpsr.t (0x8008#32 - returnOffset .dataAbort) = true ∧
      ((wit.setReg 14#4 0x8100).reg 14#4).toNat % 4 = 0 := by decide

/-- FIQ enabled and low; FIQ masked or high with IRQ enabled and low. -/
theorem test_witness_InterruptsAtBoundary :
    let s := { wit with cpsr := ⟨wit.cpsr.flags, false, false, false, .svc⟩, lines := [⟨true, false, false⟩] }
    let u := { s with cpsr := ⟨wit.cpsr.flags, false, true, false, .svc⟩ }
    (s.linesNow.nRESET = true ∧ s.wedged = false ∧ s.linesNow.nFIQ = false ∧ s.cpsr.f = false) ∧
      (u.cpsr.f = true ∧ u.linesNow.nIRQ = false ∧ u.cpsr.i = false) := by decide

theorem test_witness_PrefetchAbortTaken :
    witAbort.undisturbed ∧ witAbort.pcAligned ∧ witAbort.unmodified witAbort.pc.toNat 4 ∧ witAbort.abortNow = true := by decide

theorem test_witness_FiqDuringDataAbort :
    let s := { wit with cpsr := ⟨wit.cpsr.flags, false, false, false, .svc⟩, lines := [⟨true, false, true⟩] }
    let u := { s with lines := [⟨true, true, false⟩] }
    (s.cpsr.f = false ∧ s.wedged = false ∧ s.linesNow.nRESET = true ∧ s.linesNow.nFIQ = false) ∧
      u.linesNow.nFIQ = true ∧ u.linesNow.nIRQ = false := by decide

theorem test_witness_StateSwitches : ∃ t, exec (.bx .al 0#4) wit = .next t ∧ t.cpsr.t ≠ wit.cpsr.t := ⟨_, rfl, by decide⟩

/-- User mode at a word of memory that holds an instruction. -/
theorem test_witness_UserModeIsConfined :
    let s := { wit with cpsr := ⟨wit.cpsr.flags, false, false, false, .usr⟩ }
    s.cpsr.mode = .usr ∧ s.wedged = false ∧ s.linesNow.nRESET = true ∧ ∃ t, step s = .next t := ⟨rfl, rfl, rfl, _, rfl⟩

theorem test_witness_OnlyIllegalModesWedge :
    ∃ t, exec (.msrImm .al false 1#4 0#4 0#8) wit = .next t ∧ wit.wedged = false ∧ t.wedged = true := ⟨_, rfl, rfl, rfl⟩

theorem test_witness_WedgedUntilReset :
    wit.wedge.wedged = true ∧ (∀ l ∈ wit.wedge.lines, l.nRESET = true) ∧
      ∃ l ∈ ({ wit.wedge with lines := [Lines.idle, ⟨false, true, true⟩] } : State).lines, l.nRESET = false := by decide

theorem test_witness_ResetSequence : ({ wit with lines := [⟨false, true, true⟩] } : State).linesNow.nRESET = false := by decide

theorem test_witness_ResetForgets :
    let s := { wit with lines := [⟨false, true, true⟩] }
    let t := { State.reset with lines := [⟨false, true, true⟩] }
    s.linesNow.nRESET = false ∧ s.lines = t.lines ∧ s.cfg = t.cfg ∧ s.aborts = t.aborts ∧ s.modified = t.modified ∧
      s.draws = t.draws ∧ s ≠ t := by decide

theorem test_witness_StepRunsDecoded :
    let bytes : List Byte := [0x10, 0xFF, 0x2F, 0xE1]
    wit.undisturbed ∧ wit.pcAligned ∧ wit.unmodified wit.pc.toNat 4 ∧ wit.abortNow = false ∧ bytes.length = instrLength wit.cpsr.t ∧
      (∀ k (h : k < bytes.length), wit.mem.get? (wit.pc.toNat + k) = some bytes[k]) ∧
      (decode wit.cfg.bigEndian wit.cpsr.t bytes).toOption = some (.bx .al 0#4) := by decide

theorem test_witness_OutsideSubsetRefused :
    let bytes : List Byte := [0x90, 0x00, 0x00, 0xE0]
    let s := { wit with mem := placeBytes bytes 0x8000 [] }
    s.undisturbed ∧ s.pcAligned ∧ s.unmodified s.pc.toNat 4 ∧ s.abortNow = false ∧ bytes.length = instrLength s.cpsr.t ∧
      (∀ k (h : k < bytes.length), s.mem.get? (s.pc.toNat + k) = some bytes[k]) ∧
      decode s.cfg.bigEndian s.cpsr.t bytes = .error .notInSubset ∧
      (0xE0000090#32).extractLsb' 0 28 = (0xF0000090#32).extractLsb' 0 28 := by
  refine ⟨by decide, by decide, by decide, by decide, by decide, by decide, rfl, by decide⟩

/-- The last of the four bytes has been stored to; an STM and a swap whose stores put back what memory held. -/
theorem test_witness_ModifiedFetchRefused :
    let s := { wit with modified := [0x8003] }
    let u := { putWord wit 0x1000 0x8101 with regs := { wit.regs with r1 := .value 0x8101 } }
    (s.undisturbed ∧ s.pcAligned ∧ ¬ s.unmodified s.pc.toNat (instrLength s.cpsr.t)) ∧
      (∃ t, exec (.str .al true true false 4#4 0#4 0#12) s = .next t ∧ s.mem.get? 0x1004 ≠ t.mem.get? 0x1004 ∧
        0x8003 ∈ s.modified ∧
        storeForm (.str .al true true false 4#4 0#4 0#12) = some ⟨.al, .word, true, true, false, 4#4, 0#4, 0⟩ ∧
        (⟨.al, .word, true, true, false, 4#4, 0#4, 0⟩ : Transfer).legal s 0x1004 none) ∧
      (∃ t, exec (.stm .al false true false false 3#4 1#16) u = .next t ∧ t.mem = u.mem) ∧
      u.quiet 2 ∧ ∃ t, exec (.swp .al 3#4 0#4 1#4) u = .next t ∧ t.mem = u.mem :=
  ⟨by decide, ⟨_, rfl, by decide, by decide, by decide, by decide⟩, ⟨_, rfl, by decide⟩, by decide, _, rfl, by decide⟩

theorem test_witness_RunEnds :
    let s := { wit with cfg := ⟨false, some 0x8000⟩ }
    s.cfg.endPc = some s.pc ∧ runToEnd 1 s = .ended s ∧ wit.cfg.endPc ≠ some wit.pc ∧ (∃ t, step wit = .next t) ∧
      step wit.wedge = .fault .wedged ∧ ∃ r, step { wit with modified := [0x8003] } = .refused r :=
  ⟨by decide, by decide, by decide, ⟨_, rfl⟩, rfl, _, rfl⟩

theorem test_witness_StepKeepsInv : wit.Inv ∧ ∃ t, step wit = .next t := ⟨by decide, _, rfl⟩

theorem test_witness_DecodeEncode : (Instr.tB .le 0x80#8).wellFormed = true := by decide

theorem test_witness_EncodeDecode :
    (decodeArm 0xE12FFF10).toOption = some (.bx .al 0#4) ∧ (decodeThumb 0xDD80).toOption = some (.tB .le 0x80#8) := by decide

end Sys2Proof.Tests
end

section
/-!
The registers (10_state.md): the banking function as a table, and what a register write leaves of the other modes' copies.
-/

namespace Sys2Proof.Proofs.Registers
open Sys2Proof Sys2Proof.Machine

/-! ## The banking function -/

/-- R0 to R7 and R15 have one copy, which every mode names. -/
theorem bank_shared (m : Mode) :
    bank m 0#4 = .r0 ∧ bank m 1#4 = .r1 ∧ bank m 2#4 = .r2 ∧ bank m 3#4 = .r3 ∧ bank m 4#4 = .r4 ∧ bank m 5#4 = .r5 ∧
    bank m 6#4 = .r6 ∧ bank m 7#4 = .r7 ∧ bank m 15#4 = .r15 :=
  ⟨rfl, rfl, rfl, rfl, rfl, rfl, rfl, rfl, rfl⟩

/-- FIQ mode has its own R8 to R12. -/
theorem bank_high_fiq :
    bank .fiq 8#4 = .r8fiq ∧ bank .fiq 9#4 = .r9fiq ∧ bank .fiq 10#4 = .r10fiq ∧ bank .fiq 11#4 = .r11fiq ∧
    bank .fiq 12#4 = .r12fiq :=
  ⟨rfl, rfl, rfl, rfl, rfl⟩

/-- The modes other than FIQ share the common R8 to R12. -/
theorem bank_high_common {m : Mode} (hm : m ≠ .fiq) :
    bank m 8#4 = .r8usr ∧ bank m 9#4 = .r9usr ∧ bank m 10#4 = .r10usr ∧ bank m 11#4 = .r11usr ∧
    bank m 12#4 = .r12usr :=
  ⟨if_neg hm, if_neg hm, if_neg hm, if_neg hm, if_neg hm⟩

/-- Each privileged mode but System has its own stack pointer R13. -/
theorem bank_r13 :
    bank .usr 13#4 = .r13usr ∧ bank .sys 13#4 = .r13usr ∧ bank .fiq 13#4 = .r13fiq ∧ bank .irq 13#4 = .r13irq ∧
    bank .svc 13#4 = .r13svc ∧ bank .abt 13#4 = .r13abt ∧ bank .und 13#4 = .r13und :=
  ⟨rfl, rfl, rfl, rfl, rfl, rfl, rfl⟩

/-- Each privileged mode but System has its own link register R14. -/
theorem bank_r14 :
    bank .usr 14#4 = .r14usr ∧ bank .sys 14#4 = .r14usr ∧ bank .fiq 14#4 = .r14fiq ∧ bank .irq 14#4 = .r14irq ∧
    bank .svc 14#4 = .r14svc ∧ bank .abt 14#4 = .r14abt ∧ bank .und 14#4 = .r14und :=
  ⟨rfl, rfl, rfl, rfl, rfl, rfl, rfl⟩

/-! ## Writing a register number -/

/-- A copy other than the one that the current mode names keeps what it holds, in whichever mode it is seen. -/
theorem regIn_setReg_of_bank_ne (s : State) {i j : RegNum} {m : Mode} (v : Word)
    (h : bank m j ≠ bank s.cpsr.mode i) : (s.setReg i v).regIn m j = s.regIn m j :=
  RegFile.get_set_ne s.regs h v

/-- Settles O38: the table of the banking function, mode by mode, and read after write, where the numbers of one mode
name different copies (`bank_injective`). -/
theorem registerBanks : Obligations.RegisterBanks := by
  refine ⟨fun m => ?table, bank_r13, bank_r14, fun s i j v m => ⟨?held, ?read, fun hne => ?number, ?copy⟩⟩
  case table =>
    obtain ⟨h0, h1, h2, h3, h4, h5, h6, h7, h15⟩ := bank_shared m
    exact ⟨h0, h1, h2, h3, h4, h5, h6, h7, h15, fun hm => hm ▸ bank_high_fiq, bank_high_common⟩
  case held => rw [State.regIn_setReg, if_pos rfl]
  case read => rw [State.reg_setReg, if_pos rfl]
  case number => rw [State.reg_setReg, if_neg hne]
  case copy => exact regIn_setReg_of_bank_ne s v

end Sys2Proof.Proofs.Registers
end

section
/-!
Memory (20_memory.md R63, R65): a byte list held from an address upwards, what an access does in terms of it, and how the
bytes of stores of different widths fit together.
-/

namespace Sys2Proof.Proofs.MemoryAccess
open Sys2Proof Sys2Proof.Machine

/-! ## Byte lists in memory -/

/-- Memory holds the bytes of a list from an address upwards. -/
def HoldsBytes (m : Memory) (a : Nat) (bs : List Byte) : Prop :=
  ∀ k (hk : k < bs.length), m.get? (a + k) = some bs[k]

@[simp] theorem holdsBytes_nil (m : Memory) (a : Nat) : HoldsBytes m a [] :=
  fun _ hk => absurd hk (Nat.not_lt_zero _)

@[simp] theorem holdsBytes_cons {m : Memory} {a : Nat} {b : Byte} {bs : List Byte} :
    HoldsBytes m a (b :: bs) ↔ m.get? a = some b ∧ HoldsBytes m (a + 1) bs := by
  constructor
  · intro h
    refine ⟨h 0 (by simp), fun k hk => ?_⟩
    have hk' := h (k + 1) (by simpa using hk)
    rwa [List.getElem_cons_succ, ← Nat.add_assoc, Nat.add_right_comm] at hk'
  · rintro ⟨hb, hbs⟩ k hk
    cases k with
    | zero => exact hb
    | succ k =>
      rw [List.getElem_cons_succ, ← Nat.add_assoc, Nat.add_right_comm]
      exact hbs k (by simpa using hk)

theorem holdsBytes_append {m : Memory} {a : Nat} {bs cs : List Byte} :
    HoldsBytes m a (bs ++ cs) ↔ HoldsBytes m a bs ∧ HoldsBytes m (a + bs.length) cs := by
  induction bs generalizing a with
  | nil => simp
  | cons b bs ih => simp [ih, and_assoc, Nat.add_assoc, Nat.add_comm 1]

theorem HoldsBytes.drop {m : Memory} {a : Nat} {bs : List Byte} (h : HoldsBytes m a bs) (k : Nat) :
    HoldsBytes m (a + k) (bs.drop k) := fun j hj => by
  rw [List.getElem_drop, Nat.add_assoc]
  exact h (k + j) _

theorem HoldsBytes.take {m : Memory} {a : Nat} {bs : List Byte} (h : HoldsBytes m a bs) (n : Nat) :
    HoldsBytes m a (bs.take n) := fun j hj => by
  rw [List.getElem_take]
  exact h j _

theorem HoldsBytes.of_sameOutside {s t : State} {a x n : Nat} {bs : List Byte} (h : HoldsBytes s.mem a bs)
    (ht : SameOutside s t x n) (hx : a + bs.length ≤ x) : HoldsBytes t.mem a bs := fun k hk => by
  rw [ht (a + k) (.inl (by omega))]
  exact h k hk

/-- The bytes that memory holds determine the value there, which is their assembly. -/
theorem valueAt?_eq_some_iff {be : Bool} {size : Size} {m : Memory} {a : Nat} {v : Word} :
    valueAt? be size m a = some v ↔ ∃ bs, bs.length = size.bytes ∧ HoldsBytes m a bs ∧ assemble be bs = v := by
  constructor
  · intro h
    cases size with
    | byte =>
      obtain ⟨b, hb, rfl⟩ := Option.map_eq_some_iff.1 h
      exact ⟨[b], rfl, by simp [hb], rfl⟩
    | half =>
      obtain ⟨w, hw, rfl⟩ := Option.map_eq_some_iff.1 h
      unfold halfAt? at hw
      split at hw
      · rename_i b0 b1 h0 h1
        cases hw
        exact ⟨[b0, b1], rfl, by simp [h0, h1], rfl⟩
      · cases hw
    | word =>
      simp only [valueAt?, wordAt?] at h
      split at h
      · rename_i b0 b1 b2 b3 h0 h1 h2 h3
        cases h
        exact ⟨[b0, b1, b2, b3], rfl, by simp [h0, h1, h2, h3], rfl⟩
      · cases h
  · rintro ⟨bs, hlen, hbs, rfl⟩
    cases size with
    | byte =>
      obtain ⟨b, rfl⟩ := List.length_eq_one_iff.1 hlen
      simp_all [valueAt?, assemble]
    | half =>
      obtain ⟨b0, b1, rfl⟩ := List.length_eq_two.1 hlen
      simp_all [valueAt?, halfAt?, assemble]
    | word =>
      obtain ⟨b0, b1, b2, b3, rfl⟩ : ∃ b0 b1 b2 b3, bs = [b0, b1, b2, b3] := by
        match bs, hlen with
        | [b0, b1, b2, b3], _ => exact ⟨b0, b1, b2, b3, rfl⟩
      simp_all [valueAt?, wordAt?, assemble, Nat.add_assoc]

/-! ## The bytes of a store -/

/-- In either byte order the byte of a store at offset j is the part of the value that R63 puts there. -/
theorem storeBytes_getElem (be : Bool) (size : Size) (v : Word) {j : Nat} (hj : j < (storeBytes be size v).length) :
    (storeBytes be size v)[j] = v.extractLsb' (8 * (if be then size.bytes - 1 - j else j)) 8 := by
  have hj' : j < size.bytes := storeBytes_length be size v ▸ hj
  cases size with
  | byte =>
    obtain rfl : j = 0 := Nat.lt_one_iff.1 hj'
    cases be <;> rfl
  | half =>
    simp only [Size.bytes] at hj'
    interval_cases j <;> cases be <;>
      simp [storeBytes, halfBytes, Size.bytes, BitVec.extractLsb'_extractLsb'_of_le]
  | word =>
    simp only [Size.bytes] at hj'
    interval_cases j <;> cases be <;> rfl

/-- The bytes of a narrow store inside a wider one: those of the value shifted down to the part that stands there. -/
theorem storeBytes_part (be : Bool) (wide narrow : Size) (v : Word) {k : Nat} (hk : k + narrow.bytes ≤ wide.bytes) :
    ((storeBytes be wide v).drop k).take narrow.bytes =
      storeBytes be narrow (v >>> (if be then 8 * wide.bytes - 8 * narrow.bytes - 8 * k else 8 * k)) := by
  apply List.ext_getElem
  · simp only [List.length_take, List.length_drop, storeBytes_length]
    omega
  · intro j _ hj
    have hj' : j < narrow.bytes := storeBytes_length be narrow _ ▸ hj
    rw [List.getElem_take, List.getElem_drop, storeBytes_getElem, storeBytes_getElem]
    ext i hi
    simp only [BitVec.getElem_extractLsb', BitVec.getLsbD_ushiftRight]
    congr 1
    cases be
    · simp only [Bool.false_eq_true, if_false]
      omega
    · simp only [if_true]
      omega

/-- Two neighbouring bytes of a value are a halfword of it. -/
theorem append_bytes_eq_half (v : Word) (k : Nat) :
    v.extractLsb' (8 + k) 8 ++ v.extractLsb' k 8 = v.extractLsb' k 16 :=
  BitVec.extractLsb'_append_extractLsb'_eq_extractLsb' (Nat.add_comm 8 k)

/-- The four bytes of a value, the most significant first, are the value. -/
theorem append_bytes_eq_word (v : Word) :
    v.extractLsb' 24 8 ++ v.extractLsb' 16 8 ++ v.extractLsb' 8 8 ++ v.extractLsb' 0 8 = v := by
  have h1 : v.extractLsb' 24 8 ++ v.extractLsb' 16 8 = v.extractLsb' 16 16 := append_bytes_eq_half v 16
  have h2 : v.extractLsb' 16 16 ++ v.extractLsb' 8 8 = v.extractLsb' 8 24 :=
    BitVec.extractLsb'_append_extractLsb'_eq_extractLsb' rfl
  have h3 : v.extractLsb' 8 24 ++ v.extractLsb' 0 8 = v := BitVec.extractLsb'_append_extractLsb'
  rw [h1, h2, h3]

/-- The bytes of a store assemble to the part of the value that the store moves (20_memory.md R63). -/
theorem assemble_storeBytes (be : Bool) (size : Size) (v : Word) :
    assemble be (storeBytes be size v) = narrowed size v := by
  cases size with
  | byte => simp [storeBytes, assemble, narrowed, BitVec.setWidth_eq_extractLsb']
  | half =>
    have hv := append_bytes_eq_half v 0
    cases be <;> simp_all [storeBytes, halfBytes, assemble, narrowed, BitVec.setWidth_eq_extractLsb']
  | word =>
    have hv := append_bytes_eq_word v
    cases be <;> simp_all [storeBytes, wordBytes, assemble, narrowed]

/-- The bytes of two joined halfwords are those of the lower one and then those of the upper one. -/
theorem extract_bytes_append (h k : Half) :
    (h ++ k : Word).extractLsb' 0 8 = k.extractLsb' 0 8 ∧ (h ++ k : Word).extractLsb' 8 8 = k.extractLsb' 8 8 ∧
      (h ++ k : Word).extractLsb' 16 8 = h.extractLsb' 0 8 ∧ (h ++ k : Word).extractLsb' 24 8 = h.extractLsb' 8 8 :=
  ⟨BitVec.extractLsb'_append_eq_of_add_le (by decide), BitVec.extractLsb'_append_eq_of_add_le (by decide),
    BitVec.extractLsb'_append_eq_of_le (by decide), BitVec.extractLsb'_append_eq_of_le (by decide)⟩

/-- A word joined from two halfwords in the byte order has the bytes of the halfwords, the first one's first. -/
theorem wordBytes_of_halves (be : Bool) (h k : Half) :
    wordBytes be (if be then h ++ k else k ++ h) = halfBytes be h ++ halfBytes be k := by
  cases be with
  | false =>
    obtain ⟨h0, h1, h2, h3⟩ := extract_bytes_append k h
    simp [wordBytes, halfBytes, h0, h1, h2, h3]
  | true =>
    obtain ⟨h0, h1, h2, h3⟩ := extract_bytes_append h k
    simp [wordBytes, halfBytes, h0, h1, h2, h3]

/-- Two halfword stores side by side place the bytes of one word store. -/
theorem storeBytes_half_append (be : Bool) (v w : Word) :
    storeBytes be .half v ++ storeBytes be .half w =
      storeBytes be .word (if be then v.setWidth 16 ++ w.setWidth 16 else w.setWidth 16 ++ v.setWidth 16) := by
  simp only [storeBytes, wordBytes_of_halves, BitVec.setWidth_eq_extractLsb' (show 16 ≤ 32 by decide)]

theorem storeBytes_byte (be : Bool) (v : Word) : storeBytes be .byte v = [v.setWidth 8] := by
  rw [BitVec.setWidth_eq_extractLsb' (by decide)]
  rfl

/-! ## Accesses -/

/-- An offset inside an aligned access stays inside the address space. -/
theorem toNat_add_offset {addr : Word} {k : Nat} (size : Size) (h : addr.toNat % size.bytes = 0) (hk : k < size.bytes) :
    (addr + BitVec.ofNat 32 k).toNat = addr.toNat + k := by
  have hend : addr.toNat + size.bytes ≤ 2 ^ 32 := aligned_end (decide_eq_true h)
  rw [BitVec.toNat_add, BitVec.toNat_ofNat, Nat.add_mod_mod, Nat.mod_eq_of_lt (by omega)]

/-- A run of accesses that are answered ok: the first, and the rest. -/
theorem quiet_succ {s : State} {n : Nat} (h : s.quiet (n + 1)) :
    s.abortNow = false ∧ ∀ t : State, t.aborts = s.aborts.tail → t.quiet n := by
  refine ⟨?_, fun t ht k hk => ?_⟩
  · have h0 := h 0 n.succ_pos
    unfold State.abortNow
    cases hs : s.aborts <;> simp_all
  · have hk' := h (k + 1) (by omega)
    rw [ht]
    cases hs : s.aborts <;> simp_all

/-- A read of bytes that hold values gives their assembly and changes nothing but the answers left. -/
theorem memRead_of_holdsBytes {size : Size} {addr : Word} {s : State} {bs : List Byte} (hs : s.abortNow = false)
    (hlen : bs.length = size.bytes) (hbs : HoldsBytes s.mem addr.toNat bs) :
    memRead size addr s = (some (assemble s.cfg.bigEndian bs), s.answered) := by
  have hr : readBytes size.bytes addr.toNat s.answered = (bs, s.answered) :=
    hlen ▸ readBytes_of_values bs addr.toNat s.answered hbs
  simp [memRead, hs, hr]

/-- A write that is answered ok: its bytes from the address upwards, every other byte and the parameters kept. -/
theorem memWrite_holdsBytes {s : State} (hs : s.abortNow = false) (size : Size) (addr v : Word) :
    ∃ t, memWrite size addr v s = (true, t) ∧ HoldsBytes t.mem addr.toNat (storeBytes s.cfg.bigEndian size v) ∧
      SameOutside s t addr.toNat size.bytes ∧ t.cfg = s.cfg ∧ t.aborts = s.aborts.tail := by
  obtain ⟨ht, -⟩ | ⟨-, hw⟩ := memWrite_cases size addr v s
  · simp [hs] at ht
  refine ⟨_, hw, fun k hk => ?bytes, fun x hx => ?outside, ?status⟩
  case bytes =>
    rw [writeBytes_get?, dif_pos (by omega)]
    simp
  case outside =>
    have hlen := storeBytes_length s.cfg.bigEndian size v
    rw [writeBytes_get?, dif_neg (by omega)]
    rfl
  case status =>
    obtain ⟨m, d, hst⟩ := writeBytes_state (storeBytes s.cfg.bigEndian size v) addr.toNat s.answered
    rw [hst]
    exact ⟨rfl, rfl⟩

/-- A write just above bytes that memory holds adds its own bytes to them. -/
theorem memWrite_append {s : State} {n a : Nat} {bs : List Byte} {addr : Word} (hq : s.quiet (n + 1))
    (hbs : HoldsBytes s.mem a bs) (ha : addr.toNat = a + bs.length) (size : Size) (v : Word) :
    ∃ t, memWrite size addr v s = (true, t) ∧ HoldsBytes t.mem a (bs ++ storeBytes s.cfg.bigEndian size v) ∧
      t.cfg = s.cfg ∧ t.quiet n := by
  obtain ⟨hs, hrest⟩ := quiet_succ hq
  obtain ⟨t, hw, hnew, hout, hcfg, hab⟩ := memWrite_holdsBytes hs size addr v
  exact ⟨t, hw, holdsBytes_append.2 ⟨hbs.of_sameOutside hout ha.ge, ha ▸ hnew⟩, hcfg, hrest t hab⟩

/-- A byte write just above bytes that memory holds adds the low byte of its value to them. -/
theorem memWrite_byte_append {s : State} {n a : Nat} {bs : List Byte} {addr : Word} (hq : s.quiet (n + 1))
    (hbs : HoldsBytes s.mem a bs) (ha : addr.toNat = a + bs.length) (v : Word) :
    ∃ t, memWrite .byte addr v s = (true, t) ∧ HoldsBytes t.mem a (bs ++ [v.setWidth 8]) ∧ t.cfg = s.cfg ∧ t.quiet n :=
  storeBytes_byte s.cfg.bigEndian v ▸ memWrite_append hq hbs ha .byte v

/-- A read of the bytes that a store of its own width would have placed gives the part that such a store moves. -/
theorem memRead_of_storeBytes {size : Size} {addr v : Word} {s : State} {n : Nat} (hq : s.quiet (n + 1))
    (h : HoldsBytes s.mem addr.toNat (storeBytes s.cfg.bigEndian size v)) :
    (memRead size addr s).1 = some (narrowed size v) := by
  rw [memRead_of_holdsBytes (quiet_succ hq).1 (storeBytes_length ..) h, assemble_storeBytes]

/-- A read inside the bytes of a wider store gives the part of the value that the byte order puts there. -/
theorem memRead_part {wide : Size} {addr v : Word} {s : State} {n k : Nat} (hq : s.quiet (n + 1)) (narrow : Size)
    (hal : addr.toNat % wide.bytes = 0) (hk : k + narrow.bytes ≤ wide.bytes)
    (h : HoldsBytes s.mem addr.toNat (storeBytes s.cfg.bigEndian wide v)) :
    (memRead narrow (addr + BitVec.ofNat 32 k) s).1 = some (narrowed narrow
      (v >>> (if s.cfg.bigEndian then 8 * wide.bytes - 8 * narrow.bytes - 8 * k else 8 * k))) := by
  have hpos : 0 < narrow.bytes := by cases narrow <;> decide
  have hpart := (h.drop k).take narrow.bytes
  rw [storeBytes_part _ _ _ _ hk, ← toNat_add_offset wide hal (by omega)] at hpart
  exact memRead_of_storeBytes hq hpart

/-! ## The obligations -/

/-- Settles O21: both directions go through the bytes that memory holds, a write's being those of `storeBytes`. -/
theorem byteOrder : Obligations.ByteOrder := by
  intro size addr s _ hs
  refine ⟨fun v hv => ?read, fun v => ?write⟩
  case read =>
    obtain ⟨bs, hlen, hbs, rfl⟩ := valueAt?_eq_some_iff.1 hv
    exact memRead_of_holdsBytes hs hlen hbs
  case write =>
    obtain ⟨t, hw, hbs, hout, -, -⟩ := memWrite_holdsBytes hs size addr v
    exact ⟨t, hw, valueAt?_eq_some_iff.2 ⟨_, storeBytes_length .., hbs, assemble_storeBytes ..⟩, hout⟩

/-- Settles O22: a narrow read finds a part of the wide store's bytes (`memRead_part`), and narrow stores side by side
leave their bytes in a row (`memWrite_append`), which a wide read assembles. -/
theorem mixedWidthAccess : Obligations.MixedWidthAccess := by
  refine ⟨fun addr v s hal hq => ?word, fun addr v s hal hq => ?half, fun addr v w s hal hq => ?twoHalves,
    fun addr v w s hal hq => ?twoBytes, fun addr v₀ v₁ v₂ v₃ s hal hq => ?fourBytes⟩
  case word =>
    obtain ⟨t, hw, hbs, hcfg, hqt⟩ := memWrite_append hq (holdsBytes_nil _ _) rfl .word v
    rw [List.nil_append, ← hcfg] at hbs
    refine ⟨t, hw, fun k hk => ?_, fun k hk => ?_⟩
    · rw [memRead_part hqt .byte hal (by simp only [Size.bytes]; omega) hbs, hcfg]
      rfl
    · rw [memRead_part hqt .half hal (by simp only [Size.bytes]; omega) hbs, hcfg]
      rfl
  case half =>
    obtain ⟨t, hw, hbs, hcfg, hqt⟩ := memWrite_append hq (holdsBytes_nil _ _) rfl .half v
    rw [List.nil_append, ← hcfg] at hbs
    refine ⟨t, hw, fun k hk => ?_⟩
    rw [memRead_part hqt .byte hal (by simp only [Size.bytes]; omega) hbs, hcfg]
    rfl
  case twoHalves =>
    obtain ⟨t, hwt, hbt, hct, hqt⟩ := memWrite_append hq (holdsBytes_nil _ _) rfl .half v
    have ha : (addr + 2#32).toNat = addr.toNat + 2 := toNat_add_offset .word hal (by decide)
    obtain ⟨u, hwu, hbu, hcu, hqu⟩ :=
      memWrite_append hqt hbt (by rw [ha, List.nil_append, storeBytes_length]; rfl) .half w
    rw [List.nil_append, hct, storeBytes_half_append, ← hct, ← hcu] at hbu
    refine ⟨t, u, hwt, hwu, ?_⟩
    rw [memRead_of_storeBytes hqu hbu, hcu, hct]
    rfl
  case twoBytes =>
    have h1 : (addr + 1#32).toNat = addr.toNat + 1 := toNat_add_offset .half hal (by decide)
    obtain ⟨t, hwt, hbt, hct, hqt⟩ := memWrite_byte_append hq (holdsBytes_nil _ _) rfl v
    obtain ⟨u, hwu, hbu, hcu, hqu⟩ := memWrite_byte_append hqt hbt h1 w
    refine ⟨t, u, hwt, hwu, ?_⟩
    rw [memRead_of_holdsBytes (quiet_succ hqu).1 rfl hbu, hcu, hct]
    rfl
  case fourBytes =>
    have h1 : (addr + 1#32).toNat = addr.toNat + 1 := toNat_add_offset .word hal (by decide)
    have h2 : (addr + 2#32).toNat = addr.toNat + 2 := toNat_add_offset .word hal (by decide)
    have h3 : (addr + 3#32).toNat = addr.toNat + 3 := toNat_add_offset .word hal (by decide)
    obtain ⟨t₀, hw₀, hb₀, hc₀, hq₀⟩ := memWrite_byte_append hq (holdsBytes_nil _ _) rfl v₀
    obtain ⟨t₁, hw₁, hb₁, hc₁, hq₁⟩ := memWrite_byte_append hq₀ hb₀ h1 v₁
    obtain ⟨t₂, hw₂, hb₂, hc₂, hq₂⟩ := memWrite_byte_append hq₁ hb₁ h2 v₂
    obtain ⟨t₃, hw₃, hb₃, hc₃, hq₃⟩ := memWrite_byte_append hq₂ hb₂ h3 v₃
    refine ⟨t₀, t₁, t₂, t₃, hw₀, hw₁, hw₂, hw₃, ?_⟩
    rw [memRead_of_holdsBytes (quiet_succ hq₃).1 rfl hb₃, hc₃, hc₂, hc₁, hc₀]
    rfl

end Sys2Proof.Proofs.MemoryAccess
end

section
/-!
The ARM decoder (30_encoding.md R96, R102): its rows differ in bits that both fix, so a word with the fixed bits of a row
decodes as that row.
-/

namespace Sys2Proof.Proofs.ArmDecoder
open Sys2Proof

/-! ## Rows -/

/-- Two rows fix a common bit to different values. -/
abbrev FixedBitsDiffer (r q : ArmRow) : Prop := r.value &&& q.mask ≠ q.value &&& r.mask

/-- No word matches two rows whose fixed bits differ. -/
theorem FixedBitsDiffer.not_match {r q : ArmRow} (h : FixedBitsDiffer r q) {w : Word} (hq : w &&& q.mask = q.value) :
    w &&& r.mask ≠ r.value := by
  intro hr
  apply h
  calc r.value &&& q.mask = w &&& r.mask &&& q.mask := by rw [hr]
    _ = w &&& q.mask &&& r.mask := by rw [BitVec.and_assoc, BitVec.and_comm r.mask, ← BitVec.and_assoc]
    _ = q.value &&& r.mask := by rw [hq]

theorem armTable_fixedBitsDiffer : armTable.Pairwise FixedBitsDiffer := by decide

/-- Among rows whose fixed bits differ the search finds the one that matches, wherever it stands. -/
theorem find?_eq_of_match {rows : List ArmRow} {r : ArmRow} {w : Word} (hrows : rows.Pairwise FixedBitsDiffer)
    (hr : r ∈ rows) (hw : w &&& r.mask = r.value) :
    rows.find? (fun q => w &&& q.mask == q.value) = some r := by
  induction rows with
  | nil => cases hr
  | cons q rows ih =>
    obtain ⟨hq, hrows⟩ := List.pairwise_cons.1 hrows
    cases hr with
    | head => exact List.find?_cons_of_pos (beq_iff_eq.2 hw)
    | tail _ hr =>
      rw [List.find?_cons_of_neg (by simpa using (hq r hr).not_match hw)]
      exact ih hrows hr

/-- A word with the fixed bits of a row decodes as that row. -/
theorem decodeArm_of_match {r : ArmRow} {w : Word} (hr : r ∈ armTable) (hw : w &&& r.mask = r.value) :
    decodeArm w = .ok (r.build w) := by
  unfold decodeArm
  rw [find?_eq_of_match armTable_fixedBitsDiffer hr hw]

/-! ## Fields -/

theorem condOfBits_bits (c : Cond) : Cond.ofBits c.bits = c := by cases c <;> rfl

/-- Bits [31:28] of a word that starts with a condition's code. -/
theorem extractLsb'_cond_append (c : Cond) {m n : Nat} (hmn : m + n = 28) (x : BitVec m) (y : BitVec n) :
    (c.bits ++ x ++ y).extractLsb' 28 4 = c.bits := by
  rw [BitVec.extractLsb'_append_eq_of_le (by omega), BitVec.extractLsb'_append_eq_of_le (by omega),
    show 28 - n - m = 0 by omega, BitVec.extractLsb'_eq_self]

theorem condField_eq {w : Word} {c : Cond} (h : w.extractLsb' 28 4 = c.bits) : condField w = c := by
  rw [condField, h, condOfBits_bits]

/-! ## The branches -/

theorem decodeArm_bx (c : Cond) (rm : RegNum) : decodeArm (c.bits ++ 0x12FFF1#24 ++ rm) = .ok (.bx c rm) := by
  have hrow : ArmRow.mk 0x0FFFFFF0 0x012FFF10 (fun w => .bx (condField w) (w.extractLsb' 0 4)) ∈ armTable := .head _
  rw [decodeArm_of_match hrow (Laws.RowMatch.bx c rm)]
  simp only [condField_eq (extractLsb'_cond_append c rfl 0x12FFF1#24 rm), BitVec.extractLsb'_append_eq_right]

theorem decodeArm_b (c : Cond) (offset : BitVec 24) : decodeArm (c.bits ++ 0b1010#4 ++ offset) = .ok (.b c offset) := by
  have hrow : ArmRow.mk 0x0F000000 0x0A000000 (fun w => .b (condField w) (w.extractLsb' 0 24)) ∈ armTable :=
    .tail _ (.head _)
  rw [decodeArm_of_match hrow (Laws.RowMatch.b c offset)]
  simp only [condField_eq (extractLsb'_cond_append c rfl 0b1010#4 offset), BitVec.extractLsb'_append_eq_right]

theorem decodeArm_bl (c : Cond) (offset : BitVec 24) : decodeArm (c.bits ++ 0b1011#4 ++ offset) = .ok (.bl c offset) := by
  have hrow : ArmRow.mk 0x0F000000 0x0B000000 (fun w => .bl (condField w) (w.extractLsb' 0 24)) ∈ armTable :=
    .tail _ (.tail _ (.head _))
  rw [decodeArm_of_match hrow (Laws.RowMatch.bl c offset)]
  simp only [condField_eq (extractLsb'_cond_append c rfl 0b1011#4 offset), BitVec.extractLsb'_append_eq_right]

end Sys2Proof.Proofs.ArmDecoder
end

section
/-!
The branches and the state switch (40_branch_and_state_switch.md R120 to R122): what `exchange` and `branchBy` do in each
case, and the ARM-state instructions made of them.
-/

namespace Sys2Proof.Proofs.Branches
open Sys2Proof Sys2Proof.Machine Sys2Proof.Proofs.ArmDecoder

/-! ## The state switch -/

theorem exchange_to_thumb {v : Word} {s : State} (h0 : v[0] = true) :
    exchange v s = .next ({ s with cpsr := { s.cpsr with t := true } }.setPc (v.extractLsb' 1 31 ++ 0#1)) := by
  simp [exchange, clearBit0, h0]

theorem exchange_to_arm {v : Word} {s : State} (h0 : v[0] = false) (h1 : v[1] = false) :
    exchange v s = .next ({ s with cpsr := { s.cpsr with t := false } }.setPc v) := by
  simp [exchange, h0, h1]

theorem exchange_misaligned {v : Word} {s : State} (h0 : v[0] = false) (h1 : v[1] = true) :
    exchange v s = .refused .misalignedPc := by
  simp [exchange, h0, h1]

/-! ## Branches by a displacement -/

theorem branchBy_refused {d : Int} {s : State} (h : ¬ (0 ≤ (s.pc.toNat : Int) + d ∧ (s.pc.toNat : Int) + d < 2 ^ 32)) :
    branchBy d s = .refused .pcWrap := if_neg h

/-- The low 32 bits of an exact branch target: the sum modulo 2^32 with the offset sign-extended and shifted. -/
theorem ofInt_target (pc : Word) (k n : Nat) {w : Nat} (offset : BitVec w) :
    BitVec.ofInt 32 ((pc.toNat : Int) + (k + 2 ^ n * offset.toInt)) =
      pc + BitVec.ofNat 32 k + (offset.signExtend 32 <<< n) := by
  have hpow : BitVec.ofInt 32 (2 ^ n) = BitVec.twoPow 32 n := by
    rw [show (2 : Int) ^ n = (2 ^ n : Nat) by simp, BitVec.ofInt_natCast]
    exact BitVec.eq_of_toNat_eq (by simp)
  have hshift : BitVec.ofInt 32 (2 ^ n * offset.toInt) = offset.signExtend 32 <<< n := by
    rw [BitVec.ofInt_mul, hpow, BitVec.mul_comm, BitVec.shiftLeft_eq_mul_twoPow, BitVec.signExtend]
  rw [BitVec.ofInt_add, BitVec.ofInt_add, hshift, BitVec.ofInt_natCast, BitVec.ofInt_natCast, BitVec.ofNat_toNat,
    BitVec.setWidth_eq, BitVec.add_assoc]

/-- The target of an ARM branch (30_encoding.md R99). -/
theorem ofInt_armDisp (pc : Word) (offset : BitVec 24) :
    BitVec.ofInt 32 ((pc.toNat : Int) + armDisp offset) = pc + 8#32 + (offset.signExtend 32 <<< 2) :=
  ofInt_target pc 8 2 offset

theorem add_armDisp (pc : Int) (offset : BitVec 24) : pc + armDisp offset = pc + 8 + 4 * offset.toInt :=
  (Int.add_assoc ..).symm

/-! ## The instructions -/

theorem exec_bx_of_passes {c : Cond} {s : State} (h : s.passes c) (rm : RegNum) :
    exec (.bx c rm) s = withReg rm s fun v => exchange v s := conditional_passes h _

theorem exec_b_of_passes {c : Cond} {s : State} (h : s.passes c) (offset : BitVec 24) :
    exec (.b c offset) s = branchBy (armDisp offset) s := conditional_passes h _

theorem exec_bl_of_passes {c : Cond} {s : State} (h : s.passes c) (offset : BitVec 24) :
    exec (.bl c offset) s = branchBy (armDisp offset) (s.setReg 14#4 (s.pc + 4#32)) := conditional_passes h _

/-! ## The obligations -/

/-- Settles O1: past the condition and the R15 check BX is `exchange`, whose three cases are the clauses. -/
theorem bxSwitchesState : Obligations.BxSwitchesState := by
  intro c rm s
  refine ⟨decodeArm_bx c rm, fun hc => ?_⟩
  rw [exec_bx_of_passes hc]
  refine ⟨fun h15 => ?r15, fun hrm h0 => ?thumb, fun hrm h0 h1 => ?arm, fun hrm h0 h1 => ?misaligned⟩
  case r15 => exact if_pos h15
  case thumb => rw [withReg_eq hrm, exchange_to_thumb h0]
  case arm => rw [withReg_eq hrm, exchange_to_arm h0 h1]
  case misaligned => rw [withReg_eq hrm, exchange_misaligned h0 h1]

/-- Settles O3: B is `branchBy` with the displacement of R99, whose range test decides between the clauses. -/
theorem branchGoesToTarget : Obligations.BranchGoesToTarget := by
  intro c offset s target total
  refine ⟨decodeArm_b c offset, fun hc => ?_⟩
  rw [exec_b_of_passes hc]
  refine ⟨fun hin => ?inside, fun hout => ?outside⟩
  case inside => rw [branchBy_eq (add_armDisp .. ▸ hin), ofInt_armDisp]
  case outside => exact branchBy_refused (add_armDisp .. ▸ hout)

/-- Settles O4: BL is B from the state with R14 written, a write that leaves the pc. -/
theorem branchWithLink : Obligations.BranchWithLink := by
  intro c offset s target total
  refine ⟨decodeArm_bl c offset, fun hc hlo hhi => ?_⟩
  have hpc : (s.setReg 14#4 (s.pc + 4#32)).pc = s.pc := s.setReg_pc (by decide) _
  rw [exec_bl_of_passes hc, branchBy_eq (by rw [hpc, add_armDisp]; exact ⟨hlo, hhi⟩), hpc, ofInt_armDisp]

end Sys2Proof.Proofs.Branches
end

section
/-!
The flag rule (41_data_processing.md R135): the machine's flags on exact integers are the rule's bit forms, and V is signed
overflow.
-/

namespace Sys2Proof.Proofs.FlagRule
open Sys2Proof Sys2Proof.Machine

/-! ## Signs and ranges -/

theorem getElem_31_eq_msb (v : Word) : v[31] = v.msb := by
  rw [BitVec.msb_eq_getLsbD_last, BitVec.getLsbD_eq_getElem]

theorem signedOverflow_iff (x : Int) : signedOverflow x = true ↔ x < -(2 ^ 31) ∨ 2 ^ 31 - 1 < x := by
  simp only [signedOverflow, Bool.or_eq_true, decide_eq_true_iff]
  omega

/-- The model's overflow of a sum is the library's, whose bit form is known. -/
theorem signedOverflow_add (a b : Word) : signedOverflow (a.toInt + b.toInt) = BitVec.saddOverflow a b :=
  Bool.or_comm ..

theorem signedOverflow_sub (a b : Word) : signedOverflow (a.toInt - b.toInt) = BitVec.ssubOverflow a b :=
  Bool.or_comm ..

/-! ## The three cases of the rule -/

theorem addFlags_eq_sumFlags (a b : Word) : addFlags a b = sumFlags a b := by
  have hv : signedOverflow (a.toInt + b.toInt) = decide (a[31] = b[31] ∧ (a + b)[31] ≠ a[31]) := by
    rw [signedOverflow_add, BitVec.saddOverflow_eq]
    simp only [← getElem_31_eq_msb]
    cases a[31] <;> cases b[31] <;> cases (a + b)[31] <;> rfl
  rw [addFlags, sumFlags, hv, getElem_31_eq_msb]
  rfl

theorem subFlags_eq_diffFlags (a b : Word) : subFlags a b = diffFlags a b := by
  have hv : signedOverflow (a.toInt - b.toInt) = decide (a[31] ≠ b[31] ∧ (a - b)[31] ≠ a[31]) := by
    rw [signedOverflow_sub, BitVec.ssubOverflow_eq]
    simp only [← getElem_31_eq_msb]
    cases a[31] <;> cases b[31] <;> cases (a - b)[31] <;> rfl
  rw [subFlags, diffFlags, hv, getElem_31_eq_msb]
  rfl

theorem moveFlags_eq_movedFlags (v : Word) (c : Held Bool) (old : HeldFlags) :
    moveFlags v c old = movedFlags v c old := by
  rw [moveFlags, movedFlags, getElem_31_eq_msb]
  rfl

/-- Settles O11: the bit forms of V are those of the library's signed overflow, and the range is the model's own test. -/
theorem flagResults : Obligations.FlagResults := by
  refine ⟨fun a b => ⟨addFlags_eq_sumFlags a b, ?sum⟩, fun a b => ⟨subFlags_eq_diffFlags a b, ?difference⟩,
    moveFlags_eq_movedFlags⟩
  case sum =>
    rw [← addFlags_eq_sumFlags]
    exact signedOverflow_iff _
  case difference =>
    rw [← subFlags_eq_diffFlags]
    exact signedOverflow_iff _

end Sys2Proof.Proofs.FlagRule
end

section
/-!
The words of data processing (30_encoding.md R94, format A-DP): their fields, and what each decodes as.
-/

namespace Sys2Proof.Proofs.DataProcessingWords
open Sys2Proof Sys2Proof.Proofs.ArmDecoder

/-! ## Fields -/

/-- The fields above the second operand of a word of format A-DP, whose 12 bits are two parts. -/
theorem fields_above_operand2 (c : Cond) (op : BitVec 7) (sf : Bool) (rn rd : RegNum) {m n : Nat} (h : m + n = 12)
    (x : BitVec m) (y : BitVec n) :
    let w := c.bits ++ op ++ BitVec.ofBool sf ++ rn ++ rd ++ x ++ y
    w.extractLsb' 28 4 = c.bits ∧ w.getLsbD 20 = sf ∧ w.extractLsb' 16 4 = rn ∧ w.extractLsb' 12 4 = rd := by
  have hstart (k : Nat) : 12 + k - n - m = k := by omega
  have hbit {v : Nat} (w : BitVec v) (k : Nat) : w.getLsbD k = (w.extractLsb' k 1).getLsbD 0 := by simp
  simp (disch := omega) only [hbit _ 20, BitVec.extractLsb'_append_eq_of_le, BitVec.extractLsb'_append_eq_of_add_le]
  simp [hstart 16, hstart 8, hstart 4, hstart 0]

/-- The condition and Rn of a comparison, whose opcode holds the S bit. -/
theorem fields_of_compare (c : Cond) (op : BitVec 8) (rn : RegNum) {m n : Nat} (h : m + n = 16) (x : BitVec m)
    (y : BitVec n) :
    let w := c.bits ++ op ++ rn ++ x ++ y
    w.extractLsb' 28 4 = c.bits ∧ w.extractLsb' 16 4 = rn := by
  have hstart (k : Nat) : 16 + k - n - m = k := by omega
  simp (disch := omega) only [BitVec.extractLsb'_append_eq_of_le, hstart 12, hstart 0]
  exact ⟨BitVec.extractLsb'_eq_self, BitVec.extractLsb'_append_eq_right⟩

/-- The rotation and the byte of an immediate operand. -/
theorem fields_of_immediate {n : Nat} (x : BitVec n) (rot : BitVec 4) (imm : Byte) :
    let w := x ++ rot ++ imm
    w.extractLsb' 8 4 = rot ∧ w.extractLsb' 0 8 = imm := by
  refine ⟨?_, BitVec.extractLsb'_append_eq_right⟩
  rw [BitVec.extractLsb'_append_eq_of_le (by decide), BitVec.extractLsb'_append_eq_right]

/-! ## Decoding -/

/-- A word with the fixed bits of row k of the table decodes as that row builds it. -/
theorem decodeArm_of_row {w : Word} {i : Instr} (k : Nat) (hk : k < armTable.length)
    (hw : w &&& armTable[k].mask = armTable[k].value) (hi : armTable[k].build w = i) : decodeArm w = .ok i :=
  hi ▸ decodeArm_of_match (List.getElem_mem hk) hw

theorem decodeArm_movReg (c : Cond) (sf : Bool) (rd rm : RegNum) :
    decodeArm (c.bits ++ 0b0001101#7 ++ BitVec.ofBool sf ++ 0#4 ++ rd ++ 0#8 ++ rm) = .ok (.movReg c sf rd rm) := by
  obtain ⟨hc, hs, -, hd⟩ := fields_above_operand2 c 0b0001101#7 sf 0#4 rd rfl 0#8 rm
  refine decodeArm_of_row 3 (by decide) (Laws.RowMatch.movReg c sf rd rm) ?_
  simp only [armTable, List.getElem_cons_succ, List.getElem_cons_zero, condField_eq hc, hs, hd,
    BitVec.extractLsb'_append_eq_right]

theorem decodeArm_movImm (c : Cond) (sf : Bool) (rd : RegNum) (rot : BitVec 4) (imm : Byte) :
    decodeArm (c.bits ++ 0b0011101#7 ++ BitVec.ofBool sf ++ 0#4 ++ rd ++ rot ++ imm) =
      .ok (.movImm c sf rd rot imm) := by
  obtain ⟨hc, hs, -, hd⟩ := fields_above_operand2 c 0b0011101#7 sf 0#4 rd rfl rot imm
  refine decodeArm_of_row 4 (by decide) (Laws.RowMatch.movImm c sf rd rot imm) ?_
  simp only [armTable, List.getElem_cons_succ, List.getElem_cons_zero, condField_eq hc, hs, hd, fields_of_immediate]

theorem decodeArm_addReg (c : Cond) (sf : Bool) (rn rd rm : RegNum) :
    decodeArm (c.bits ++ 0b0000100#7 ++ BitVec.ofBool sf ++ rn ++ rd ++ 0#8 ++ rm) = .ok (.addReg c sf rn rd rm) := by
  obtain ⟨hc, hs, hn, hd⟩ := fields_above_operand2 c 0b0000100#7 sf rn rd rfl 0#8 rm
  refine decodeArm_of_row 5 (by decide) (Laws.RowMatch.addReg c sf rn rd rm) ?_
  simp only [armTable, List.getElem_cons_succ, List.getElem_cons_zero, condField_eq hc, hs, hn, hd,
    BitVec.extractLsb'_append_eq_right]

theorem decodeArm_addImm (c : Cond) (sf : Bool) (rn rd : RegNum) (rot : BitVec 4) (imm : Byte) :
    decodeArm (c.bits ++ 0b0010100#7 ++ BitVec.ofBool sf ++ rn ++ rd ++ rot ++ imm) =
      .ok (.addImm c sf rn rd rot imm) := by
  obtain ⟨hc, hs, hn, hd⟩ := fields_above_operand2 c 0b0010100#7 sf rn rd rfl rot imm
  refine decodeArm_of_row 6 (by decide) (Laws.RowMatch.addImm c sf rn rd rot imm) ?_
  simp only [armTable, List.getElem_cons_succ, List.getElem_cons_zero, condField_eq hc, hs, hn, hd, fields_of_immediate]

theorem decodeArm_subReg (c : Cond) (sf : Bool) (rn rd rm : RegNum) :
    decodeArm (c.bits ++ 0b0000010#7 ++ BitVec.ofBool sf ++ rn ++ rd ++ 0#8 ++ rm) = .ok (.subReg c sf rn rd rm) := by
  obtain ⟨hc, hs, hn, hd⟩ := fields_above_operand2 c 0b0000010#7 sf rn rd rfl 0#8 rm
  refine decodeArm_of_row 7 (by decide) (Laws.RowMatch.subReg c sf rn rd rm) ?_
  simp only [armTable, List.getElem_cons_succ, List.getElem_cons_zero, condField_eq hc, hs, hn, hd,
    BitVec.extractLsb'_append_eq_right]

theorem decodeArm_subImm (c : Cond) (sf : Bool) (rn rd : RegNum) (rot : BitVec 4) (imm : Byte) :
    decodeArm (c.bits ++ 0b0010010#7 ++ BitVec.ofBool sf ++ rn ++ rd ++ rot ++ imm) =
      .ok (.subImm c sf rn rd rot imm) := by
  obtain ⟨hc, hs, hn, hd⟩ := fields_above_operand2 c 0b0010010#7 sf rn rd rfl rot imm
  refine decodeArm_of_row 8 (by decide) (Laws.RowMatch.subImm c sf rn rd rot imm) ?_
  simp only [armTable, List.getElem_cons_succ, List.getElem_cons_zero, condField_eq hc, hs, hn, hd, fields_of_immediate]

theorem decodeArm_cmpReg (c : Cond) (rn rm : RegNum) :
    decodeArm (c.bits ++ 0b00010101#8 ++ rn ++ 0#12 ++ rm) = .ok (.cmpReg c rn rm) := by
  obtain ⟨hc, hn⟩ := fields_of_compare c 0b00010101#8 rn rfl 0#12 rm
  refine decodeArm_of_row 9 (by decide) (Laws.RowMatch.cmpReg c rn rm) ?_
  simp only [armTable, List.getElem_cons_succ, List.getElem_cons_zero, condField_eq hc, hn,
    BitVec.extractLsb'_append_eq_right]

theorem decodeArm_cmpImm (c : Cond) (rn : RegNum) (rot : BitVec 4) (imm : Byte) :
    decodeArm (c.bits ++ 0b00110101#8 ++ rn ++ 0#4 ++ rot ++ imm) = .ok (.cmpImm c rn rot imm) := by
  have hassoc : c.bits ++ 0b00110101#8 ++ rn ++ (0#4 ++ rot) = c.bits ++ 0b00110101#8 ++ rn ++ 0#4 ++ rot :=
    BitVec.append_assoc.symm
  obtain ⟨hc, hn⟩ := hassoc ▸ fields_of_compare c 0b00110101#8 rn rfl (0#4 ++ rot) imm
  refine decodeArm_of_row 10 (by decide) (Laws.RowMatch.cmpImm c rn rot imm) ?_
  simp only [armTable, List.getElem_cons_succ, List.getElem_cons_zero, condField_eq hc, hn, fields_of_immediate]

end Sys2Proof.Proofs.DataProcessingWords
end

section
/-!
Data processing (41_data_processing.md R130 to R134): the operands, the write-back in each of its cases, and the
instructions made of them.
-/

namespace Sys2Proof.Proofs.DataProcessing
open Sys2Proof Sys2Proof.Machine Sys2Proof.Proofs.FlagRule Sys2Proof.Proofs.DataProcessingWords

/-! ## Operands -/

theorem immValue_eq_rotated (rot : BitVec 4) (imm : Byte) : immValue rot imm = rotated rot imm := by
  rw [immValue, rotated, BitVec.rotateRight_def, Nat.mod_eq_of_lt (by omega)]

theorem immCarry_eq_rotatedCarry (rot : BitVec 4) (imm : Byte) (c : Held Bool) :
    immCarry rot imm c = rotatedCarry rot imm c := by
  rw [immCarry, rotatedCarry, immValue_eq_rotated, getElem_31_eq_msb]

theorem withReg_r15 {i : RegNum} (h : i = 15#4) (s : State) (body : Word → Result) :
    withReg i s body = .refused .r15Operand := if_pos h

/-- Two register operands, neither of them R15. -/
theorem withReg_withSecond_eq {rn rm : RegNum} (hn : rn ≠ 15#4) (hm : rm ≠ 15#4) (s : State)
    (body : Word → Word → Result) :
    (withReg rn s fun a => withSecond rm s fun b => body a b) = body (s.reg rn) (s.second rm) := by
  rw [withReg_eq hn, withSecond_eq hm]

/-- Two register operands, one of them R15. -/
theorem withReg_withSecond_r15 {rn rm : RegNum} (h : rn = 15#4 ∨ rm = 15#4) (s : State) (body : Word → Word → Result) :
    (withReg rn s fun a => withSecond rm s fun b => body a b) = .refused .r15Operand := by
  by_cases hn : rn = 15#4
  · exact withReg_r15 hn s _
  · rw [withReg_eq hn]
    exact if_pos (h.resolve_left hn)

/-! ## The write-back -/

theorem advance_refused {n : Nat} {s : State} (h : ¬ s.canAdvance n) : advance n s = .refused .pcWrap := if_neg h

theorem extractLsb'_low_two_eq_zero_iff (v : Word) : v.extractLsb' 0 2 = 0#2 ↔ v.toNat % 4 = 0 := by
  simp [← BitVec.toNat_inj]

theorem jumpArm_aligned {v : Word} (h : v.toNat % 4 = 0) (s : State) : jumpArm v s = .next (s.setPc v) :=
  if_pos ((extractLsb'_low_two_eq_zero_iff v).2 h)

theorem jumpArm_misaligned {v : Word} (h : v.toNat % 4 ≠ 0) (s : State) : jumpArm v s = .refused .misalignedPc :=
  if_neg fun hv => h ((extractLsb'_low_two_eq_zero_iff v).1 hv)

/-- A result for a register other than R15: the flags with S, the register, and the pc moved on. -/
theorem writeResult_register {rd : RegNum} (hd : rd ≠ 15#4) (sf : Bool) (v : Word) (fl : HeldFlags) (s : State) :
    writeResult sf rd v fl s = advance 4 ((if sf then s.setFlags fl else s).setReg rd v) := by
  rw [writeResult, if_pos hd]
  cases sf <;> rfl

theorem writeResult_jump (v : Word) (fl : HeldFlags) (s : State) : writeResult false 15#4 v fl s = jumpArm v s := rfl

theorem writeResult_return (v : Word) (fl : HeldFlags) (s : State) :
    writeResult true 15#4 v fl s = exceptionReturn v s := rfl

/-- An instruction whose meaning is `writeResult` writes back as R130 says. -/
theorem writesBack_of_writeResult {i : Instr} {s : State} {sf : Bool} {rd : RegNum} {v : Word} {fl : HeldFlags}
    (h : exec i s = writeResult sf rd v fl s) : WritesBack i s sf rd v fl := by
  have hpc (hd : rd ≠ 15#4) : ((if sf then s.setFlags fl else s).setReg rd v).pc = s.pc := by
    rw [State.setReg_pc _ hd]
    cases sf <;> rfl
  rw [WritesBack, h]
  refine ⟨fun hd hadv => ?register, fun hd hadv => ?lastAddress, fun hd hs hal => ?jump, fun hd hs hal => ?misaligned,
    fun hd hs => ?exceptionReturn⟩
  case register => rw [writeResult_register hd, advance_eq (by rwa [State.canAdvance, hpc hd]), State.stepped, hpc hd]
  case lastAddress => rw [writeResult_register hd, advance_refused (by rwa [State.canAdvance, hpc hd])]
  case jump => rw [hd, hs, writeResult_jump, jumpArm_aligned hal]
  case misaligned => rw [hd, hs, writeResult_jump, jumpArm_misaligned hal]
  case exceptionReturn => rw [hd, hs, writeResult_return]

/-! ## The operations, with the flags in bit form -/

theorem moveResult_eq (sf : Bool) (rd : RegNum) (v : Word) (carry : Held Bool) (s : State) :
    moveResult sf rd v carry s = writeResult sf rd v (movedFlags v carry s.cpsr.flags) s := by
  rw [moveResult, moveFlags_eq_movedFlags]

theorem addResult_eq (sf : Bool) (rd : RegNum) (a b : Word) (s : State) :
    addResult sf rd a b s = writeResult sf rd (a + b) (sumFlags a b).held s := by
  rw [addResult, addFlags_eq_sumFlags]

theorem subResult_eq (sf : Bool) (rd : RegNum) (a b : Word) (s : State) :
    subResult sf rd a b s = writeResult sf rd (a - b) (diffFlags a b).held s := by
  rw [subResult, subFlags_eq_diffFlags]

theorem compare_advances {s : State} (h : s.canAdvance 4) (a b : Word) :
    compare a b s = .next ((s.setFlags (diffFlags a b).held).setPc (s.pc + 4#32)) := by
  rw [Machine.compare, subFlags_eq_diffFlags]
  exact advance_eq h

theorem compare_refused {s : State} (h : ¬ s.canAdvance 4) (a b : Word) : compare a b s = .refused .pcWrap :=
  advance_refused h

/-! ## The instructions -/

theorem exec_movReg_of_passes {c : Cond} {s : State} (h : s.passes c) (sf : Bool) (rd rm : RegNum) :
    exec (.movReg c sf rd rm) s = withReg rm s fun v => moveResult sf rd v s.cpsr.flags.c s := conditional_passes h _

theorem exec_movImm_of_passes {c : Cond} {s : State} (h : s.passes c) (sf : Bool) (rd : RegNum) (rot : BitVec 4)
    (imm : Byte) :
    exec (.movImm c sf rd rot imm) s =
      moveResult sf rd (rotated rot imm) (rotatedCarry rot imm s.cpsr.flags.c) s := by
  rw [← immValue_eq_rotated, ← immCarry_eq_rotatedCarry]
  exact conditional_passes h _

theorem exec_addReg_of_passes {c : Cond} {s : State} (h : s.passes c) (sf : Bool) (rn rd rm : RegNum) :
    exec (.addReg c sf rn rd rm) s = withReg rn s fun a => withSecond rm s fun b => addResult sf rd a b s :=
  conditional_passes h _

theorem exec_addImm_of_passes {c : Cond} {s : State} (h : s.passes c) (sf : Bool) (rn rd : RegNum) (rot : BitVec 4)
    (imm : Byte) :
    exec (.addImm c sf rn rd rot imm) s = withReg rn s fun a => addResult sf rd a (rotated rot imm) s := by
  rw [← immValue_eq_rotated]
  exact conditional_passes h _

theorem exec_subReg_of_passes {c : Cond} {s : State} (h : s.passes c) (sf : Bool) (rn rd rm : RegNum) :
    exec (.subReg c sf rn rd rm) s = withReg rn s fun a => withSecond rm s fun b => subResult sf rd a b s :=
  conditional_passes h _

theorem exec_subImm_of_passes {c : Cond} {s : State} (h : s.passes c) (sf : Bool) (rn rd : RegNum) (rot : BitVec 4)
    (imm : Byte) :
    exec (.subImm c sf rn rd rot imm) s = withReg rn s fun a => subResult sf rd a (rotated rot imm) s := by
  rw [← immValue_eq_rotated]
  exact conditional_passes h _

theorem exec_cmpReg_of_passes {c : Cond} {s : State} (h : s.passes c) (rn rm : RegNum) :
    exec (.cmpReg c rn rm) s = withReg rn s fun a => withSecond rm s fun b => compare a b s := conditional_passes h _

theorem exec_cmpImm_of_passes {c : Cond} {s : State} (h : s.passes c) (rn : RegNum) (rot : BitVec 4) (imm : Byte) :
    exec (.cmpImm c rn rot imm) s = withReg rn s fun a => compare a (rotated rot imm) s := by
  rw [← immValue_eq_rotated]
  exact conditional_passes h _

/-! ## The obligations -/

/-- Settles O7: past the condition and the R15 check MOV is `writeResult` with the flags of a move. -/
theorem movWritesOperand : Obligations.MovWritesOperand := by
  refine ⟨fun c sf rd rm s => ⟨decodeArm_movReg c sf rd rm, fun hc => ⟨fun hm => ?r15, fun hm => ?register⟩⟩,
    fun c sf rd rot imm s => ⟨decodeArm_movImm c sf rd rot imm, fun hc => ?immediate⟩⟩
  case r15 => rw [exec_movReg_of_passes hc, withReg_r15 hm]
  case register =>
    apply writesBack_of_writeResult
    rw [exec_movReg_of_passes hc, withReg_eq hm, moveResult_eq]
  case immediate =>
    apply writesBack_of_writeResult
    rw [exec_movImm_of_passes hc, moveResult_eq]

/-- Settles O8: past the condition and the R15 checks ADD is `writeResult` with the flags of an addition. -/
theorem addWritesSum : Obligations.AddWritesSum := by
  refine ⟨fun c sf rn rd rm s => ⟨decodeArm_addReg c sf rn rd rm, fun hc => ⟨fun h15 => ?r15, fun hn hm => ?register⟩⟩,
    fun c sf rn rd rot imm s =>
      ⟨decodeArm_addImm c sf rn rd rot imm, fun hc => ⟨fun h15 => ?r15Imm, fun hn => ?immediate⟩⟩⟩
  case r15 => rw [exec_addReg_of_passes hc, withReg_withSecond_r15 h15]
  case register =>
    apply writesBack_of_writeResult
    rw [exec_addReg_of_passes hc, withReg_withSecond_eq hn hm, addResult_eq]
  case r15Imm => rw [exec_addImm_of_passes hc, withReg_r15 h15]
  case immediate =>
    apply writesBack_of_writeResult
    rw [exec_addImm_of_passes hc, withReg_eq hn, addResult_eq]

/-- Settles O9: past the condition and the R15 checks SUB is `writeResult` with the flags of a subtraction. -/
theorem subWritesDifference : Obligations.SubWritesDifference := by
  refine ⟨fun c sf rn rd rm s => ⟨decodeArm_subReg c sf rn rd rm, fun hc => ⟨fun h15 => ?r15, fun hn hm => ?register⟩⟩,
    fun c sf rn rd rot imm s =>
      ⟨decodeArm_subImm c sf rn rd rot imm, fun hc => ⟨fun h15 => ?r15Imm, fun hn => ?immediate⟩⟩⟩
  case r15 => rw [exec_subReg_of_passes hc, withReg_withSecond_r15 h15]
  case register =>
    apply writesBack_of_writeResult
    rw [exec_subReg_of_passes hc, withReg_withSecond_eq hn hm, subResult_eq]
  case r15Imm => rw [exec_subImm_of_passes hc, withReg_r15 h15]
  case immediate =>
    apply writesBack_of_writeResult
    rw [exec_subImm_of_passes hc, withReg_eq hn, subResult_eq]

/-- Settles O10: past the condition and the R15 checks CMP is `compare`, which writes the flags and moves the pc on. -/
theorem cmpWritesFlagsOnly : Obligations.CmpWritesFlagsOnly := by
  refine ⟨fun c rn rm s => ⟨decodeArm_cmpReg c rn rm, fun hc => ?register⟩,
    fun c rn rot imm s => ⟨decodeArm_cmpImm c rn rot imm, fun hc => ?immediate⟩⟩
  case register =>
    rw [exec_cmpReg_of_passes hc]
    refine ⟨fun h15 => withReg_withSecond_r15 h15 s _, fun hn hm hadv => ?_, fun hn hm hadv => ?_⟩
    · rw [withReg_withSecond_eq hn hm, compare_advances hadv]
    · rw [withReg_withSecond_eq hn hm, compare_refused hadv]
  case immediate =>
    rw [exec_cmpImm_of_passes hc]
    refine ⟨fun h15 => withReg_r15 h15 s _, fun hn hadv => ?_, fun hn hadv => ?_⟩
    · rw [withReg_eq hn, compare_advances hadv]
    · rw [withReg_eq hn, compare_refused hadv]

end Sys2Proof.Proofs.DataProcessing
end

section
/-!
The words of loads, stores and swaps (30_encoding.md R94, formats A-LS, A-LSH, A-BLK and A-SWP): their fields, and what each
decodes as.
-/

namespace Sys2Proof.Proofs.TransferWords
open Sys2Proof Sys2Proof.Proofs.ArmDecoder Sys2Proof.Proofs.DataProcessingWords

/-! ## Fields -/

/-- The fields above bit 15 of a load or a store, whose bits [24:20] are P, U, B or S, W and L. -/
theorem fields_above_transfer (c : Cond) (op : BitVec 3) (p u : Bool) (b : BitVec 1) (w : Bool) (l : BitVec 1)
    (rn : RegNum) (low : BitVec 16) :
    let x := c.bits ++ op ++ BitVec.ofBool p ++ BitVec.ofBool u ++ b ++ BitVec.ofBool w ++ l ++ rn ++ low
    x.extractLsb' 28 4 = c.bits ∧ x.getLsbD 24 = p ∧ x.getLsbD 23 = u ∧ x.getLsbD 22 = b.getLsbD 0 ∧ x.getLsbD 21 = w ∧
      x.extractLsb' 16 4 = rn := by
  have hbit {v : Nat} (y : BitVec v) (k : Nat) : y.getLsbD k = (y.extractLsb' k 1).getLsbD 0 := by simp
  simp (disch := omega) only [hbit _ 24, hbit _ 23, hbit _ 22, hbit _ 21, BitVec.extractLsb'_append_eq_of_le,
    BitVec.extractLsb'_append_eq_of_add_le]
  simp

/-- A field inside the low 16 bits. -/
theorem extractLsb'_low {n : Nat} (x : BitVec n) (low : BitVec 16) {k m : Nat} (h : k + m ≤ 16) :
    (x ++ low).extractLsb' k m = low.extractLsb' k m := BitVec.extractLsb'_append_eq_of_add_le h

/-- The low half of an immediate-offset word or byte transfer: Rd and the offset. -/
theorem fields_of_offset (rd : RegNum) (off : BitVec 12) :
    (rd ++ off).extractLsb' 12 4 = rd ∧ (rd ++ off).extractLsb' 0 12 = off := by
  rw [BitVec.extractLsb'_append_eq_of_le (by decide)]
  exact ⟨BitVec.extractLsb'_eq_self, BitVec.extractLsb'_append_eq_right⟩

/-- The low half of a halfword transfer: Rd and the two parts of the offset. -/
theorem fields_of_halfOffset (rd : RegNum) (immH mid immL : BitVec 4) :
    let x := rd ++ immH ++ mid ++ immL
    x.extractLsb' 12 4 = rd ∧ x.extractLsb' 8 4 = immH ∧ x.extractLsb' 0 4 = immL := by
  simp (disch := omega) only [BitVec.extractLsb'_append_eq_of_le, BitVec.extractLsb'_append_eq_of_add_le]
  simp

/-- The fields of a word of format A-LS: an access of a word or a byte. -/
theorem fields_of_wordTransfer (c : Cond) (p u : Bool) (b : BitVec 1) (w : Bool) (l : BitVec 1) (rn rd : RegNum)
    (off : BitVec 12) :
    let x := c.bits ++ 0b010#3 ++ BitVec.ofBool p ++ BitVec.ofBool u ++ b ++ BitVec.ofBool w ++ l ++ rn ++ rd ++ off
    condField x = c ∧ x.getLsbD 24 = p ∧ x.getLsbD 23 = u ∧ x.getLsbD 21 = w ∧ x.extractLsb' 16 4 = rn ∧
      x.extractLsb' 12 4 = rd ∧ x.extractLsb' 0 12 = off := by
  intro x
  have hx : x = c.bits ++ 0b010#3 ++ BitVec.ofBool p ++ BitVec.ofBool u ++ b ++ BitVec.ofBool w ++ l ++ rn ++ (rd ++ off) :=
    BitVec.append_assoc
  obtain ⟨hc, hp, hu, -, hw, hn⟩ := hx ▸ fields_above_transfer c 0b010#3 p u b w l rn (rd ++ off)
  obtain ⟨hd, ho⟩ := fields_of_offset rd off
  exact ⟨condField_eq hc, hp, hu, hw, hn, by rw [hx, extractLsb'_low _ _ (by decide), hd],
    by rw [hx, extractLsb'_low _ _ (by decide), ho]⟩

/-- The fields of a word of format A-LSH: an access of a halfword. -/
theorem fields_of_halfTransfer (c : Cond) (p u w : Bool) (l : BitVec 1) (rn rd : RegNum) (immH immL : BitVec 4) :
    let x := c.bits ++ 0b000#3 ++ BitVec.ofBool p ++ BitVec.ofBool u ++ 1#1 ++ BitVec.ofBool w ++ l ++ rn ++ rd ++ immH ++
      0b1011#4 ++ immL
    condField x = c ∧ x.getLsbD 24 = p ∧ x.getLsbD 23 = u ∧ x.getLsbD 21 = w ∧ x.extractLsb' 16 4 = rn ∧
      x.extractLsb' 12 4 = rd ∧ x.extractLsb' 8 4 = immH ∧ x.extractLsb' 0 4 = immL := by
  intro x
  have hx : x = c.bits ++ 0b000#3 ++ BitVec.ofBool p ++ BitVec.ofBool u ++ 1#1 ++ BitVec.ofBool w ++ l ++ rn ++
      (rd ++ immH ++ 0b1011#4 ++ immL) := by
    simp only [x, BitVec.append_assoc, BitVec.cast_eq]
  obtain ⟨hc, hp, hu, -, hw, hn⟩ := hx ▸ fields_above_transfer c 0b000#3 p u 1#1 w l rn (rd ++ immH ++ 0b1011#4 ++ immL)
  obtain ⟨hd, hh, hl⟩ := fields_of_halfOffset rd immH 0b1011#4 immL
  exact ⟨condField_eq hc, hp, hu, hw, hn, by rw [hx, extractLsb'_low _ _ (by decide), hd],
    by rw [hx, extractLsb'_low _ _ (by decide), hh], by rw [hx, extractLsb'_low _ _ (by decide), hl]⟩

/-- The fields of a word of format A-BLK. -/
theorem fields_of_blockTransfer (c : Cond) (p u sbit w : Bool) (l : BitVec 1) (rn : RegNum) (list : BitVec 16) :
    let x := c.bits ++ 0b100#3 ++ BitVec.ofBool p ++ BitVec.ofBool u ++ BitVec.ofBool sbit ++ BitVec.ofBool w ++ l ++ rn ++
      list
    condField x = c ∧ x.getLsbD 24 = p ∧ x.getLsbD 23 = u ∧ x.getLsbD 22 = sbit ∧ x.getLsbD 21 = w ∧
      x.extractLsb' 16 4 = rn ∧ x.extractLsb' 0 16 = list := by
  obtain ⟨hc, hp, hu, hs, hw, hn⟩ := fields_above_transfer c 0b100#3 p u (BitVec.ofBool sbit) w l rn list
  exact ⟨condField_eq hc, hp, hu, hs.trans (by simp), hw, hn, BitVec.extractLsb'_append_eq_right⟩

/-- The fields of a word of format A-SWP. -/
theorem fields_of_swap (c : Cond) (op : BitVec 8) (rn rd rm : RegNum) :
    let x := c.bits ++ op ++ rn ++ rd ++ 0b00001001#8 ++ rm
    condField x = c ∧ x.extractLsb' 16 4 = rn ∧ x.extractLsb' 12 4 = rd ∧ x.extractLsb' 0 4 = rm := by
  intro x
  have hx : x = c.bits ++ op ++ rn ++ (rd ++ 0b00001001#8) ++ rm := by
    simp only [x, BitVec.append_assoc, BitVec.cast_eq]
  obtain ⟨hc, hn⟩ := hx ▸ fields_of_compare c op rn rfl (rd ++ 0b00001001#8) rm
  refine ⟨condField_eq hc, hn, ?_, BitVec.extractLsb'_append_eq_right⟩
  simp (disch := omega) only [x, BitVec.extractLsb'_append_eq_of_le, BitVec.extractLsb'_append_eq_of_add_le]
  exact BitVec.extractLsb'_eq_self

/-! ## Decoding -/

theorem decodeArm_ldr (c : Cond) (p u w : Bool) (rn rd : RegNum) (off : BitVec 12) :
    decodeArm (c.bits ++ 0b010#3 ++ BitVec.ofBool p ++ BitVec.ofBool u ++ 0#1 ++ BitVec.ofBool w ++ 1#1 ++ rn ++ rd ++ off) =
      .ok (.ldr c p u w rn rd off) := by
  refine decodeArm_of_row 14 (by decide) (Laws.RowMatch.ldr c p u w rn rd off) ?_
  simp only [armTable, List.getElem_cons_succ, List.getElem_cons_zero, fields_of_wordTransfer]

theorem decodeArm_str (c : Cond) (p u w : Bool) (rn rd : RegNum) (off : BitVec 12) :
    decodeArm (c.bits ++ 0b010#3 ++ BitVec.ofBool p ++ BitVec.ofBool u ++ 0#1 ++ BitVec.ofBool w ++ 0#1 ++ rn ++ rd ++ off) =
      .ok (.str c p u w rn rd off) := by
  refine decodeArm_of_row 15 (by decide) (Laws.RowMatch.str c p u w rn rd off) ?_
  simp only [armTable, List.getElem_cons_succ, List.getElem_cons_zero, fields_of_wordTransfer]

theorem decodeArm_ldrb (c : Cond) (p u w : Bool) (rn rd : RegNum) (off : BitVec 12) :
    decodeArm (c.bits ++ 0b010#3 ++ BitVec.ofBool p ++ BitVec.ofBool u ++ 1#1 ++ BitVec.ofBool w ++ 1#1 ++ rn ++ rd ++ off) =
      .ok (.ldrb c p u w rn rd off) := by
  refine decodeArm_of_row 16 (by decide) (Laws.RowMatch.ldrb c p u w rn rd off) ?_
  simp only [armTable, List.getElem_cons_succ, List.getElem_cons_zero, fields_of_wordTransfer]

theorem decodeArm_strb (c : Cond) (p u w : Bool) (rn rd : RegNum) (off : BitVec 12) :
    decodeArm (c.bits ++ 0b010#3 ++ BitVec.ofBool p ++ BitVec.ofBool u ++ 1#1 ++ BitVec.ofBool w ++ 0#1 ++ rn ++ rd ++ off) =
      .ok (.strb c p u w rn rd off) := by
  refine decodeArm_of_row 17 (by decide) (Laws.RowMatch.strb c p u w rn rd off) ?_
  simp only [armTable, List.getElem_cons_succ, List.getElem_cons_zero, fields_of_wordTransfer]

theorem decodeArm_ldrh (c : Cond) (p u w : Bool) (rn rd : RegNum) (immH immL : BitVec 4) :
    decodeArm (c.bits ++ 0b000#3 ++ BitVec.ofBool p ++ BitVec.ofBool u ++ 1#1 ++ BitVec.ofBool w ++ 1#1 ++ rn ++ rd ++ immH ++
      0b1011#4 ++ immL) = .ok (.ldrh c p u w rn rd immH immL) := by
  refine decodeArm_of_row 18 (by decide) (Laws.RowMatch.ldrh c p u w rn rd immH immL) ?_
  simp only [armTable, List.getElem_cons_succ, List.getElem_cons_zero, fields_of_halfTransfer]

theorem decodeArm_strh (c : Cond) (p u w : Bool) (rn rd : RegNum) (immH immL : BitVec 4) :
    decodeArm (c.bits ++ 0b000#3 ++ BitVec.ofBool p ++ BitVec.ofBool u ++ 1#1 ++ BitVec.ofBool w ++ 0#1 ++ rn ++ rd ++ immH ++
      0b1011#4 ++ immL) = .ok (.strh c p u w rn rd immH immL) := by
  refine decodeArm_of_row 19 (by decide) (Laws.RowMatch.strh c p u w rn rd immH immL) ?_
  simp only [armTable, List.getElem_cons_succ, List.getElem_cons_zero, fields_of_halfTransfer]

theorem decodeArm_ldm (c : Cond) (p u sbit w : Bool) (rn : RegNum) (list : BitVec 16) :
    decodeArm (c.bits ++ 0b100#3 ++ BitVec.ofBool p ++ BitVec.ofBool u ++ BitVec.ofBool sbit ++ BitVec.ofBool w ++ 1#1 ++ rn ++
      list) = .ok (.ldm c p u sbit w rn list) := by
  refine decodeArm_of_row 20 (by decide) (Laws.RowMatch.ldm c p u sbit w rn list) ?_
  simp only [armTable, List.getElem_cons_succ, List.getElem_cons_zero, fields_of_blockTransfer]

theorem decodeArm_stm (c : Cond) (p u sbit w : Bool) (rn : RegNum) (list : BitVec 16) :
    decodeArm (c.bits ++ 0b100#3 ++ BitVec.ofBool p ++ BitVec.ofBool u ++ BitVec.ofBool sbit ++ BitVec.ofBool w ++ 0#1 ++ rn ++
      list) = .ok (.stm c p u sbit w rn list) := by
  refine decodeArm_of_row 21 (by decide) (Laws.RowMatch.stm c p u sbit w rn list) ?_
  simp only [armTable, List.getElem_cons_succ, List.getElem_cons_zero, fields_of_blockTransfer]

theorem decodeArm_swp (c : Cond) (rn rd rm : RegNum) :
    decodeArm (c.bits ++ 0b00010000#8 ++ rn ++ rd ++ 0b00001001#8 ++ rm) = .ok (.swp c rn rd rm) := by
  refine decodeArm_of_row 22 (by decide) (Laws.RowMatch.swp c rn rd rm) ?_
  simp only [armTable, List.getElem_cons_succ, List.getElem_cons_zero, fields_of_swap]

theorem decodeArm_swpb (c : Cond) (rn rd rm : RegNum) :
    decodeArm (c.bits ++ 0b00010100#8 ++ rn ++ rd ++ 0b00001001#8 ++ rm) = .ok (.swpb c rn rd rm) := by
  refine decodeArm_of_row 23 (by decide) (Laws.RowMatch.swpb c rn rd rm) ?_
  simp only [armTable, List.getElem_cons_succ, List.getElem_cons_zero, fields_of_swap]

end Sys2Proof.Proofs.TransferWords
end

section
/-!
What loads, stores and swaps share: the end of an instruction whose accesses left the pc alone, what a write-back does to the
registers, what a read and a write keep, the answers of the environment counted, and the data abort (60_exceptions.md R226).
-/

namespace Sys2Proof.Proofs.TransferRules
open Sys2Proof Sys2Proof.Machine Sys2Proof.Proofs.MemoryAccess Sys2Proof.Proofs.DataProcessing

/-! ## How a transfer ends -/

theorem pc_eq_of_regs_eq {s t : State} (h : t.regs = s.regs) : t.pc = s.pc := by rw [State.pc, h, State.pc]

theorem advance_eq_of_pc_eq {s t : State} {n : Nat} (hpc : t.pc = s.pc) (h : s.canAdvance n) :
    advance n t = .next (t.setPc (s.pc + BitVec.ofNat 32 n)) := by
  rw [advance_eq (by rwa [State.canAdvance, hpc]), State.stepped, hpc]

theorem advance_refused_of_pc_eq {s t : State} {n : Nat} (hpc : t.pc = s.pc) (h : ¬ s.canAdvance n) :
    advance n t = .refused .pcWrap := advance_refused (by rwa [State.canAdvance, hpc])

/-- Assigning the pc leaves every other register. -/
theorem setPc_get {q : PhysReg} (h : q ≠ .r15) (s : State) (v : Word) : (s.setPc v).regs.get q = s.regs.get q :=
  RegFile.get_set_ne s.regs h v

/-! ## The write-back -/

theorem writeBack_regs_congr {s t : State} (hr : t.regs = s.regs) (hc : t.cpsr = s.cpsr) (i : RegNum) (wb : Option Word) :
    (t.writeBack i wb).regs = (s.writeBack i wb).regs := by
  cases wb with
  | none => exact hr
  | some v => simp only [State.writeBack, State.setReg_regs, hr, hc]

/-- The write-back of a block transfer is that of a single one. -/
theorem ite_setReg_eq_writeBack (w : Bool) (s : State) (i : RegNum) (v : Word) :
    (if w then s.setReg i v else s) = s.writeBack i (if w then some v else none) := by
  cases w <;> rfl

/-- The base register after the write-back. -/
theorem writeBack_get_base (s : State) (i : RegNum) (v : Word) :
    (s.writeBack i (some v)).regs.get (bank s.cpsr.mode i) = .value v := RegFile.get_set_self ..

/-- Every other register after the write-back. -/
theorem writeBack_get_of_ne (s : State) {i : RegNum} {wb : Option Word} {q : PhysReg}
    (h : wb.isSome = true → q ≠ bank s.cpsr.mode i) : (s.writeBack i wb).regs.get q = s.regs.get q := by
  cases wb with
  | none => rfl
  | some v => exact RegFile.get_set_ne s.regs (h rfl) v

/-- A write-back and the step of the pc touch registers alone. -/
theorem writeBack_setPc_frame (s : State) (i : RegNum) (wb : Option Word) (v : Word) :
    let t := (s.writeBack i wb).setPc v
    t.mem = s.mem ∧ t.modified = s.modified ∧ SameStatus s t ∧ t.draws = s.draws ∧ t.aborts = s.aborts := by
  simp [SameStatus]

theorem sameStatus_trans {s t u : State} (hst : SameStatus s t) (htu : SameStatus t u) : SameStatus s u := by
  obtain ⟨hc, hp, hw, hcfg, hl⟩ := hst
  rwa [SameStatus, ← hc, ← hp, ← hw, ← hcfg, ← hl]

/-! ## Accesses -/

theorem aligned_iff {size : Size} {addr : Word} : aligned size addr = true ↔ addr.toNat % size.bytes = 0 :=
  decide_eq_true_iff

theorem not_aligned {size : Size} {addr : Word} (h : addr.toNat % size.bytes ≠ 0) : aligned size addr = false :=
  decide_eq_false h

/-- A read of bytes that hold values. -/
theorem memRead_of_valueAt? {size : Size} {addr v : Word} {s : State} (hs : s.abortNow = false)
    (hv : valueAt? s.cfg.bigEndian size s.mem addr.toNat = some v) : memRead size addr s = (some v, s.answered) := by
  obtain ⟨bs, hlen, hbs, rfl⟩ := valueAt?_eq_some_iff.1 hv
  exact memRead_of_holdsBytes hs hlen hbs

theorem memRead_aborted {s : State} (h : s.abortNow = true) (size : Size) (addr : Word) :
    memRead size addr s = (none, s.answered) := if_pos h

theorem memWrite_aborted {s : State} (h : s.abortNow = true) (size : Size) (addr v : Word) :
    memWrite size addr v s = (false, s.answered) := if_pos h

/-- What a write leaves alone, answered ok or not. -/
theorem memWrite_frame {size : Size} {addr v : Word} {s t : State} {ok : Bool} (h : memWrite size addr v s = (ok, t)) :
    t.regs = s.regs ∧ SameStatus s t ∧ t.draws = s.draws ∧ t.aborts = s.aborts.tail := by
  obtain ⟨-, hw⟩ | ⟨-, hw⟩ := memWrite_cases size addr v s
  · cases hw.symm.trans h
    exact ⟨rfl, ⟨rfl, rfl, rfl, rfl, rfl⟩, rfl, rfl⟩
  · obtain ⟨m, d, hm⟩ := writeBytes_state (storeBytes s.cfg.bigEndian size v) addr.toNat s.answered
    cases (hw.trans (by rw [hm])).symm.trans h
    exact ⟨rfl, ⟨rfl, rfl, rfl, rfl, rfl⟩, rfl, rfl⟩

/-- A write that is answered ok: the value at the address, every other byte as before. -/
theorem memWrite_valueAt? {s : State} (hs : s.abortNow = false) (size : Size) (addr v : Word) :
    ∃ t, memWrite size addr v s = (true, t) ∧
      valueAt? s.cfg.bigEndian size t.mem addr.toNat = some (narrowed size v) ∧ SameOutside s t addr.toNat size.bytes := by
  obtain ⟨t, hw, hbs, hout, -, -⟩ := memWrite_holdsBytes hs size addr v
  exact ⟨t, hw, valueAt?_eq_some_iff.2 ⟨_, storeBytes_length .., hbs, assemble_storeBytes ..⟩, hout⟩

/-! ## The answers of the environment -/

/-- After k answers the coming one is number k. -/
theorem abortNow_of_aborts_eq_drop {s t : State} {k : Nat} (h : t.aborts = s.aborts.drop k) :
    t.abortNow = s.aborts.getD k false := by
  rw [State.abortNow, h, List.headD_eq_head?_getD, List.head?_drop, List.getD_eq_getElem?_getD]

theorem quiet_snoc {s : State} {n : Nat} : s.quiet (n + 1) ↔ s.quiet n ∧ s.aborts.getD n false = false :=
  Nat.forall_lt_succ_right

theorem quiet_mono {s : State} {m n : Nat} (hmn : m ≤ n) (h : s.quiet n) : s.quiet m :=
  fun k hk => h k (by omega)

/-- Two accesses are answered ok: the first, and the second after it. -/
theorem quiet_two {s : State} : s.quiet 2 ↔ s.abortNow = false ∧ s.answered.abortNow = false := by
  rw [quiet_snoc, quiet_snoc, abortNow_of_aborts_eq_drop (s := s) (t := s) (k := 0) rfl,
    abortNow_of_aborts_eq_drop (s := s) (t := s.answered) (k := 1) List.drop_one.symm]
  exact and_congr_left fun _ => and_iff_right fun _ hk => absurd hk (Nat.not_lt_zero _)

/-! ## The data abort -/

/-- A data abort from a state with the status and the pc of s is the one that s takes. -/
theorem entered_dataAbort {s t : State} (hc : t.cpsr = s.cpsr) (hp : t.spsrs = s.spsrs) (hpc : t.pc = s.pc) :
    Entered .dataAbort (s.pc + 8#32) s (dataAbort t) := by
  refine ⟨by rw [dataAbort, raise_cpsr, hc], by rw [dataAbort, raise_spsrs, hc, hp], ?_, rfl⟩
  rw [dataAbort, hpc]
  exact raise_get .dataAbort _ t .r14abt

/-- A data abort changes no register but R14_abt and the pc. -/
theorem dataAbort_get {q : PhysReg} (h15 : q ≠ .r15) (h14 : q ≠ .r14abt) (t : State) :
    (dataAbort t).regs.get q = t.regs.get q := by
  rw [dataAbort, raise_get, if_neg h15]
  exact if_neg h14

end Sys2Proof.Proofs.TransferRules
end

section
/-!
Single data transfers (43_load_store.md R160 to R165, R170, R174): the address and its refusals once for loads and stores,
then each past them.
-/

namespace Sys2Proof.Proofs.SingleTransfers
open Sys2Proof Sys2Proof.Machine Sys2Proof.Proofs.TransferWords Sys2Proof.Proofs.TransferRules

/-! ## The instructions -/

theorem exec_load_of_passes {i : Instr} {x : Transfer} {s : State} (hi : loadForm i = some x) (hc : s.passes x.cond) :
    exec i s = load x.size x.p x.u x.w x.rn x.rd x.offset s := by
  cases i with
  | ldr | ldrb | ldrh => cases hi; exact conditional_passes hc _
  | _ => cases hi

theorem exec_store_of_passes {i : Instr} {x : Transfer} {s : State} (hi : storeForm i = some x) (hc : s.passes x.cond) :
    exec i s = store x.size x.p x.u x.w x.rn x.rd x.offset s := by
  cases i with
  | str | strb | strh => cases hi; exact conditional_passes hc _
  | _ => cases hi

/-- A load or a store whose condition passes is an address computation and an access. -/
theorem exec_transfer_of_passes {i : Instr} {x : Transfer} {s : State} (hi : loadForm i = some x ∨ storeForm i = some x)
    (hc : s.passes x.cond) : ∃ body, exec i s = withTransfer x.size x.p x.u x.w x.rn x.rd x.offset s body := by
  obtain hi | hi := hi
  · exact ⟨_, exec_load_of_passes hi hc⟩
  · exact ⟨_, exec_store_of_passes hi hc⟩

/-! ## The address -/

section Refusals
variable {size : Size} {p u w : Bool} {rn rd : RegNum} {offset : Word} {s : State} (body : Word → Option Word → Result)

theorem withTransfer_base_r15 (hn : rn = 15#4) :
    withTransfer size p u w rn rd offset s body = .refused .r15Operand := if_pos hn

theorem withTransfer_data_r15 (hn : rn ≠ 15#4) (hd : rd = 15#4) :
    withTransfer size p u w rn rd offset s body = .refused .r15DataRegister := by
  rw [withTransfer, if_neg hn, if_pos hd]

theorem withTransfer_postIndexedW (hn : rn ≠ 15#4) (hd : rd ≠ 15#4) :
    withTransfer size false u true rn rd offset s body = .refused .postIndexedW := by
  rw [withTransfer, if_neg hn, if_neg hd]
  rfl

variable {addr : Word} {wb : Option Word}

theorem withTransfer_writebackToData (hn : rn ≠ 15#4) (hd : rd ≠ 15#4)
    (ha : transferAddress p u w (s.reg rn) offset = some (addr, wb)) (hwb : wb.isSome = true ∧ rn = rd) :
    withTransfer size p u w rn rd offset s body = .refused .writebackToData := by
  rw [withTransfer, if_neg hn, if_neg hd, ha]
  exact if_pos hwb

theorem withTransfer_misaligned (hn : rn ≠ 15#4) (hd : rd ≠ 15#4)
    (ha : transferAddress p u w (s.reg rn) offset = some (addr, wb)) (hwb : ¬ (wb.isSome = true ∧ rn = rd))
    (hal : addr.toNat % size.bytes ≠ 0) : withTransfer size p u w rn rd offset s body = .refused .misalignedAccess := by
  rw [withTransfer, if_neg hn, if_neg hd, ha]
  exact (if_neg hwb).trans (if_neg (by rw [not_aligned hal]; decide))

end Refusals

/-- Past the refusals of R174 a transfer is its access. -/
theorem withTransfer_of_legal {x : Transfer} {s : State} {addr : Word} {wb : Option Word} (h : x.legal s addr wb)
    (body : Word → Option Word → Result) :
    withTransfer x.size x.p x.u x.w x.rn x.rd x.offset s body = body addr wb := by
  obtain ⟨hn, hd, ha, hwb, hal⟩ := h
  exact withTransfer_eq hn hd ha hwb (aligned_iff.2 hal) body

/-! ## Past the refusals -/

section Legal
variable {x : Transfer} {s : State} {addr : Word} {wb : Option Word}

theorem load_of_legal {v : Word} {t : State} (h : x.legal s addr wb) (hr : memRead x.size addr s = (some v, t)) :
    load x.size x.p x.u x.w x.rn x.rd x.offset s = advance 4 ((t.setReg x.rd v).writeBack x.rn wb) := by
  rw [load, withTransfer_of_legal h, hr]

theorem load_of_abort (h : x.legal s addr wb) (hs : s.abortNow = true) :
    load x.size x.p x.u x.w x.rn x.rd x.offset s =
      .next (dataAbort ((s.answered.writeBack x.rn wb).putReg x.rd .unspecified)) := by
  rw [load, withTransfer_of_legal h, memRead_aborted hs]

theorem store_of_legal {t : State} (h : x.legal s addr wb) (hw : memWrite x.size addr (s.second x.rd) s = (true, t)) :
    store x.size x.p x.u x.w x.rn x.rd x.offset s = advance 4 (t.writeBack x.rn wb) := by
  rw [store, withTransfer_of_legal h, hw]

theorem store_of_abort (h : x.legal s addr wb) (hs : s.abortNow = true) :
    store x.size x.p x.u x.w x.rn x.rd x.offset s =
      .next (dataAbort (forgetBytes x.size.bytes addr.toNat (s.answered.writeBack x.rn wb))) := by
  rw [store, withTransfer_of_legal h, memWrite_aborted hs]

/-- Rd and the base are no pc. -/
theorem loaded_pc (h : x.legal s addr wb) (t : State) (v : Word) : ((t.setReg x.rd v).writeBack x.rn wb).pc = t.pc := by
  obtain ⟨hn, hd, -⟩ := h
  rw [State.writeBack_pc _ hn, State.setReg_pc _ hd]

theorem entered_of_load_abort (h : x.legal s addr wb) :
    Entered .dataAbort (s.pc + 8#32) s (dataAbort ((s.answered.writeBack x.rn wb).putReg x.rd .unspecified)) := by
  obtain ⟨hn, hd, -⟩ := h
  exact entered_dataAbort (by simp) (by simp) (by rw [State.putReg_pc _ hd, State.writeBack_pc _ hn, State.answered_pc])

theorem entered_of_store_abort (h : x.legal s addr wb) :
    Entered .dataAbort (s.pc + 8#32) s
      (dataAbort (forgetBytes x.size.bytes addr.toNat (s.answered.writeBack x.rn wb))) := by
  obtain ⟨m, d, hf⟩ := forgetBytes_state x.size.bytes addr.toNat (s.answered.writeBack x.rn wb)
  rw [hf]
  exact entered_dataAbort (by simp) (by simp) (s.answered.writeBack_pc h.1 wb)

end Legal

/-! ## The obligations -/

/-- Settles O16: the four addressing modes, and the tests of `withTransfer` in their order. -/
theorem transferAddress : Obligations.TransferAddress := by
  refine ⟨fun u base offset => ⟨rfl, rfl, rfl, rfl⟩, fun i x s hi hc => ?_⟩
  obtain ⟨body, hx⟩ := exec_transfer_of_passes hi hc
  rw [hx]
  refine ⟨fun hn => ?baseR15, fun hn hd => ?dataR15, fun hn hd hp hw => ?postIndexedW, fun addr wb hn hd ha =>
    ⟨fun hwb hnd => ?writebackToData, fun hwb hal => ?misaligned⟩⟩
  case baseR15 => exact withTransfer_base_r15 body hn
  case dataR15 => exact withTransfer_data_r15 body hn hd
  case postIndexedW => rw [hp, hw, withTransfer_postIndexedW body hn hd]
  case writebackToData => exact withTransfer_writebackToData body hn hd ha ⟨hwb, hnd⟩
  case misaligned => exact withTransfer_misaligned body hn hd ha hwb hal

/-- Settles O17: past the refusals a load is one read, and `memRead` answers with the value, with free bytes or with an
abort. -/
theorem loadReadsMemory : Obligations.LoadReadsMemory := by
  refine ⟨fun c p u w rn rd off => ⟨decodeArm_ldr c p u w rn rd off, decodeArm_ldrb c p u w rn rd off⟩, decodeArm_ldrh,
    fun i x s addr wb hi hc hx => ?_⟩
  rw [exec_load_of_passes hi hc]
  refine ⟨fun v hs hadv hv => ?loaded, fun hs hadv => ?lastAddress, fun hs => ?aborted⟩
  case loaded =>
    rw [load_of_legal hx (memRead_of_valueAt? hs hv)]
    exact advance_eq_of_pc_eq (loaded_pc hx ..) hadv
  case lastAddress =>
    rw [load_of_legal hx (memRead_found hs ..)]
    exact advance_refused_of_pc_eq (loaded_pc hx ..) hadv
  case aborted => exact ⟨_, load_of_abort hx hs, entered_of_load_abort hx⟩

/-- Settles O19: past the refusals a store is one write, after which registers and status are those of the write-back. -/
theorem storeWritesMemory : Obligations.StoreWritesMemory := by
  refine ⟨fun c p u w rn rd off => ⟨decodeArm_str c p u w rn rd off, decodeArm_strb c p u w rn rd off⟩, decodeArm_strh,
    fun i x s addr wb hi hc hx => ?_⟩
  have hwbPc {t : State} (hr : t.regs = s.regs) : (t.writeBack x.rn wb).pc = s.pc := by
    rw [t.writeBack_pc hx.1, pc_eq_of_regs_eq hr]
  rw [exec_store_of_passes hi hc]
  refine ⟨fun hs hadv => ?stored, fun hs hadv => ?lastAddress, fun hs => ?aborted⟩
  case stored =>
    obtain ⟨t, hw, hv, hout⟩ := memWrite_valueAt? hs x.size addr (s.second x.rd)
    obtain ⟨hr, hst, hdr, hab⟩ := memWrite_frame hw
    refine ⟨_, by rw [store_of_legal hx hw, advance_eq_of_pc_eq (hwbPc hr) hadv], ?_⟩
    obtain ⟨hmem, -, hst', hdr', hab'⟩ := writeBack_setPc_frame t x.rn wb (s.pc + 4#32)
    refine ⟨hmem ▸ hv, fun a ha => hmem ▸ hout a ha, ?_, sameStatus_trans hst hst', hdr'.trans hdr, hab'.trans hab⟩
    rw [State.setPc_regs, State.setPc_regs, writeBack_regs_congr hr hst.1]
  case lastAddress =>
    obtain ⟨t, hw, -⟩ := memWrite_valueAt? hs x.size addr (s.second x.rd)
    obtain ⟨hr, -⟩ := memWrite_frame hw
    rw [store_of_legal hx hw, advance_refused_of_pc_eq (hwbPc hr) hadv]
  case aborted => exact ⟨_, store_of_abort hx hs, entered_of_store_abort hx⟩

end Sys2Proof.Proofs.SingleTransfers
end

section
/-!
The swaps (43_load_store.md R168, R169, R171): a read and a write at one address, and what is left of them when either aborts.
-/

namespace Sys2Proof.Proofs.Swaps
open Sys2Proof Sys2Proof.Machine Sys2Proof.Proofs.TransferWords Sys2Proof.Proofs.TransferRules

theorem exec_swap_of_passes {i : Instr} {c : Cond} {size : Size} {rn rd rm : RegNum} {s : State}
    (hi : swapForm i = some (c, size, rn, rd, rm)) (hc : s.passes c) : exec i s = swap size rn rd rm s := by
  cases i with
  | swp | swpb => cases hi; exact conditional_passes hc _
  | _ => cases hi

/-! ## The refusals -/

section Cases
variable {size : Size} {rn rd rm : RegNum} {s : State}

theorem swap_r15 (h : rd = 15#4 ∨ rm = 15#4 ∨ rn = 15#4) : swap size rn rd rm s = .refused .r15InSwap := if_pos h

theorem swap_baseIsData (hd : rd ≠ 15#4) (hm : rm ≠ 15#4) (hn : rn ≠ 15#4) (h : rn = rm ∨ rn = rd) :
    swap size rn rd rm s = .refused .swapBaseIsData := by
  rw [swap, if_neg (by simp [hd, hm, hn]), if_pos h]

theorem swap_misaligned (hd : rd ≠ 15#4) (hm : rm ≠ 15#4) (hn : rn ≠ 15#4) (hnm : rn ≠ rm) (hnd : rn ≠ rd)
    (hal : (s.reg rn).toNat % size.bytes ≠ 0) : swap size rn rd rm s = .refused .misalignedAccess := by
  rw [swap, if_neg (by simp [hd, hm, hn]), if_neg (by simp [hnm, hnd]), if_pos (not_aligned hal)]

/-! ## Past the refusals -/

theorem swap_of_read_abort {t : State} (h : s.swapLegal size rn rd rm) (hr : memRead size (s.reg rn) s = (none, t)) :
    swap size rn rd rm s = .next (dataAbort t) := by
  obtain ⟨hn, hd, hm, hnm, hnd, hal⟩ := h
  simp [swap, hn, hd, hm, hnm, hnd, aligned_iff.2 hal, hr]

/-- After the read a swap goes on as its write is answered. -/
theorem swap_of_read_ok {v : Word} {t u : State} {ok : Bool} (h : s.swapLegal size rn rd rm)
    (hr : memRead size (s.reg rn) s = (some v, t)) (hw : memWrite size (s.reg rn) (s.second rm) t = (ok, u)) :
    swap size rn rd rm s = if ok then advance 4 (u.setReg rd v) else .next (dataAbort u) := by
  obtain ⟨hn, hd, hm, hnm, hnd, hal⟩ := h
  cases ok <;> simp [swap, hn, hd, hm, hnm, hnd, aligned_iff.2 hal, hr, hw]

/-- Both accesses answered ok: Rd receives what the read found, and memory what Rm held before. -/
theorem swap_of_quiet (h : s.swapLegal size rn rd rm) (hq : s.quiet 2) {v : Word} {k : Nat}
    (hr : memRead size (s.reg rn) s = (some v, s.answered.drew k)) :
    ∃ u, swap size rn rd rm s = advance 4 (u.setReg rd v) ∧
      valueAt? s.cfg.bigEndian size u.mem (s.reg rn).toNat = some (narrowed size (s.second rm)) ∧
      SameOutside s u (s.reg rn).toNat size.bytes ∧ u.regs = s.regs ∧ SameStatus s u ∧ u.draws = s.draws + k ∧
      u.aborts = s.aborts.drop 2 := by
  have hs : (s.answered.drew k).abortNow = false := (quiet_two.1 hq).2
  obtain ⟨u, hw, hv, hout⟩ := memWrite_valueAt? hs size (s.reg rn) (s.second rm)
  obtain ⟨hregs, hst, hdr, hab⟩ := memWrite_frame hw
  refine ⟨u, swap_of_read_ok h hr hw, hv, hout, hregs, hst, hdr, ?_⟩
  rw [hab, State.drew_aborts, State.answered_aborts, ← List.drop_one, ← List.drop_one, List.drop_drop]

theorem exchanged_pc {u : State} (h : s.swapLegal size rn rd rm) (hu : u.regs = s.regs) (v : Word) :
    (u.setReg rd v).pc = s.pc := by
  obtain ⟨-, hd, -⟩ := h
  rw [State.setReg_pc _ hd, pc_eq_of_regs_eq hu]

/-- Whichever access aborts, the data abort is taken from a state that differs only in answers and draws. -/
theorem swap_of_abort (h : s.swapLegal size rn rd rm) (hq : ¬ s.quiet 2) :
    ∃ as d, swap size rn rd rm s = .next (dataAbort { s with aborts := as, draws := d }) := by
  obtain ⟨-, hr⟩ | ⟨hs, k, v, hr⟩ := memRead_cases size (s.reg rn) s
  · exact ⟨s.aborts.tail, s.draws, swap_of_read_abort h hr⟩
  · have hs' : (s.answered.drew k).abortNow = true :=
      (Bool.eq_false_or_eq_true _).resolve_right fun h' => hq (quiet_two.2 ⟨hs, h'⟩)
    exact ⟨s.aborts.tail.tail, s.draws + k, swap_of_read_ok h hr (memWrite_aborted hs' ..)⟩

end Cases

/-! ## The obligations -/

/-- Settles O28: the tests of `swap` in their order, then its read and its write. -/
theorem swapExchanges : Obligations.SwapExchanges := by
  refine ⟨fun c rn rd rm => ⟨decodeArm_swp c rn rd rm, decodeArm_swpb c rn rd rm⟩, fun i c size rn rd rm s hi hc => ?_⟩
  rw [exec_swap_of_passes hi hc]
  refine ⟨swap_r15, swap_baseIsData, swap_misaligned, fun v hx hq hadv hv => ?exchanged, fun hx hq hadv => ?lastAddress,
    fun hx hq => ?aborted⟩
  case exchanged =>
    obtain ⟨u, hu, hvu, hout, hregs, hst, hdr, hab⟩ :=
      swap_of_quiet (k := 0) hx hq (memRead_of_valueAt? (quiet_two.1 hq).1 hv)
    obtain ⟨hmem, -, hst', hdr', hab'⟩ := writeBack_setPc_frame u rd (some v) (s.pc + 4#32)
    refine ⟨_, hu.trans (advance_eq_of_pc_eq (exchanged_pc hx hregs v) hadv), hmem ▸ hvu, fun a ha => hmem ▸ hout a ha, ?_,
      sameStatus_trans hst hst', hdr'.trans hdr, hab'.trans hab⟩
    rw [State.setPc_regs, State.setPc_regs, State.setReg_regs, State.setReg_regs, hregs, hst.1]
  case lastAddress =>
    obtain ⟨u, hu, -, -, hregs, -⟩ := swap_of_quiet hx hq (memRead_found (quiet_two.1 hq).1 ..)
    exact hu.trans (advance_refused_of_pc_eq (exchanged_pc hx hregs _) hadv)
  case aborted =>
    obtain ⟨as, d, hx⟩ := swap_of_abort hx hq
    exact ⟨_, hx, entered_dataAbort rfl rfl rfl⟩

/-- Settles O29: the state a swap aborts from has the memory and the registers of the start. -/
theorem swapAbort : Obligations.SwapAbort := by
  intro i c size rn rd rm s hi hc hx hq
  rw [exec_swap_of_passes hi hc]
  obtain ⟨as, d, hx⟩ := swap_of_abort hx hq
  exact ⟨_, hx, entered_dataAbort rfl rfl rfl, rfl, rfl, fun q h15 h14 => dataAbort_get h15 h14 _⟩

end Sys2Proof.Proofs.Swaps
end

section
/-!
Block transfers (43_load_store.md R166, R167, R172, R175): the register list, the addresses, and the loops of LDM and STM, each
described at its number k by what the accesses before it and after it leave alone.
-/

namespace Sys2Proof.Proofs.BlockTransfers
open Sys2Proof Sys2Proof.Machine Sys2Proof.Proofs.MemoryAccess Sys2Proof.Proofs.TransferRules

/-! ## The register list -/

theorem mem_regsOf {list : BitVec 16} {i : RegNum} : i ∈ regsOf list ↔ list.getLsbD i.toNat = true := by
  have hall : ∀ j : RegNum, j ∈ allRegs := by decide
  rw [regsOf, List.mem_filter]
  exact and_iff_right (hall i)

theorem regsOf_nodup (list : BitVec 16) : (regsOf list).Nodup :=
  List.Nodup.filter _ (by decide : allRegs.Nodup)

theorem length_regsOf_le (list : BitVec 16) : (regsOf list).length ≤ 16 := List.length_filter_le _ allRegs

/-- R15 is the last register of a list that holds it. -/
theorem getLast?_regsOf {list : BitVec 16} (h : list.getLsbD 15 = true) : (regsOf list).getLast? = some 15#4 := by
  have hall : allRegs = allRegs.dropLast ++ [15#4] := by decide
  have h15 : [15#4].filter (fun i => list.getLsbD i.toNat) = [15#4] := List.filter_cons_of_pos h
  rw [regsOf, hall, List.filter_append, h15, List.getLast?_concat]

theorem r15_mem_regsOf {list : BitVec 16} : 15#4 ∈ regsOf list ↔ list.getLsbD 15 = true := mem_regsOf

/-- No register before the last is R15. -/
theorem regsOf_ne_r15 {list : BitVec 16} {k : Nat} {i : RegNum} (hi : (regsOf list)[k]? = some i)
    (hk : k + 1 < (regsOf list).length) : i ≠ 15#4 := by
  rintro rfl
  have hlast := getLast?_regsOf (r15_mem_regsOf.1 (List.mem_of_getElem? hi))
  rw [List.getLast?_eq_getElem?] at hlast
  have := (List.getElem?_inj (by omega) (regsOf_nodup list)).1 (hi.trans hlast.symm)
  omega

theorem getElem?_append_split {is : List RegNum} {k : Nat} {i : RegNum} (h : is[k]? = some i) :
    is = is.take k ++ i :: is.drop (k + 1) := by
  obtain ⟨hk, rfl⟩ := List.getElem?_eq_some_iff.1 h
  rw [← List.drop_eq_getElem_cons hk, List.take_append_drop]

/-- In a list without repetitions an element does not come again. -/
theorem not_mem_drop_succ {is : List RegNum} {k : Nat} {i : RegNum} (hnd : is.Nodup) (hi : is[k]? = some i) :
    i ∉ is.drop (k + 1) := by
  have h : (is.take k ++ i :: is.drop (k + 1)).Nodup := by rwa [← getElem?_append_split hi]
  exact (List.Nodup.of_append_right h).notMem

/-! ## Addresses -/

/-- The address of access number k of a loop that starts at an address. -/
def wordAddr (start : Word) (k : Nat) : Word := start + BitVec.ofNat 32 (4 * k)

@[simp] theorem wordAddr_zero (start : Word) : wordAddr start 0 = start := BitVec.add_zero start

theorem wordAddr_next (start : Word) (k : Nat) : wordAddr (start + 4#32) k = wordAddr start (k + 1) := by
  rw [wordAddr, wordAddr, BitVec.add_assoc, BitVec.ofNat_add_ofNat]
  congr 2
  omega

theorem wordAddr_add_four (start : Word) (k : Nat) : wordAddr start k + 4#32 = wordAddr start (k + 1) := by
  rw [← wordAddr_next, wordAddr, wordAddr, BitVec.add_assoc, BitVec.add_assoc, BitVec.add_comm 4#32]

theorem blockAddr_eq (p u : Bool) (base : Word) (list : BitVec 16) (k : Nat) :
    blockAddr p u base list k = (wordAddr (blockRange p u base (regsOf list).length).1 k).toNat := rfl

theorem toNat_wordAddr (start : Word) (k : Nat) : (wordAddr start k).toNat = (start.toNat + 4 * k) % 2 ^ 32 := by
  rw [wordAddr, BitVec.toNat_add, BitVec.toNat_ofNat, Nat.add_mod_mod]

/-- The words of a block do not overlap, a block having at most 16. -/
theorem wordAddr_disjoint (start : Word) {j k : Nat} (hj : j < 16) (hk : k < 16) (hne : j ≠ k) :
    (wordAddr start j).toNat + 4 ≤ (wordAddr start k).toNat ∨ (wordAddr start k).toNat + 4 ≤ (wordAddr start j).toNat := by
  rw [toNat_wordAddr, toNat_wordAddr]
  omega

/-! ## The write-back -/

/-- What a block transfer writes back. -/
def writtenBack (p u w : Bool) (rn : RegNum) (list : BitVec 16) (s : State) : Option Word :=
  if w then some (blockWb p u (s.reg rn) list) else none

theorem writtenBack_isSome (p u w : Bool) (rn : RegNum) (list : BitVec 16) (s : State) :
    (writtenBack p u w rn list s).isSome = w := by
  cases w <;> rfl

/-! ## The loop of LDM -/

theorem loadBlock_append (is js : List RegNum) (start : Word) (b : BlockLoad) :
    loadBlock (is ++ js) start b = loadBlock js (wordAddr start is.length) (loadBlock is start b) := by
  induction is generalizing start b with
  | nil => simp [loadBlock]
  | cons i is ih => rw [List.cons_append, loadBlock, ih, wordAddr_next]; rfl

theorem loadBlock_snoc (is : List RegNum) (i : RegNum) (start : Word) (b : BlockLoad) :
    loadBlock (is ++ [i]) start b = loadOne i (wordAddr start is.length) (loadBlock is start b) :=
  loadBlock_append is [i] start b

/-- What access number k of a block reads: `found` after the draws of the accesses before it. -/
def wordFound (s : State) (start : Word) (k : Nat) : Word :=
  found s.cfg.bigEndian .word s.mem (wordAddr start k).toNat
    (s.draws + blockDraws s.mem (fun j => (wordAddr start j).toNat) k)

/-- One load that aborts. -/
theorem loadOne_of_abort {b : BlockLoad} (h : b.state.abortNow = true) (i : RegNum) (addr : Word) :
    loadOne i addr b = { b with aborted := true, state := b.state.answered } := by
  rw [loadOne, memRead_aborted h]

/-- One load that is answered ok: after an abort nothing more is written. -/
theorem loadOne_of_ok {b : BlockLoad} (h : b.state.abortNow = false) (i : RegNum) (addr : Word) :
    let v := found b.state.cfg.bigEndian .word b.state.mem addr.toNat b.state.draws
    let t := b.state.answered.drew (valueless b.state.mem addr.toNat 4)
    loadOne i addr b =
      if b.aborted then { b with state := t }
      else if i = 15#4 then { b with newPc := some v, state := t }
      else { b with state := t.setReg i v } := by
  rw [loadOne, memRead_found h]
  rfl

/-- What one load does to the abort flag, the answers and the draws. -/
theorem loadOne_counts (i : RegNum) (addr : Word) (b : BlockLoad) :
    (loadOne i addr b).aborted = (b.aborted || b.state.abortNow) ∧
      (loadOne i addr b).state.aborts = b.state.aborts.tail ∧
      (b.state.abortNow = false →
        (loadOne i addr b).state.draws = b.state.draws + valueless b.state.mem addr.toNat 4) := by
  cases h : b.state.abortNow with
  | true => simp [loadOne_of_abort h]
  | false =>
    rw [loadOne_of_ok h]
    split_ifs <;> simp_all

/-- One load writes no register but its own, and none after an abort. -/
theorem loadOne_get (i : RegNum) (addr : Word) (b : BlockLoad) {q : PhysReg}
    (hq : b.aborted = true ∨ q ≠ bank b.state.cpsr.mode i) : (loadOne i addr b).state.regs.get q = b.state.regs.get q := by
  cases h : b.state.abortNow with
  | true => rw [loadOne_of_abort h]; rfl
  | false =>
    rw [loadOne_of_ok h]
    split_ifs with ha hi
    · rfl
    · rfl
    · exact RegFile.get_set_ne _ (hq.resolve_left ha) _

theorem loadOne_newPc {i : RegNum} (hi : i ≠ 15#4) (addr : Word) (b : BlockLoad) :
    (loadOne i addr b).newPc = b.newPc := by
  cases h : b.state.abortNow with
  | true => rw [loadOne_of_abort h]
  | false =>
    rw [loadOne_of_ok h]
    split_ifs <;> rfl

section Loop
variable (is : List RegNum) (start : Word) (b : BlockLoad)

theorem loadBlock_mode : (loadBlock is start b).state.cpsr.mode = b.state.cpsr.mode := by
  rw [(loadBlock_frame is start b).1]

/-- Every access of the block uses one answer, after an abort too. -/
theorem loadBlock_aborts : (loadBlock is start b).state.aborts = b.state.aborts.drop is.length := by
  induction is using List.reverseRecOn with
  | nil => rfl
  | append_singleton is i ih =>
    obtain ⟨-, hab, -⟩ := loadOne_counts i (wordAddr start is.length) (loadBlock is start b)
    rw [loadBlock_snoc, hab, ih, ← List.drop_one, List.drop_drop, List.length_append, List.length_singleton]

theorem loadBlock_abortNow : (loadBlock is start b).state.abortNow = b.state.aborts.getD is.length false :=
  abortNow_of_aborts_eq_drop (loadBlock_aborts is start b)

/-- The loop has seen an abort unless every answer was ok. -/
theorem loadBlock_aborted_eq_false_iff :
    (loadBlock is start b).aborted = false ↔ b.aborted = false ∧ b.state.quiet is.length := by
  induction is using List.reverseRecOn with
  | nil => exact (and_iff_left fun k hk => absurd hk (Nat.not_lt_zero k)).symm
  | append_singleton is i ih =>
    obtain ⟨haborted, -⟩ := loadOne_counts i (wordAddr start is.length) (loadBlock is start b)
    rw [loadBlock_snoc, haborted, Bool.or_eq_false_iff, ih, loadBlock_abortNow, List.length_append, List.length_singleton,
      quiet_snoc, and_assoc]

theorem loadBlock_aborted_iff (hb : b.aborted = false) :
    (loadBlock is start b).aborted = true ↔ ¬ b.state.quiet is.length := by
  rw [← Bool.not_eq_false, loadBlock_aborted_eq_false_iff, and_iff_right hb]

/-- The draws of a block without an abort. -/
theorem loadBlock_draws (hq : b.state.quiet is.length) :
    (loadBlock is start b).state.draws =
      b.state.draws + blockDraws b.state.mem (fun j => (wordAddr start j).toNat) is.length := by
  induction is using List.reverseRecOn with
  | nil => rfl
  | append_singleton is i ih =>
    rw [List.length_append, List.length_singleton, quiet_snoc] at hq
    obtain ⟨hq, hlast⟩ := hq
    obtain ⟨-, -, hdr⟩ := loadOne_counts i (wordAddr start is.length) (loadBlock is start b)
    obtain ⟨-, -, hmem, -⟩ := loadBlock_frame is start b
    rw [loadBlock_snoc, hdr ((loadBlock_abortNow ..).trans hlast), ih hq, hmem, List.length_append, List.length_singleton,
      Nat.add_assoc]
    simp [blockDraws, List.range_succ]

/-- A register that the list does not name keeps what it holds. -/
theorem loadBlock_get {q : PhysReg} (hq : ∀ i ∈ is, q ≠ bank b.state.cpsr.mode i) :
    (loadBlock is start b).state.regs.get q = b.state.regs.get q := by
  induction is using List.reverseRecOn with
  | nil => rfl
  | append_singleton is i ih =>
    have hi : q ≠ bank (loadBlock is start b).state.cpsr.mode i := by
      rw [loadBlock_mode]
      exact hq i (by simp)
    rw [loadBlock_snoc, loadOne_get _ _ _ (.inr hi), ih fun j hj => hq j (by simp [hj])]

/-- After an abort no register is written. -/
theorem loadBlock_get_of_aborted (hb : b.aborted = true) (q : PhysReg) :
    (loadBlock is start b).state.regs.get q = b.state.regs.get q := by
  induction is generalizing start b with
  | nil => rfl
  | cons i is ih =>
    obtain ⟨haborted, -⟩ := loadOne_counts i start b
    rw [loadBlock, ih _ _ (by rw [haborted, hb]; rfl), loadOne_get _ _ _ (.inl hb)]

/-- An abort at the first access leaves every register. -/
theorem loadBlock_get_of_abortNow (hb : b.state.abortNow = true) (q : PhysReg) :
    (loadBlock is start b).state.regs.get q = b.state.regs.get q := by
  cases is with
  | nil => rfl
  | cons i is =>
    rw [loadBlock, loadOne_of_abort hb, loadBlock_get_of_aborted _ _ _ rfl]
    rfl

theorem loadBlock_newPc_of_not_mem (h : 15#4 ∉ is) : (loadBlock is start b).newPc = b.newPc := by
  induction is generalizing start b with
  | nil => rfl
  | cons i is ih =>
    obtain ⟨hi, his⟩ := List.ne_and_not_mem_of_not_mem_cons h
    rw [loadBlock, ih _ _ his, loadOne_newPc (Ne.symm hi)]

variable {is b} {k : Nat} {i : RegNum}

/-- The loop around access number k. -/
theorem loadBlock_split (hi : is[k]? = some i) :
    loadBlock is start b =
      loadBlock (is.drop (k + 1)) (wordAddr start (k + 1))
        (loadOne i (wordAddr start k) (loadBlock (is.take k) start b)) := by
  have hlen : (is.take k).length = k := List.length_take_of_le (List.getElem?_eq_some_iff.1 hi).1.le
  conv_lhs => rw [getElem?_append_split hi, loadBlock_append, hlen, loadBlock, wordAddr_add_four]

/-- Before access number k, when the answers up to it are ok: no abort so far, none to come, and the word to be read. -/
theorem loadBlock_take_running (hk : k < is.length) (hb : b.aborted = false) (hq : b.state.quiet (k + 1)) :
    let c := loadBlock (is.take k) start b
    c.aborted = false ∧ c.state.abortNow = false ∧
      found c.state.cfg.bigEndian .word c.state.mem (wordAddr start k).toNat c.state.draws = wordFound b.state start k := by
  obtain ⟨hq, hlast⟩ := quiet_snoc.1 hq
  have hlen : (is.take k).length = k := List.length_take_of_le hk.le
  obtain ⟨-, -, hmem, -, -, hcfg, -⟩ := loadBlock_frame (is.take k) start b
  refine ⟨(loadBlock_aborted_eq_false_iff ..).2 ⟨hb, by rwa [hlen]⟩, by rw [loadBlock_abortNow, hlen, hlast], ?_⟩
  rw [hmem, hcfg, loadBlock_draws _ _ _ (by rwa [hlen]), hlen]
  rfl

/-- Register number k of the list holds the word that access number k reads. -/
theorem loadBlock_held (hnd : is.Nodup) (hi : is[k]? = some i) (h15 : i ≠ 15#4) (hb : b.aborted = false)
    (hq : b.state.quiet (k + 1)) :
    (loadBlock is start b).state.regs.get (bank b.state.cpsr.mode i) = .value (wordFound b.state start k) := by
  obtain ⟨hna, hok, hword⟩ := loadBlock_take_running start (List.getElem?_eq_some_iff.1 hi).1 hb hq
  obtain ⟨hcpsr, -⟩ := loadOne_frame i (wordAddr start k) (loadBlock (is.take k) start b)
  have hmode := loadBlock_mode (is.take k) start b
  rw [loadBlock_split start hi, loadBlock_get]
  · rw [loadOne_of_ok hok, if_neg (by simp [hna]), if_neg h15, ← hmode, ← hword]
    exact RegFile.get_set_self ..
  · intro j hj hbank
    rw [hcpsr, hmode] at hbank
    exact not_mem_drop_succ hnd hi (bank_injective _ _ _ hbank ▸ hj)

/-- The pc of the list is the word that its access reads. -/
theorem loadBlock_newPc (hnd : is.Nodup) (hi : is[k]? = some 15#4) (hb : b.aborted = false) (hq : b.state.quiet (k + 1)) :
    (loadBlock is start b).newPc = some (wordFound b.state start k) := by
  obtain ⟨hna, hok, hword⟩ := loadBlock_take_running start (List.getElem?_eq_some_iff.1 hi).1 hb hq
  rw [loadBlock_split start hi, loadBlock_newPc_of_not_mem _ _ _ (not_mem_drop_succ hnd hi), loadOne_of_ok hok,
    if_neg (by simp [hna]), if_pos rfl, ← hword]

end Loop

/-! ## Words that hold values -/

theorem foundByte_of_holdsBytes {m : Memory} {a d j : Nat} {bs : List Byte} (h : HoldsBytes m a bs) (hj : j < bs.length) :
    foundByte m a d j = bs[j] := by
  rw [foundByte, h j hj]
  rfl

/-- Where the bytes hold values an access finds them, whatever the draws. -/
theorem found_of_valueAt? {be : Bool} {size : Size} {m : Memory} {a : Nat} {v : Word}
    (h : valueAt? be size m a = some v) (d : Nat) : found be size m a d = v := by
  obtain ⟨bs, hlen, hbs, rfl⟩ := valueAt?_eq_some_iff.1 h
  rw [found_eq_assemble, ← hlen]
  congr 1
  refine List.ext_getElem (by simp) fun j _ hj => ?_
  rw [List.getElem_map, List.getElem_range, foundByte_of_holdsBytes hbs hj]

/-- Such an access draws nothing. -/
theorem valueless_of_valueAt? {be : Bool} {size : Size} {m : Memory} {a : Nat} {v : Word}
    (h : valueAt? be size m a = some v) : valueless m a size.bytes = 0 := by
  obtain ⟨bs, hlen, hbs, -⟩ := valueAt?_eq_some_iff.1 h
  rw [valueless, List.length_eq_zero_iff, List.filter_eq_nil_iff, ← hlen]
  intro j hj
  simp [hbs j (List.mem_range.1 hj)]

theorem wordFound_of_value {s : State} {start v : Word} {k : Nat}
    (h : wordAt? s.cfg.bigEndian s.mem (wordAddr start k).toNat = some v) : wordFound s start k = v :=
  found_of_valueAt? (size := .word) h _

theorem blockDraws_of_values {s : State} {start : Word} {n : Nat} {vs : List Word} (hn : vs.length = n)
    (h : ∀ k (hk : k < vs.length), wordAt? s.cfg.bigEndian s.mem (wordAddr start k).toNat = some vs[k]) :
    blockDraws s.mem (fun j => (wordAddr start j).toNat) n = 0 := by
  rw [blockDraws, List.sum_eq_zero]
  simp only [List.mem_map, List.mem_range]
  rintro d ⟨j, hj, rfl⟩
  exact valueless_of_valueAt? (size := .word) (h j (hn ▸ hj))

end Sys2Proof.Proofs.BlockTransfers
end

section
/-!
LDM (43_load_store.md R166, R172): the loop over the whole list, and the three ways in which the instruction ends.
-/

namespace Sys2Proof.Proofs.LoadMultiple
open Sys2Proof Sys2Proof.Machine Sys2Proof.Proofs.DataProcessing Sys2Proof.Proofs.TransferWords
  Sys2Proof.Proofs.TransferRules Sys2Proof.Proofs.BlockTransfers

/-- The loop of an LDM. -/
def ldmLoop (p u : Bool) (rn : RegNum) (list : BitVec 16) (s : State) : BlockLoad :=
  loadBlock (regsOf list) (blockRange p u (s.reg rn) (regsOf list).length).1 ⟨false, none, s⟩

/-- The word that an LDM reads for register number k of its list. -/
def ldmWord (p u : Bool) (rn : RegNum) (list : BitVec 16) (s : State) (k : Nat) : Word :=
  wordFound s (blockRange p u (s.reg rn) (regsOf list).length).1 k

section Loop
variable (p u : Bool) (rn : RegNum) (list : BitVec 16) (s : State)

theorem ldmLoop_aborted_iff : (ldmLoop p u rn list s).aborted = true ↔ ¬ s.quiet (regsOf list).length :=
  loadBlock_aborted_iff _ _ _ rfl

/-- What the loop of an LDM leaves alone. -/
theorem ldmLoop_frame :
    let t := (ldmLoop p u rn list s).state
    t.mem = s.mem ∧ t.modified = s.modified ∧ SameStatus s t ∧ t.pc = s.pc ∧
      t.aborts = s.aborts.drop (regsOf list).length := by
  obtain ⟨hc, hp, hm, hd, hw, hcfg, hl, hpc⟩ :=
    loadBlock_frame (regsOf list) (blockRange p u (s.reg rn) (regsOf list).length).1 ⟨false, none, s⟩
  exact ⟨hm, hd, ⟨hc, hp, hw, hcfg, hl⟩, hpc, loadBlock_aborts ..⟩

theorem ldmLoop_get {q : PhysReg} (hq : ∀ i : RegNum, list.getLsbD i.toNat = true → q ≠ bank s.cpsr.mode i) :
    (ldmLoop p u rn list s).state.regs.get q = s.regs.get q :=
  loadBlock_get _ _ _ fun i hi => hq i (mem_regsOf.1 hi)

variable {list s} {k : Nat} {i : RegNum}

theorem ldmLoop_held (hi : (regsOf list)[k]? = some i) (h15 : i ≠ 15#4) (hq : s.quiet (k + 1)) :
    (ldmLoop p u rn list s).state.regs.get (bank s.cpsr.mode i) = .value (ldmWord p u rn list s k) :=
  loadBlock_held _ (regsOf_nodup list) hi h15 rfl hq

theorem ldmWord_of_value {v : Word}
    (h : wordAt? s.cfg.bigEndian s.mem (blockAddr p u (s.reg rn) list k) = some v) : ldmWord p u rn list s k = v :=
  wordFound_of_value (blockAddr_eq p u (s.reg rn) list k ▸ h)

theorem ldmLoop_newPc (h15 : list.getLsbD 15 = true) (hq : s.quiet (regsOf list).length) :
    (ldmLoop p u rn list s).newPc = some (ldmWord p u rn list s ((regsOf list).length - 1)) := by
  have hlast := getLast?_regsOf h15
  rw [List.getLast?_eq_getElem?] at hlast
  obtain ⟨hlt, -⟩ := List.getElem?_eq_some_iff.1 hlast
  exact loadBlock_newPc _ (regsOf_nodup list) hlast rfl (quiet_mono (by omega) hq)

theorem ldmLoop_newPc_none (h15 : list.getLsbD 15 = false) : (ldmLoop p u rn list s).newPc = none :=
  loadBlock_newPc_of_not_mem _ _ _ fun h =>
    Bool.false_ne_true (h15.symm.trans (r15_mem_regsOf.1 h))

end Loop

/-! ## How an LDM ends -/

section Ends
variable {c : Cond} {p u w : Bool} {rn : RegNum} {list : BitVec 16} {s : State}

theorem exec_ldm_of_legal (hc : s.passes c) (hx : s.blockLegal w rn list) :
    exec (.ldm c p u false w rn list) s =
      if (ldmLoop p u rn list s).aborted then
        .next (dataAbort (abortedBase w rn list (s.regIn s.cpsr.mode rn) (blockWb p u (s.reg rn) list)
          (ldmLoop p u rn list s).state))
      else
        (ldmLoop p u rn list s).newPc.elim
          (advance 4 ((ldmLoop p u rn list s).state.writeBack rn (writtenBack p u w rn list s)))
          (fun v => jumpArm v ((ldmLoop p u rn list s).state.writeBack rn (writtenBack p u w rn list s))) := by
  obtain ⟨hn, hlist, hal, hwb⟩ := hx
  have hexec : exec (.ldm c p u false w rn list) s = withBlock p u false w rn list s _ := conditional_passes hc _
  rw [hexec, withBlock_eq hn hlist (aligned_iff.2 hal) hwb, writtenBack, ← ite_setReg_eq_writeBack]
  generalize hb : ldmLoop p u rn list s = b
  simp only [ldmLoop] at hb
  simp only [hb]
  cases b.newPc <;> rfl

theorem exec_ldm_of_abort (hc : s.passes c) (hx : s.blockLegal w rn list) (hq : ¬ s.quiet (regsOf list).length) :
    exec (.ldm c p u false w rn list) s =
      .next (dataAbort (abortedBase w rn list (s.regIn s.cpsr.mode rn) (blockWb p u (s.reg rn) list)
        (ldmLoop p u rn list s).state)) := by
  rw [exec_ldm_of_legal hc hx, if_pos ((ldmLoop_aborted_iff ..).2 hq)]

/-- With R15 in the list an LDM ends in a jump to the last word. -/
theorem exec_ldm_jump (hc : s.passes c) (hx : s.blockLegal w rn list) (hq : s.quiet (regsOf list).length)
    (h15 : list.getLsbD 15 = true) :
    exec (.ldm c p u false w rn list) s =
      jumpArm (ldmWord p u rn list s ((regsOf list).length - 1))
        ((ldmLoop p u rn list s).state.writeBack rn (writtenBack p u w rn list s)) := by
  rw [exec_ldm_of_legal hc hx, if_neg fun h => (ldmLoop_aborted_iff ..).1 h hq, ldmLoop_newPc p u rn h15 hq]
  rfl

theorem exec_ldm_advance (hc : s.passes c) (hx : s.blockLegal w rn list) (hq : s.quiet (regsOf list).length)
    (h15 : list.getLsbD 15 = false) :
    exec (.ldm c p u false w rn list) s =
      advance 4 ((ldmLoop p u rn list s).state.writeBack rn (writtenBack p u w rn list s)) := by
  rw [exec_ldm_of_legal hc hx, if_neg fun h => (ldmLoop_aborted_iff ..).1 h hq, ldmLoop_newPc_none p u rn h15]
  rfl

theorem ldmLoop_writeBack_pc (hx : s.blockLegal w rn list) (wb : Option Word) :
    ((ldmLoop p u rn list s).state.writeBack rn wb).pc = s.pc := by
  obtain ⟨-, -, -, hpc, -⟩ := ldmLoop_frame p u rn list s
  rw [State.writeBack_pc _ hx.1, hpc]

/-- The state after an LDM without an abort, whatever becomes of the pc. -/
theorem ldm_completed (hx : s.blockLegal w rn list) (hq : s.quiet (regsOf list).length) (target : Word) :
    let t := ((ldmLoop p u rn list s).state.writeBack rn (writtenBack p u w rn list s)).setPc target
    (∀ k i, (regsOf list)[k]? = some i → i ≠ 15#4 → t.regIn s.cpsr.mode i = .value (ldmWord p u rn list s k)) ∧
      (w = true → t.regIn s.cpsr.mode rn = .value (blockWb p u (s.reg rn) list)) ∧
      (∀ q : PhysReg, q ≠ .r15 → (∀ i : RegNum, list.getLsbD i.toNat = true → q ≠ bank s.cpsr.mode i) →
        (w = true → q ≠ bank s.cpsr.mode rn) → t.regs.get q = s.regs.get q) ∧
      t.mem = s.mem ∧ t.modified = s.modified ∧ SameStatus s t ∧
      t.draws = s.draws + blockDraws s.mem (blockAddr p u (s.reg rn) list) (regsOf list).length ∧
      t.aborts = s.aborts.drop (regsOf list).length := by
  intro t
  obtain ⟨hn, -, -, hwb⟩ := hx
  obtain ⟨hmem, hmod, hst, -, hab⟩ := ldmLoop_frame p u rn list s
  obtain ⟨hmem', hmod', hst', hdr', hab'⟩ :=
    writeBack_setPc_frame (ldmLoop p u rn list s).state rn (writtenBack p u w rn list s) target
  have hmode : (ldmLoop p u rn list s).state.cpsr.mode = s.cpsr.mode := by rw [hst.1]
  have hkept {q : PhysReg} (h15 : q ≠ .r15) (hq : w = true → q ≠ bank s.cpsr.mode rn) :
      t.regs.get q = (ldmLoop p u rn list s).state.regs.get q := by
    rw [setPc_get h15, writeBack_get_of_ne]
    rwa [writtenBack_isSome, hmode]
  refine ⟨fun k i hi h15 => ?held, fun hw => ?base, fun q h15 hq hq' => ?kept, hmem'.trans hmem, hmod'.trans hmod,
    sameStatus_trans hst hst', hdr'.trans (loadBlock_draws _ _ _ hq), hab'.trans hab⟩
  case held =>
    have hlt : k < (regsOf list).length := (List.getElem?_eq_some_iff.1 hi).1
    have hbase : w = true → bank s.cpsr.mode i ≠ bank s.cpsr.mode rn := fun hw hb =>
      hwb ⟨hw, mem_regsOf.1 (bank_injective _ _ _ hb ▸ List.mem_of_getElem? hi)⟩
    exact (hkept (bank_ne_r15 _ h15) hbase).trans (ldmLoop_held p u rn hi h15 (quiet_mono hlt hq))
  case base =>
    subst hw
    rw [State.regIn, setPc_get (bank_ne_r15 _ hn), ← hmode]
    exact writeBack_get_base ..
  case kept => rw [hkept h15 hq', ldmLoop_get p u rn list s hq]

end Ends

/-! ## The base after an abort -/

section AbortedBase
variable (w : Bool) {rn : RegNum} (list : BitVec 16) (base : Held Word) (wb : Word) (t : State)

theorem abortedBase_frame (hn : rn ≠ 15#4) :
    let r := abortedBase w rn list base wb t
    r.cpsr = t.cpsr ∧ r.spsrs = t.spsrs ∧ r.mem = t.mem ∧ r.aborts = t.aborts ∧ r.pc = t.pc := by
  rw [abortedBase]
  split_ifs
  · exact ⟨rfl, rfl, rfl, rfl, t.setReg_pc hn wb⟩
  · exact ⟨rfl, rfl, rfl, rfl, t.putReg_pc hn base⟩
  · exact ⟨rfl, rfl, rfl, rfl, rfl⟩

theorem abortedBase_get_of_ne (hn : rn ≠ 15#4) {q : PhysReg} (hq : q ≠ bank t.cpsr.mode rn) :
    (abortedBase w rn list base wb t).regs.get q = t.regs.get q := by
  rw [abortedBase]
  split_ifs
  · exact RegFile.get_set_ne _ hq wb
  · rw [State.putReg_regs, RegFile.get_put _ (bank_ne_r15 _ hn), if_neg hq]
  · rfl

/-- The base is updated with W; otherwise it holds what it held before, loaded over or not. -/
theorem abortedBase_get_base (hn : rn ≠ 15#4)
    (hkept : list.getLsbD rn.toNat = false → t.regs.get (bank t.cpsr.mode rn) = base) :
    (abortedBase w rn list base wb t).regs.get (bank t.cpsr.mode rn) = if w then .value wb else base := by
  rw [abortedBase]
  split_ifs with hw hl
  · exact RegFile.get_set_self ..
  · rw [State.putReg_regs, RegFile.get_put _ (bank_ne_r15 _ hn), if_pos rfl]
  · exact hkept (Bool.eq_false_iff.2 hl)

end AbortedBase

section Aborted
variable {p u w : Bool} {rn : RegNum} {list : BitVec 16} {s : State}

theorem entered_of_ldm_abort (hn : rn ≠ 15#4) (base : Held Word) (wb : Word) :
    Entered .dataAbort (s.pc + 8#32) s (dataAbort (abortedBase w rn list base wb (ldmLoop p u rn list s).state)) := by
  obtain ⟨-, -, hst, hpc, -⟩ := ldmLoop_frame p u rn list s
  obtain ⟨hc, hp, -, -, hpc'⟩ := abortedBase_frame w list base wb (ldmLoop p u rn list s).state hn
  exact entered_dataAbort (hc.trans hst.1) (hp.trans hst.2.1) (hpc'.trans hpc)

/-- From the first aborted access on no register is written. -/
theorem ldmLoop_get_of_abort {n : Nat} (hn : n < (regsOf list).length) (habort : s.aborts.getD n false = true)
    {q : PhysReg} (hq : ∀ k i, k < n → (regsOf list)[k]? = some i → q ≠ bank s.cpsr.mode i) :
    (ldmLoop p u rn list s).state.regs.get q = s.regs.get q := by
  have hlen : ((regsOf list).take n).length = n := List.length_take_of_le hn.le
  rw [ldmLoop, ← List.take_append_drop n (regsOf list), loadBlock_append, loadBlock_get_of_abortNow, loadBlock_get]
  · intro i hi
    obtain ⟨k, hk, rfl⟩ := List.mem_take_iff_getElem.1 hi
    exact hq k _ (by omega) (List.getElem?_eq_getElem _)
  · rw [loadBlock_abortNow, hlen, habort]

end Aborted

/-! ## The obligations -/

/-- Settles O24: the words of the block hold values, so they are what the loop reads, and it draws nothing; R15 in the list
decides between the jump and the advance. -/
theorem ldmLoadsBlock : Obligations.LdmLoadsBlock := by
  refine ⟨fun c p u w rn list => decodeArm_ldm c p u false w rn list, fun c p u w rn list s vs hc hx hq hlen hvs => ?loaded,
    fun c p u w rn list s hc hx hq h15 hadv => ?lastAddress, fun c p u w rn list s hc hx hq => ?aborted⟩
  case loaded =>
    have hword (k) (hk : k < vs.length) : ldmWord p u rn list s k = vs[k] := ldmWord_of_value p u rn (hvs k hk)
    have hlast (h15 : list.getLsbD 15 = true) : vs.getLast? = some (ldmWord p u rn list s ((regsOf list).length - 1)) := by
      have hpos := List.length_pos_of_mem (r15_mem_regsOf.2 h15)
      rw [List.getLast?_eq_getElem?, ← hlen, hword _ (by omega), List.getElem?_eq_getElem]
    refine ⟨fun v h15 hv hmis => ?misaligned, fun hjump hadv => ?completed⟩
    case misaligned =>
      obtain rfl := Option.some.inj ((hlast h15).symm.trans hv)
      rw [exec_ldm_jump hc hx hq h15, jumpArm_misaligned hmis]
    case completed =>
      obtain ⟨target, hexec, htarget, htarget'⟩ : ∃ target,
          exec (.ldm c p u false w rn list) s =
            .next (((ldmLoop p u rn list s).state.writeBack rn (writtenBack p u w rn list s)).setPc target) ∧
          (list.getLsbD 15 = true → vs.getLast? = some target) ∧
          (list.getLsbD 15 = false → target = s.pc + 4#32) := by
        cases h15 : list.getLsbD 15 with
        | true =>
          refine ⟨_, ?_, fun _ => hlast h15, fun h => Bool.noConfusion h⟩
          rw [exec_ldm_jump hc hx hq h15, jumpArm_aligned (hjump _ h15 (hlast h15))]
        | false =>
          refine ⟨_, ?_, fun h => Bool.noConfusion h, fun _ => rfl⟩
          rw [exec_ldm_advance hc hx hq h15]
          exact advance_eq_of_pc_eq (ldmLoop_writeBack_pc hx _) (hadv h15)
      obtain ⟨hheld, hbase, hkept, hmem, hmod, hst, hdr, hab⟩ := ldm_completed (p := p) (u := u) hx hq target
      refine ⟨_, hexec, fun k hk i hi h15 => ?_, hbase, htarget, htarget', hkept, hmem, hmod, hst, ?_, hlen ▸ hab⟩
      · rw [hheld k i hi h15, hword k hk]
      · exact hdr.trans (congrArg (s.draws + ·) (blockDraws_of_values hlen hvs))
  case lastAddress =>
    rw [exec_ldm_advance hc hx hq h15]
    exact advance_refused_of_pc_eq (ldmLoop_writeBack_pc hx _) hadv
  case aborted => exact ⟨_, exec_ldm_of_abort hc hx hq, entered_of_ldm_abort hx.1 _ _⟩

/-- Settles O26: up to the first abort the loop loads, from it on it writes nothing, and `abortedBase` sees to the base. -/
theorem ldmAbort : Obligations.LdmAbort := by
  intro c p u w rn list s vs hc hx hlt hq habort hvs
  have hnq : ¬ s.quiet (regsOf list).length := fun h => Bool.false_ne_true ((h _ hlt).symm.trans habort)
  obtain ⟨hmem, -, hst, -, hab⟩ := ldmLoop_frame p u rn list s
  obtain ⟨-, -, hmem', hab', -⟩ := abortedBase_frame w list (s.regIn s.cpsr.mode rn) (blockWb p u (s.reg rn) list)
    (ldmLoop p u rn list s).state hx.1
  have hmode : (ldmLoop p u rn list s).state.cpsr.mode = s.cpsr.mode := by rw [hst.1]
  have hother {q : PhysReg} (h15 : q ≠ .r15) (h14 : q ≠ .r14abt) (hbase : q ≠ bank s.cpsr.mode rn) :
      (dataAbort (abortedBase w rn list (s.regIn s.cpsr.mode rn) (blockWb p u (s.reg rn) list)
        (ldmLoop p u rn list s).state)).regs.get q = (ldmLoop p u rn list s).state.regs.get q := by
    rw [dataAbort_get h15 h14, abortedBase_get_of_ne _ _ _ _ _ hx.1 (hmode ▸ hbase)]
  refine ⟨_, exec_ldm_of_abort hc hx hnq, entered_of_ldm_abort hx.1 _ _, fun k hk i hi hin h14 => ?loaded,
    fun h14 => ?base, fun q h15 h14 hbase hq' => ?kept, hmem'.trans hmem, hab'.trans hab⟩
  case loaded =>
    have h15 : i ≠ 15#4 := regsOf_ne_r15 hi (by omega)
    rw [hother (bank_ne_r15 _ h15) h14 fun h => hin (bank_injective _ _ _ h),
      ldmLoop_held p u rn hi h15 (quiet_mono hk hq)]
    exact congrArg Held.value (ldmWord_of_value p u rn (hvs k hk))
  case base =>
    rw [dataAbort_get (bank_ne_r15 _ hx.1) h14, ← hmode]
    refine abortedBase_get_base _ _ _ _ _ hx.1 fun hl => ?_
    rw [hmode]
    refine loadBlock_get _ _ _ fun i hi hb => ?_
    rw [bank_injective _ _ _ hb, mem_regsOf.1 hi] at hl
    cases hl
  case kept => rw [hother h15 h14 hbase, ldmLoop_get_of_abort hlt habort hq']

end Sys2Proof.Proofs.LoadMultiple
end

section
/-!
STM (43_load_store.md R167, R173): the loop of stores, each word kept by the later ones because the words of a block do not
overlap, and the ways in which the instruction ends.
-/

namespace Sys2Proof.Proofs.StoreMultiple
open Sys2Proof Sys2Proof.Machine Sys2Proof.Proofs.MemoryAccess Sys2Proof.Proofs.TransferWords
  Sys2Proof.Proofs.TransferRules Sys2Proof.Proofs.BlockTransfers

/-! ## One store -/

/-- Memory that agrees on the bytes of an access holds the same value there. -/
theorem valueAt?_of_same {be : Bool} {size : Size} {m m' : Memory} {a : Nat} {v : Word} (h : valueAt? be size m a = some v)
    (hm : ∀ x, a ≤ x → x < a + size.bytes → m'.get? x = m.get? x) : valueAt? be size m' a = some v := by
  obtain ⟨bs, hlen, hbs, hv⟩ := valueAt?_eq_some_iff.1 h
  refine valueAt?_eq_some_iff.2 ⟨bs, hlen, fun k hk => ?_, hv⟩
  rw [hm (a + k) (by omega) (by omega), hbs k hk]

/-- The second read of a register depends on registers, mode and draws alone. -/
theorem second_congr {s t : State} (hr : t.regs = s.regs) (hc : t.cpsr = s.cpsr) (hd : t.draws = s.draws) (i : RegNum) :
    t.second i = s.second i := by
  simp only [State.second, State.regIn, hr, hc, hd]

theorem storeOne_of_ok {b : Bool × State} (h : b.2.abortNow = false) (i : RegNum) (addr : Word) :
    (storeOne i addr b).1 = b.1 ∧
      wordAt? b.2.cfg.bigEndian (storeOne i addr b).2.mem addr.toNat = some (b.2.second i) ∧
      SameOutside b.2 (storeOne i addr b).2 addr.toNat 4 := by
  obtain ⟨t, hw, hv, hout⟩ := memWrite_valueAt? h .word addr (b.2.second i)
  rw [storeOne, hw]
  exact ⟨rfl, hv, hout⟩

theorem storeOne_of_abort {b : Bool × State} (h : b.2.abortNow = true) (i : RegNum) (addr : Word) :
    storeOne i addr b = (true, forgetBytes 4 addr.toNat b.2.answered) := by
  rw [storeOne, memWrite_aborted h]

/-- A store, aborted or not, touches the four bytes at its address alone. -/
theorem storeOne_sameOutside (i : RegNum) (addr : Word) (b : Bool × State) :
    SameOutside b.2 (storeOne i addr b).2 addr.toNat 4 := by
  cases h : b.2.abortNow with
  | false =>
    obtain ⟨-, -, hout⟩ := storeOne_of_ok h i addr
    exact hout
  | true =>
    intro x hx
    rw [storeOne_of_abort h, forgetBytes_get?, if_neg (by omega)]
    rfl

theorem storeOne_aborted (i : RegNum) (addr : Word) (b : Bool × State) :
    (storeOne i addr b).1 = (b.1 || b.2.abortNow) := by
  cases h : b.2.abortNow with
  | false =>
    obtain ⟨hb, -⟩ := storeOne_of_ok h i addr
    rw [hb, Bool.or_false]
  | true => rw [storeOne_of_abort h, Bool.or_true]

/-! ## The loop -/

theorem storeBlock_append (is js : List RegNum) (start : Word) (b : Bool × State) :
    storeBlock (is ++ js) start b = storeBlock js (wordAddr start is.length) (storeBlock is start b) := by
  induction is generalizing start b with
  | nil => simp [storeBlock]
  | cons i is ih => rw [List.cons_append, storeBlock, ih, wordAddr_next]; rfl

theorem storeBlock_snoc (is : List RegNum) (i : RegNum) (start : Word) (b : Bool × State) :
    storeBlock (is ++ [i]) start b = storeOne i (wordAddr start is.length) (storeBlock is start b) :=
  storeBlock_append is [i] start b

section Loop
variable (is : List RegNum) (start : Word) (b : Bool × State)

theorem storeBlock_aborts : (storeBlock is start b).2.aborts = b.2.aborts.drop is.length := by
  induction is using List.reverseRecOn with
  | nil => rfl
  | append_singleton is i ih =>
    obtain ⟨-, -, -, -, -, -, -, hab⟩ := storeOne_frame i (wordAddr start is.length) (storeBlock is start b)
    rw [storeBlock_snoc, hab, ih, ← List.drop_one, List.drop_drop, List.length_append, List.length_singleton]

theorem storeBlock_abortNow : (storeBlock is start b).2.abortNow = b.2.aborts.getD is.length false :=
  abortNow_of_aborts_eq_drop (storeBlock_aborts is start b)

/-- The loop has seen an abort unless every answer was ok. -/
theorem storeBlock_aborted_eq_false_iff :
    (storeBlock is start b).1 = false ↔ b.1 = false ∧ b.2.quiet is.length := by
  induction is using List.reverseRecOn with
  | nil => exact (and_iff_left fun k hk => absurd hk (Nat.not_lt_zero k)).symm
  | append_singleton is i ih =>
    rw [storeBlock_snoc, storeOne_aborted, Bool.or_eq_false_iff, ih, storeBlock_abortNow, List.length_append,
      List.length_singleton, quiet_snoc, and_assoc]

/-- A byte outside the words of the block stays. -/
theorem storeBlock_get?_outside {x : Nat}
    (hx : ∀ k < is.length, x < (wordAddr start k).toNat ∨ (wordAddr start k).toNat + 4 ≤ x) :
    (storeBlock is start b).2.mem.get? x = b.2.mem.get? x := by
  induction is using List.reverseRecOn with
  | nil => rfl
  | append_singleton is i ih =>
    have hlast := hx is.length (by simp)
    rw [storeBlock_snoc, storeOne_sameOutside _ _ _ x hlast, ih fun k hk => hx k (by simp; omega)]

variable {is} {k : Nat} {i : RegNum}

/-- Word number k of the block is register number k, when its store is answered ok. -/
theorem storeBlock_wordAt? (hlen : is.length ≤ 16) (hi : is[k]? = some i) (hok : b.2.aborts.getD k false = false) :
    wordAt? b.2.cfg.bigEndian (storeBlock is start b).2.mem (wordAddr start k).toNat = some (b.2.second i) := by
  obtain ⟨hk, -⟩ := List.getElem?_eq_some_iff.1 hi
  have hlenk : (is.take k).length = k := List.length_take_of_le hk.le
  obtain ⟨hregs, hcpsr, -, -, hcfg, -, hdraws⟩ := storeBlock_frame (is.take k) start b
  obtain ⟨-, hword, -⟩ := storeOne_of_ok (b := storeBlock (is.take k) start b)
    (by rw [storeBlock_abortNow, hlenk, hok]) i (wordAddr start k)
  rw [hcfg, second_congr hregs hcpsr hdraws] at hword
  rw [getElem?_append_split hi, storeBlock_append, hlenk, storeBlock, wordAddr_add_four]
  refine valueAt?_of_same (size := .word) hword fun x hlo hhi => storeBlock_get?_outside _ _ _ fun j hj => ?_
  have hdisj := wordAddr_disjoint start (j := k) (k := k + 1 + j) (by omega)
    (by rw [List.length_drop] at hj; omega) (by omega)
  have hnext : wordAddr (wordAddr start (k + 1)) j = wordAddr start (k + 1 + j) := by
    rw [wordAddr, wordAddr, wordAddr, BitVec.add_assoc, BitVec.ofNat_add_ofNat, ← Nat.mul_add]
  rw [hnext]
  simp only [Size.bytes] at hhi
  omega

end Loop

/-! ## How an STM ends -/

/-- The loop of an STM. -/
def stmLoop (p u : Bool) (rn : RegNum) (list : BitVec 16) (s : State) : Bool × State :=
  storeBlock (regsOf list) (blockRange p u (s.reg rn) (regsOf list).length).1 (false, s)

section Ends
variable {c : Cond} {p u w : Bool} {rn : RegNum} {list : BitVec 16} {s : State}

theorem stmLoop_aborted_eq_false_iff : (stmLoop p u rn list s).1 = false ↔ s.quiet (regsOf list).length :=
  (storeBlock_aborted_eq_false_iff ..).trans (and_iff_right rfl)

theorem exec_stm_r15 (hc : s.passes c) (hx : s.blockLegal w rn list) (h15 : list.getLsbD 15 = true) :
    exec (.stm c p u false w rn list) s = .refused .r15Operand := by
  obtain ⟨hn, hlist, hal, hwb⟩ := hx
  have hexec : exec (.stm c p u false w rn list) s = withBlock p u false w rn list s _ := conditional_passes hc _
  rw [hexec, withBlock_eq hn hlist (aligned_iff.2 hal) hwb, if_pos h15]

theorem exec_stm_of_legal (hc : s.passes c) (hx : s.blockLegal w rn list) (h15 : list.getLsbD 15 = false) :
    exec (.stm c p u false w rn list) s =
      if (stmLoop p u rn list s).1 then
        .next (dataAbort ((stmLoop p u rn list s).2.writeBack rn (writtenBack p u w rn list s)))
      else advance 4 ((stmLoop p u rn list s).2.writeBack rn (writtenBack p u w rn list s)) := by
  obtain ⟨hn, hlist, hal, hwb⟩ := hx
  have hexec : exec (.stm c p u false w rn list) s = withBlock p u false w rn list s _ := conditional_passes hc _
  rw [hexec, withBlock_eq hn hlist (aligned_iff.2 hal) hwb, if_neg (Bool.eq_false_iff.1 h15), writtenBack,
    ← ite_setReg_eq_writeBack]
  rfl

theorem exec_stm_of_quiet (hc : s.passes c) (hx : s.blockLegal w rn list) (h15 : list.getLsbD 15 = false)
    (hq : s.quiet (regsOf list).length) :
    exec (.stm c p u false w rn list) s =
      advance 4 ((stmLoop p u rn list s).2.writeBack rn (writtenBack p u w rn list s)) := by
  rw [exec_stm_of_legal hc hx h15, stmLoop_aborted_eq_false_iff.2 hq]
  rfl

theorem exec_stm_of_abort (hc : s.passes c) (hx : s.blockLegal w rn list) (h15 : list.getLsbD 15 = false)
    (hq : ¬ s.quiet (regsOf list).length) :
    exec (.stm c p u false w rn list) s =
      .next (dataAbort ((stmLoop p u rn list s).2.writeBack rn (writtenBack p u w rn list s))) := by
  rw [exec_stm_of_legal hc hx h15, if_pos (Bool.not_eq_false _ ▸ mt stmLoop_aborted_eq_false_iff.1 hq)]

/-- What the loop of an STM leaves alone. -/
theorem stmLoop_frame :
    let t := (stmLoop p u rn list s).2
    t.regs = s.regs ∧ SameStatus s t ∧ t.draws = s.draws ∧ t.aborts = s.aborts.drop (regsOf list).length := by
  obtain ⟨hr, hc, hp, hw, hcfg, hl, hd⟩ :=
    storeBlock_frame (regsOf list) (blockRange p u (s.reg rn) (regsOf list).length).1 (false, s)
  exact ⟨hr, ⟨hc, hp, hw, hcfg, hl⟩, hd, storeBlock_aborts ..⟩

theorem stmLoop_writeBack_pc (hx : s.blockLegal w rn list) (wb : Option Word) :
    ((stmLoop p u rn list s).2.writeBack rn wb).pc = s.pc := by
  obtain ⟨hr, -⟩ := stmLoop_frame (p := p) (u := u) (rn := rn) (list := list) (s := s)
  rw [State.writeBack_pc _ hx.1, pc_eq_of_regs_eq hr]

theorem entered_of_stm_abort (hx : s.blockLegal w rn list) (wb : Option Word) :
    Entered .dataAbort (s.pc + 8#32) s (dataAbort ((stmLoop p u rn list s).2.writeBack rn wb)) := by
  obtain ⟨-, ⟨hc, hp, -⟩, -⟩ := stmLoop_frame (p := p) (u := u) (rn := rn) (list := list) (s := s)
  exact entered_dataAbort ((State.writeBack_cpsr ..).trans hc) ((State.writeBack_spsrs ..).trans hp)
    (stmLoop_writeBack_pc hx wb)

end Ends

/-! ## The obligation -/

/-- Settles O25: the loop stores register after register, and the write-back and the advance leave memory as it made it. -/
theorem stmStoresBlock : Obligations.StmStoresBlock := by
  refine ⟨fun c p u w rn list => decodeArm_stm c p u false w rn list, fun c p u w rn list s hc hx => ?_⟩
  intro n at_
  refine ⟨fun h15 => exec_stm_r15 hc hx h15, fun h15 hq hadv => ?stored, fun h15 hq hadv => ?lastAddress,
    fun h15 hq => ⟨_, exec_stm_of_abort hc hx h15 hq, entered_of_stm_abort hx _⟩⟩
  case stored =>
    obtain ⟨hr, hst, hdr, hab⟩ := stmLoop_frame (p := p) (u := u) (rn := rn) (list := list) (s := s)
    obtain ⟨hmem, -, hst', hdr', hab'⟩ :=
      writeBack_setPc_frame (stmLoop p u rn list s).2 rn (writtenBack p u w rn list s) (s.pc + 4#32)
    refine ⟨_, (exec_stm_of_quiet hc hx h15 hq).trans (advance_eq_of_pc_eq (stmLoop_writeBack_pc hx _) hadv),
      fun k i hi => ?_, fun a ha => ?_, ?_, sameStatus_trans hst hst', hdr'.trans hdr, hab'.trans hab⟩
    · have hk : k < n := (List.getElem?_eq_some_iff.1 hi).1
      exact hmem ▸ storeBlock_wordAt? _ _ (length_regsOf_le list) hi (hq k hk)
    · exact hmem ▸ storeBlock_get?_outside _ _ _ ha
    · rw [ite_setReg_eq_writeBack, State.setPc_regs, State.setPc_regs, writeBack_regs_congr hr hst.1]
      rfl
  case lastAddress =>
    rw [exec_stm_of_quiet hc hx h15 hq]
    exact advance_refused_of_pc_eq (stmLoop_writeBack_pc hx _) hadv

end Sys2Proof.Proofs.StoreMultiple
end

section
/-!
What an instruction can make of the saved status registers (10_state.md R43, 60_exceptions.md R225): leave them, write the one
of its mode, or save the CPSR in the one of the exception it raises.
-/

namespace Sys2Proof.Proofs.SpsrWrites
open Sys2Proof Sys2Proof.Machine Sys2Proof.Proofs.TransferRules Sys2Proof.Proofs.SingleTransfers
  Sys2Proof.Proofs.Swaps Sys2Proof.Proofs.LoadMultiple Sys2Proof.Proofs.StoreMultiple

/-- The exception that an instruction itself can raise: the traps (44_swi_undefined.md R190, R191; 45_thumb.md R206) and the
data abort of an access (43_load_store.md R170 to R173). -/
def raisable : Instr → Option Exn
  | .swi .. | .tSwi .. => some .swi
  | .und .. => some .undefined
  | .ldr .. | .str .. | .ldrb .. | .strb .. | .ldrh .. | .strh .. | .ldm .. | .stm .. | .swp .. | .swpb .. => some .dataAbort
  | .bx .. | .b .. | .bl .. | .movReg .. | .movImm .. | .addReg .. | .addImm .. | .subReg .. | .subImm .. | .cmpReg ..
  | .cmpImm .. | .mrs .. | .msrReg .. | .msrImm .. | .tAdd .. | .tCmp .. | .tMov .. | .tBx .. | .tB .. => none

/-- The saved status registers that the instruction i can leave behind when s executes it. -/
inductive SpsrWrite (i : Instr) (s : State) : SpsrFile → Prop
  | kept : SpsrWrite i s s.spsrs
  | ofMode {n : SpsrName} (p : HeldPsr) (h : s.cpsr.mode.spsr? = some n) : SpsrWrite i s (s.spsrs.set n p)
  | ofExn {e : Exn} (h : raisable i = some e) : SpsrWrite i s (s.spsrs.set e.spsr s.cpsr.toPsr)

/-- P holds of the saved status registers of the next state, if r answers one. -/
def SpsrsAfter (r : Result) (P : SpsrFile → Prop) : Prop := ∀ t, r = .next t → P t.spsrs

/-! ## The shared operations -/

section Rules
variable {P : SpsrFile → Prop} {s : State}

theorem spsrsAfter_next (h : P s.spsrs) : SpsrsAfter (.next s) P := by
  rintro _ ⟨⟩
  exact h

theorem spsrsAfter_refused {r : Refusal} : SpsrsAfter (.refused r) P := by
  rintro _ ⟨⟩

theorem spsrsAfter_ite {c : Prop} [Decidable c] {a b : Result} (ha : SpsrsAfter a P) (hb : SpsrsAfter b P) :
    SpsrsAfter (if c then a else b) P := by
  split
  · exact ha
  · exact hb

theorem spsrsAfter_advance {n : Nat} (h : P s.spsrs) : SpsrsAfter (advance n s) P := by
  intro t ht
  obtain ⟨-, rfl⟩ := advance_next ht
  exact h

theorem spsrsAfter_branchBy {d : Int} (h : P s.spsrs) : SpsrsAfter (branchBy d s) P := by
  intro t ht
  obtain ⟨-, rfl⟩ := branchBy_next ht
  exact h

theorem spsrsAfter_jumpArm {v : Word} (h : P s.spsrs) : SpsrsAfter (jumpArm v s) P := by
  intro t ht
  obtain ⟨-, rfl⟩ := jumpArm_next ht
  exact h

theorem spsrsAfter_exchange {v : Word} (h : P s.spsrs) : SpsrsAfter (exchange v s) P := by
  intro t ht
  obtain ⟨-, rfl⟩ | ⟨-, -, rfl⟩ := exchange_next ht <;> exact h

theorem spsrsAfter_exceptionReturn {v : Word} (h : P s.spsrs) : SpsrsAfter (exceptionReturn v s) P := by
  intro t ht
  obtain ⟨n, -, ⟨-, rfl⟩ | ⟨m, -, -, rfl⟩⟩ := exceptionReturn_next ht <;> exact h

theorem spsrsAfter_conditional {c : Cond} {body : Result} (h : P s.spsrs) (hb : SpsrsAfter body P) :
    SpsrsAfter (conditional c s body) P := by
  intro t ht
  obtain ⟨-, ⟨-, hbody⟩ | ⟨-, hadv⟩⟩ := conditional_next ht
  · exact hb t hbody
  · exact spsrsAfter_advance h t hadv

theorem spsrsAfter_withReg {i : RegNum} {body : Word → Result} (hb : ∀ v, SpsrsAfter (body v) P) :
    SpsrsAfter (withReg i s body) P := fun t ht => hb _ t (withReg_next ht).2

theorem spsrsAfter_withSecond {i : RegNum} {body : Word → Result} (hb : ∀ v, SpsrsAfter (body v) P) :
    SpsrsAfter (withSecond i s body) P := fun t ht => hb _ t (withSecond_next ht).2

theorem spsrsAfter_withThumbSource {readsRd : Bool} {rd rs : RegNum} {body : Word → Result}
    (hb : ∀ v, SpsrsAfter (body v) P) : SpsrsAfter (withThumbSource readsRd rd rs s body) P := by
  intro t ht
  obtain ⟨-, -, -, hbody⟩ := withThumbSource_next ht
  exact hb _ t hbody

theorem spsrsAfter_writeResult {sf : Bool} {rd : RegNum} {v : Word} {fl : HeldFlags} (h : P s.spsrs) :
    SpsrsAfter (writeResult sf rd v fl s) P := by
  intro t ht
  obtain ⟨-, hadv⟩ | ⟨-, -, hret⟩ | ⟨-, -, hjump⟩ := writeResult_next ht
  · exact spsrsAfter_advance (by cases sf <;> exact h) t hadv
  · exact spsrsAfter_exceptionReturn h t hret
  · exact spsrsAfter_jumpArm h t hjump

end Rules

/-! ## The accesses -/

section Accesses
variable {i : Instr} {c : Cond} {s : State}

/-- The arm of an ARM instruction is its meaning under its condition (30_encoding.md R93). -/
theorem exec_eq_conditional (hi : armCond i = some c) (s : State) : ∃ body, exec i s = conditional c s body := by
  cases i <;> cases hi <;> exact ⟨_, rfl⟩

/-- Only an ARM instruction whose condition passes has to be looked at: one whose condition fails advances. -/
theorem spsrWrite_of_passes (hi : armCond i = some c) (h : s.passes c → SpsrsAfter (exec i s) (SpsrWrite i s)) :
    SpsrsAfter (exec i s) (SpsrWrite i s) := by
  intro t ht
  obtain ⟨body, hexec⟩ := exec_eq_conditional hi s
  obtain ⟨hnv, ⟨hc, -⟩ | ⟨-, hadv⟩⟩ := conditional_next (hexec ▸ ht)
  · exact h ⟨hnv, hc⟩ t ht
  · exact spsrsAfter_advance .kept t hadv

/-- The end of an instruction that has the SPSRs of s still. -/
theorem spsrWrite_advance {u : State} {n : Nat} (hp : u.spsrs = s.spsrs) : SpsrsAfter (advance n u) (SpsrWrite i s) :=
  spsrsAfter_advance (hp ▸ .kept)

theorem spsrWrite_raise {e : Exn} (hi : raisable i = some e) {ret : Word} :
    SpsrsAfter (.next (raise e ret s)) (SpsrWrite i s) := spsrsAfter_next (.ofExn (e := e) hi)

/-- The entry to an exception that the instruction can raise, whatever else it has changed on the way. -/
theorem spsrWrite_entered {e : Exn} (hi : raisable i = some e) {ret : Word} {u : State} (h : Entered e ret s u) :
    SpsrsAfter (.next u) (SpsrWrite i s) := by
  obtain ⟨-, hp, -, -⟩ := h
  exact spsrsAfter_next (hp ▸ .ofExn hi)

/-- A single transfer that answers a next state passed the refusals of R174. -/
theorem legal_of_next {x : Transfer} {body : Word → Option Word → Result} {t : State}
    (h : withTransfer x.size x.p x.u x.w x.rn x.rd x.offset s body = .next t) : ∃ addr wb, x.legal s addr wb := by
  obtain ⟨hn, hd, addr, wb, ha, hwb, hal, -⟩ := withTransfer_next h
  exact ⟨addr, wb, hn, hd, ha, hwb, aligned_iff.1 hal⟩

theorem spsrWrite_of_loadForm {x : Transfer} (hi : loadForm i = some x) (hc : armCond i = some x.cond)
    (he : raisable i = some .dataAbort) : SpsrsAfter (exec i s) (SpsrWrite i s) := by
  refine spsrWrite_of_passes hc fun hx t ht => ?_
  rw [exec_load_of_passes hi hx] at ht
  obtain ⟨addr, wb, hlegal⟩ := legal_of_next ht
  obtain ⟨hs, -⟩ | ⟨-, k, v, hr⟩ := memRead_cases x.size addr s
  · exact spsrWrite_entered he (entered_of_load_abort hlegal) t (load_of_abort hlegal hs ▸ ht)
  · exact spsrWrite_advance (by simp) t (load_of_legal hlegal hr ▸ ht)

theorem spsrWrite_of_storeForm {x : Transfer} (hi : storeForm i = some x) (hc : armCond i = some x.cond)
    (he : raisable i = some .dataAbort) : SpsrsAfter (exec i s) (SpsrWrite i s) := by
  refine spsrWrite_of_passes hc fun hx t ht => ?_
  rw [exec_store_of_passes hi hx] at ht
  obtain ⟨addr, wb, hlegal⟩ := legal_of_next ht
  obtain ⟨hs, -⟩ | ⟨-, hw⟩ := memWrite_cases x.size addr (s.second x.rd) s
  · exact spsrWrite_entered he (entered_of_store_abort hlegal) t (store_of_abort hlegal hs ▸ ht)
  · obtain ⟨-, ⟨-, hp, -⟩, -⟩ := memWrite_frame hw
    exact spsrWrite_advance ((State.writeBack_spsrs ..).trans hp) t (store_of_legal hlegal hw ▸ ht)

/-- A swap that answers a next state passed the refusals of R168. -/
theorem swap_next_legal {size : Size} {rn rd rm : RegNum} {t : State} (h : swap size rn rd rm s = .next t) :
    s.swapLegal size rn rd rm := by
  rw [swap] at h
  split at h
  · cases h
  split at h
  · cases h
  split at h
  · cases h
  rename_i h15 hbase hal
  obtain ⟨hd, hm, hn⟩ := (not_or.1 h15).imp_right not_or.1
  obtain ⟨hnm, hnd⟩ := not_or.1 hbase
  exact ⟨hn, hd, hm, hnm, hnd, aligned_iff.1 (Bool.not_eq_false _ ▸ hal)⟩

theorem spsrWrite_of_swapForm {size : Size} {rn rd rm : RegNum} (hi : swapForm i = some (c, size, rn, rd, rm))
    (hc : armCond i = some c) (he : raisable i = some .dataAbort) : SpsrsAfter (exec i s) (SpsrWrite i s) := by
  refine spsrWrite_of_passes hc fun hx t ht => ?_
  rw [exec_swap_of_passes hi hx] at ht
  have hlegal := swap_next_legal ht
  by_cases hq : s.quiet 2
  · obtain ⟨u, hu, -, -, -, ⟨-, hp, -⟩, -⟩ := swap_of_quiet hlegal hq (memRead_found (quiet_two.1 hq).1 ..)
    exact spsrWrite_advance (u := u.setReg rd _) hp t (hu.symm.trans ht)
  · obtain ⟨as, d, hu⟩ := swap_of_abort hlegal hq
    have hent : Entered .dataAbort (s.pc + 8#32) s (dataAbort { s with aborts := as, draws := d }) :=
      entered_dataAbort rfl rfl rfl
    exact spsrWrite_entered he hent t (hu.symm.trans ht)

section Block
variable {p u sbit w : Bool} {rn : RegNum} {list : BitVec 16}

/-- A block transfer that answers a next state passed the refusals of R175. -/
theorem blockLegal_of_next {body : Word → Word → Word → Result} {t : State}
    (h : withBlock p u sbit w rn list s body = .next t) : sbit = false ∧ s.blockLegal w rn list := by
  obtain ⟨hs, hn, hlist, hal, hwb, -⟩ := withBlock_next h
  exact ⟨hs, hn, hlist, aligned_iff.1 hal, hwb⟩

theorem spsrWrite_ldm : SpsrsAfter (exec (.ldm c p u sbit w rn list) s) (SpsrWrite (.ldm c p u sbit w rn list) s) := by
  refine spsrWrite_of_passes rfl fun hc t ht => ?_
  obtain ⟨rfl, hlegal⟩ := blockLegal_of_next ((conditional_passes hc _).symm.trans ht)
  by_cases hq : s.quiet (regsOf list).length
  · obtain ⟨-, -, ⟨-, hp, -⟩, -⟩ := ldmLoop_frame p u rn list s
    cases h15 : list.getLsbD 15 with
    | true =>
      exact spsrsAfter_jumpArm ((State.writeBack_spsrs ..).trans hp ▸ .kept) t (exec_ldm_jump hc hlegal hq h15 ▸ ht)
    | false =>
      exact spsrWrite_advance ((State.writeBack_spsrs ..).trans hp) t (exec_ldm_advance hc hlegal hq h15 ▸ ht)
  · exact spsrWrite_entered rfl (entered_of_ldm_abort hlegal.1 _ _) t (exec_ldm_of_abort hc hlegal hq ▸ ht)

theorem spsrWrite_stm : SpsrsAfter (exec (.stm c p u sbit w rn list) s) (SpsrWrite (.stm c p u sbit w rn list) s) := by
  refine spsrWrite_of_passes rfl fun hc t ht => ?_
  obtain ⟨rfl, hlegal⟩ := blockLegal_of_next ((conditional_passes hc _).symm.trans ht)
  cases h15 : list.getLsbD 15 with
  | true => cases (exec_stm_r15 hc hlegal h15).symm.trans ht
  | false =>
    by_cases hq : s.quiet (regsOf list).length
    · obtain ⟨-, ⟨-, hp, -⟩, -⟩ := stmLoop_frame (p := p) (u := u) (rn := rn) (list := list) (s := s)
      exact spsrWrite_advance ((State.writeBack_spsrs ..).trans hp) t (exec_stm_of_quiet hc hlegal h15 hq ▸ ht)
    · exact spsrWrite_entered rfl (entered_of_stm_abort hlegal _) t (exec_stm_of_abort hc hlegal h15 hq ▸ ht)

end Block
end Accesses

/-! ## The status registers -/

/-- An MSR writes the SPSR of the mode, or none (42_psr_access.md R152). -/
theorem spsrWrite_msr {i : Instr} {spsr : Bool} {mask : BitVec 4} {v : Word} {s : State} :
    SpsrsAfter (msr spsr mask v s) (SpsrWrite i s) := by
  cases spsr with
  | true =>
    rw [msr, if_pos rfl, msrSpsr]
    split
    · exact spsrsAfter_refused
    · next n hn => exact spsrsAfter_advance (.ofMode _ hn)
  | false =>
    rw [msr, if_neg Bool.false_ne_true, msrCpsr]
    refine spsrsAfter_ite (spsrsAfter_ite spsrsAfter_refused ?_) (spsrsAfter_advance .kept)
    split
    · exact spsrsAfter_next .kept
    · exact spsrsAfter_advance .kept

/-- An MRS writes none (42_psr_access.md R151). -/
theorem spsrWrite_mrs {c : Cond} {spsr : Bool} {rd : RegNum} {s : State} :
    SpsrsAfter (exec (.mrs c spsr rd) s) (SpsrWrite (.mrs c spsr rd) s) := by
  refine spsrsAfter_conditional .kept (spsrsAfter_ite spsrsAfter_refused ?_)
  split
  · exact spsrsAfter_refused
  · exact spsrsAfter_advance .kept

/-! ## Every instruction -/

/-- Everything an instruction can make of the saved status registers. -/
theorem exec_spsrs (i : Instr) (s : State) : SpsrsAfter (exec i s) (SpsrWrite i s) := by
  cases i with
  | bx => exact spsrsAfter_conditional .kept (spsrsAfter_withReg fun _ => spsrsAfter_exchange .kept)
  | b | bl => exact spsrsAfter_conditional .kept (spsrsAfter_branchBy .kept)
  | movReg => exact spsrsAfter_conditional .kept (spsrsAfter_withReg fun _ => spsrsAfter_writeResult .kept)
  | movImm => exact spsrsAfter_conditional .kept (spsrsAfter_writeResult .kept)
  | addReg | subReg =>
    exact spsrsAfter_conditional .kept (spsrsAfter_withReg fun _ => spsrsAfter_withSecond fun _ =>
      spsrsAfter_writeResult .kept)
  | addImm | subImm =>
    exact spsrsAfter_conditional .kept (spsrsAfter_withReg fun _ => spsrsAfter_writeResult .kept)
  | cmpReg =>
    exact spsrsAfter_conditional .kept (spsrsAfter_withReg fun _ => spsrsAfter_withSecond fun _ =>
      spsrsAfter_advance .kept)
  | cmpImm => exact spsrsAfter_conditional .kept (spsrsAfter_withReg fun _ => spsrsAfter_advance .kept)
  | mrs => exact spsrWrite_mrs
  | msrReg => exact spsrsAfter_conditional .kept (spsrsAfter_withReg fun _ => spsrWrite_msr)
  | msrImm => exact spsrsAfter_conditional .kept spsrWrite_msr
  | ldr | ldrb | ldrh => exact spsrWrite_of_loadForm rfl rfl rfl
  | str | strb | strh => exact spsrWrite_of_storeForm rfl rfl rfl
  | ldm => exact spsrWrite_ldm
  | stm => exact spsrWrite_stm
  | swp | swpb => exact spsrWrite_of_swapForm rfl rfl rfl
  | swi | und => exact spsrsAfter_conditional .kept (spsrWrite_raise rfl)
  | tAdd | tCmp => exact spsrsAfter_withThumbSource (s := s) fun _ => spsrsAfter_advance .kept
  | tMov =>
    exact spsrsAfter_withThumbSource (s := s) fun _ => spsrsAfter_ite (spsrsAfter_advance .kept) (spsrsAfter_next .kept)
  | tBx => exact spsrsAfter_withReg (s := s) fun _ => spsrsAfter_exchange .kept
  | tB => exact spsrsAfter_ite (spsrsAfter_branchBy .kept) (spsrsAfter_advance .kept)
  | tSwi => exact spsrWrite_raise rfl

end Sys2Proof.Proofs.SpsrWrites
end

section
/-!
The traps (44_swi_undefined.md R190, R191; 45_thumb.md R206): their words, their exception entries, and that the undefined
instruction alone writes SPSR_und from outside Undefined mode.
-/

namespace Sys2Proof.Proofs.Traps
open Sys2Proof Sys2Proof.Machine Sys2Proof.Proofs.ArmDecoder Sys2Proof.Proofs.DataProcessingWords
  Sys2Proof.Proofs.SpsrWrites

/-! ## Words -/

/-- A field inside the fixed bits of a match. -/
theorem extractLsb'_of_match {v k n : Nat} {w mask value : BitVec v} (h : w &&& mask = value)
    (hmask : mask.extractLsb' k n = BitVec.allOnes n) : w.extractLsb' k n = value.extractLsb' k n := by
  rw [← h, BitVec.extractLsb'_and, hmask, BitVec.and_allOnes]

theorem decodeArm_swi (c : Cond) (comment : BitVec 24) :
    decodeArm (c.bits ++ 0b1111#4 ++ comment) = .ok (.swi c comment) := by
  refine decodeArm_of_row 24 (by decide) (Laws.RowMatch.swi c comment) ?_
  simp only [armTable, List.getElem_cons_succ, List.getElem_cons_zero,
    condField_eq (extractLsb'_cond_append c rfl 0b1111#4 comment), BitVec.extractLsb'_append_eq_right]

theorem decodeThumb_tSwi (value : Byte) : decodeThumb (0b11011111#8 ++ value) = .ok (.tSwi value) := by
  have hop : (0b11011111#8 ++ value) &&& 0xFF00#16 = 0xDF00#16 := Laws.RowMatch.tSwi value
  have hbx : ¬ ((0b11011111#8 ++ value) &&& 0xFF87#16 = 0x4700#16) := by
    intro h
    have hbits := extractLsb'_of_match h (k := 8) (n := 8) (by decide)
    rw [BitVec.extractLsb'_append_eq_left] at hbits
    exact absurd hbits (by decide)
  have hvalue : (0b11011111#8 ++ value).extractLsb' 0 8 = value := BitVec.extractLsb'_append_eq_right
  simp [decodeThumb, hop, hbx, hvalue]

/-- The fields of a word of format A-UND. -/
theorem fields_of_und (c : Cond) (high : BitVec 20) (low : BitVec 4) :
    let w := c.bits ++ 0b011#3 ++ high ++ 1#1 ++ low
    condField w = c ∧ w.extractLsb' 5 20 = high ∧ w.extractLsb' 0 4 = low := by
  intro w
  have hc : w.extractLsb' 28 4 = c.bits := by
    simp (disch := omega) only [w, BitVec.extractLsb'_append_eq_of_le]
    exact BitVec.extractLsb'_eq_self
  refine ⟨condField_eq hc, ?_, BitVec.extractLsb'_append_eq_right⟩
  simp (disch := omega) only [w, BitVec.extractLsb'_append_eq_of_le]
  exact BitVec.extractLsb'_append_eq_right

theorem decodeArm_und (c : Cond) (high : BitVec 20) (low : BitVec 4) :
    decodeArm (c.bits ++ 0b011#3 ++ high ++ 1#1 ++ low) = .ok (.und c high low) := by
  obtain ⟨hc, hhigh, hlow⟩ := fields_of_und c high low
  refine decodeArm_of_row 25 (by decide) (Laws.RowMatch.und c high low) ?_
  simp only [armTable, List.getElem_cons_succ, List.getElem_cons_zero, hc, hhigh, hlow]

/-- A word that decodes has the fixed bits of a row that builds its instruction. -/
theorem decodeArm_eq_ok {w : Word} {i : Instr} (h : decodeArm w = .ok i) :
    ∃ r ∈ armTable, w &&& r.mask = r.value ∧ r.build w = i := by
  rw [decodeArm] at h
  split at h
  · next r hr => exact ⟨r, List.mem_of_find?_eq_some hr, by simpa using List.find?_some hr, Except.ok.inj h⟩
  · cases h

theorem bits_condOfBits : ∀ b : BitVec 4, (Cond.ofBits b).bits = b := by decide

theorem bits_condField (w : Word) : (condField w).bits = w.extractLsb' 28 4 := bits_condOfBits _

/-- The last row of the table alone builds the undefined instruction. -/
theorem und_row {w : Word} {c : Cond} {high : BitVec 20} {low : BitVec 4} :
    ∀ r ∈ armTable, r.build w = .und c high low →
      r.mask = 0x0E000010 ∧ r.value = 0x06000010 ∧ condField w = c ∧ w.extractLsb' 5 20 = high ∧ w.extractLsb' 0 4 = low := by
  simp [armTable]

/-- A word is its condition field, its fields of format A-UND and the bits between, side by side. -/
theorem append_und_fields (w : Word) :
    w.extractLsb' 28 4 ++ w.extractLsb' 25 3 ++ w.extractLsb' 5 20 ++ w.extractLsb' 4 1 ++ w.extractLsb' 0 4 = w := by
  rw [BitVec.extractLsb'_append_extractLsb'_eq_extractLsb' (show 28 = 25 + 3 from rfl),
    BitVec.extractLsb'_append_extractLsb'_eq_extractLsb' (show 25 = 5 + 20 from rfl),
    BitVec.extractLsb'_append_extractLsb'_eq_extractLsb' (show 5 = 4 + 1 from rfl),
    BitVec.extractLsb'_append_extractLsb'_eq_extractLsb' (show 4 = 0 + 4 from rfl)]
  exact BitVec.extractLsb'_eq_self

theorem word_of_decodeArm_und {w : Word} {c : Cond} {high : BitVec 20} {low : BitVec 4}
    (h : decodeArm w = .ok (.und c high low)) : w = c.bits ++ 0b011#3 ++ high ++ 1#1 ++ low := by
  obtain ⟨r, hr, hmatch, hbuild⟩ := decodeArm_eq_ok h
  obtain ⟨hmask, hvalue, rfl, rfl, rfl⟩ := und_row r hr hbuild
  rw [hmask, hvalue] at hmatch
  have hop : w.extractLsb' 25 3 = 0b011#3 := extractLsb'_of_match hmatch (by decide)
  have hbit : w.extractLsb' 4 1 = 1#1 := extractLsb'_of_match hmatch (by decide)
  calc w = _ := (append_und_fields w).symm
    _ = _ := by rw [hop, hbit, bits_condField]

/-! ## Entries -/

theorem raise_swi (ret : Word) (s : State) :
    raise .swi ret s = { s with
      regs := { s.regs with r14svc := .value ret, r15 := 0x00000008#32 }
      spsrs := { s.spsrs with svc := s.cpsr.toPsr }
      cpsr := { s.cpsr with mode := .svc, t := false, i := true } } := by
  have hf : (s.cpsr.f || Exn.swi.masksFiq) = s.cpsr.f := Bool.or_false _
  rw [raise, hf]
  rfl

theorem raise_undefined (ret : Word) (s : State) :
    raise .undefined ret s = { s with
      regs := { s.regs with r14und := .value ret, r15 := 0x00000004#32 }
      spsrs := { s.spsrs with und := s.cpsr.toPsr }
      cpsr := { s.cpsr with mode := .und, t := false, i := true } } := by
  have hf : (s.cpsr.f || Exn.undefined.masksFiq) = s.cpsr.f := Bool.or_false _
  rw [raise, hf]
  rfl

theorem exec_swi_of_passes {c : Cond} {s : State} (h : s.passes c) (comment : BitVec 24) :
    exec (.swi c comment) s = .next (raise .swi (s.pc + 4#32) s) := conditional_passes h _

theorem exec_und_of_passes {c : Cond} {s : State} (h : s.passes c) (high : BitVec 20) (low : BitVec 4) :
    exec (.und c high low) s = .next (raise .undefined (s.pc + 4#32) s) := conditional_passes h _

theorem exec_tSwi (value : Byte) (s : State) : exec (.tSwi value) s = .next (raise .swi (s.pc + 2#32) s) := rfl

/-! ## Who writes SPSR_und -/

theorem raisable_undefined {i : Instr} (h : raisable i = some .undefined) : ∃ c high low, i = .und c high low := by
  cases i with
  | und c high low => exact ⟨c, high, low, rfl⟩
  | _ => cases h

theorem exn_eq_undefined_of_spsr {e : Exn} (h : e.spsr = .und) : e = .undefined := by
  cases e with
  | undefined => rfl
  | _ => cases h

theorem mode_eq_und_of_spsr {m : Mode} (h : m.spsr? = some .und) : m = .und := by
  cases m with
  | und => rfl
  | _ => cases h

/-- A write to another SPSR leaves SPSR_und. -/
theorem eq_und_of_set {p : SpsrFile} {n : SpsrName} {q : HeldPsr} (h : (p.set n q).und ≠ p.und) : n = .und := by
  by_contra hn
  exact h ((p.get_set n .und q).trans (if_neg (Ne.symm hn)))

/-- From outside Undefined mode SPSR_und is written by its exception alone. -/
theorem und_of_writes {i : Instr} {s : State} {p : SpsrFile} (h : SpsrWrite i s p) (hmode : s.cpsr.mode ≠ .und)
    (hp : p.und ≠ s.spsrs.und) : ∃ c high low, i = .und c high low := by
  cases h with
  | kept => exact absurd rfl hp
  | ofMode q hn => exact absurd (mode_eq_und_of_spsr (eq_und_of_set hp ▸ hn)) hmode
  | ofExn he => exact raisable_undefined (exn_eq_undefined_of_spsr (eq_und_of_set hp) ▸ he)

/-! ## The obligations -/

/-- Settles O30: both words decode, and both meanings are the entry of R225 with their own link value. -/
theorem swiEntersSupervisor : Obligations.SwiEntersSupervisor := by
  refine ⟨fun c comment s => ⟨decodeArm_swi c comment, fun hc => ?arm⟩, fun value s => ⟨decodeThumb_tSwi value, ?thumb⟩⟩
  case arm => rw [exec_swi_of_passes hc, raise_swi]
  case thumb => rw [exec_tSwi, raise_swi]

/-- Settles O31: the entry of R225; the fixed bits of the last row; and that an instruction writes an SPSR only as that of
its mode or of the exception it raises. -/
theorem undefinedTrap : Obligations.UndefinedTrap := by
  refine ⟨fun c high low s => ⟨decodeArm_und c high low, fun hc => ?trap⟩, fun w c high low => word_of_decodeArm_und,
    fun i s t ht hmode hund => und_of_writes (exec_spsrs i s t ht) hmode hund⟩
  case trap => rw [exec_und_of_passes hc, raise_undefined]

end Sys2Proof.Proofs.Traps
end

section
/-!
The THUMB halfwords (30_encoding.md R95, R96, R101): the decoder as a function of the opcode byte and the byte of operands,
and what each format decodes as.
-/

namespace Sys2Proof.Proofs.ThumbWords
open Sys2Proof

/-! ## The opcode byte -/

/-- A mask of two parts fixes both parts of a word. -/
theorem append_match_iff {m n : Nat} {high maskHigh valueHigh : BitVec m} {low maskLow valueLow : BitVec n} :
    (high ++ low) &&& (maskHigh ++ maskLow) = valueHigh ++ valueLow ↔
      high &&& maskHigh = valueHigh ∧ low &&& maskLow = valueLow := by
  rw [BitVec.and_append]
  constructor
  · intro h
    have hhigh := congrArg (BitVec.extractLsb' n m) h
    have hlow := congrArg (BitVec.extractLsb' 0 n) h
    simp only [BitVec.extractLsb'_append_eq_left] at hhigh
    simp only [BitVec.extractLsb'_append_eq_right] at hlow
    exact ⟨hhigh, hlow⟩
  · rintro ⟨rfl, rfl⟩
    rfl

/-- The mask FF00 fixes the opcode byte alone. -/
theorem opcode_match_iff (op low value : Byte) : (op ++ low) &&& 0xFF00#16 = value ++ 0#8 ↔ op = value := by
  rw [show 0xFF00#16 = BitVec.allOnes 8 ++ 0#8 from rfl, append_match_iff, BitVec.and_allOnes, BitVec.and_zero]
  exact and_iff_left rfl

/-- The mask FF87 of the BX row fixes the opcode byte and the operand bits around Rs. -/
theorem exchange_match_iff (op low : Byte) :
    (op ++ low) &&& 0xFF87#16 = 0x4700#16 ↔ op = 0x47#8 ∧ low &&& 0x87#8 = 0x00#8 := by
  rw [show 0xFF87#16 = BitVec.allOnes 8 ++ 0x87#8 from rfl, show 0x4700#16 = 0x47#8 ++ 0x00#8 from rfl, append_match_iff,
    BitVec.and_allOnes]

/-- The mask F000 of format T-BC fixes the upper half of the opcode byte. -/
theorem branch_match_iff (op low : Byte) : (op ++ low) &&& 0xF000#16 = 0xD000#16 ↔ op &&& 0xF0#8 = 0xD0#8 := by
  rw [show 0xF000#16 = 0xF0#8 ++ 0#8 from rfl, show 0xD000#16 = 0xD0#8 ++ 0#8 from rfl, append_match_iff, BitVec.and_zero]
  exact and_iff_left rfl

/-- Rd and Rs of format T-HI, in the byte of operands. -/
theorem fields_of_highRegisters (rd rs : RegNum) :
    let low : Byte := rd.extractLsb' 3 1 ++ rs ++ rd.extractLsb' 0 3
    low.extractLsb' 7 1 ++ low.extractLsb' 0 3 = rd ∧ low.extractLsb' 3 4 = rs := by
  simp (disch := omega) only [BitVec.extractLsb'_append_eq_of_le, BitVec.extractLsb'_append_eq_right]
  refine ⟨?_, BitVec.extractLsb'_append_eq_right⟩
  rw [BitVec.extractLsb'_eq_self, BitVec.extractLsb'_append_extractLsb'_eq_extractLsb' (show 3 = 0 + 3 from rfl)]
  exact BitVec.extractLsb'_eq_self

/-- A field of a halfword inside its byte of operands. -/
theorem extractLsb'_operands (op low : Byte) {k n : Nat} (h : k + n ≤ 8) :
    (op ++ low).extractLsb' k n = low.extractLsb' k n := BitVec.extractLsb'_append_eq_of_add_le h

/-- The THUMB decoder on an opcode byte and a byte of operands. -/
theorem decodeThumb_append (op low : Byte) :
    decodeThumb (op ++ low) =
      if op = 0x44#8 then .ok (.tAdd (low.extractLsb' 7 1 ++ low.extractLsb' 0 3) (low.extractLsb' 3 4))
      else if op = 0x45#8 then .ok (.tCmp (low.extractLsb' 7 1 ++ low.extractLsb' 0 3) (low.extractLsb' 3 4))
      else if op = 0x46#8 then .ok (.tMov (low.extractLsb' 7 1 ++ low.extractLsb' 0 3) (low.extractLsb' 3 4))
      else if op = 0x47#8 ∧ low &&& 0x87#8 = 0x00#8 then .ok (.tBx (low.extractLsb' 3 4))
      else if op = 0xDF#8 then .ok (.tSwi low)
      else if op = 0xDE#8 then .error .notInSubset
      else if op &&& 0xF0#8 = 0xD0#8 then .ok (.tB (Cond.ofBits (op.extractLsb' 0 4)) low)
      else .error .notInSubset := by
  have hcond : (op ++ low).extractLsb' 8 4 = op.extractLsb' 0 4 := BitVec.extractLsb'_append_eq_of_le (by decide)
  have hlow : (op ++ low).extractLsb' 0 8 = low := BitVec.extractLsb'_append_eq_right
  rw [decodeThumb, thumbRd, hcond, hlow, extractLsb'_operands op low (by decide), extractLsb'_operands op low (by decide),
    extractLsb'_operands op low (by decide)]
  exact if_congr (opcode_match_iff op low 0x44) rfl <|
    if_congr (opcode_match_iff op low 0x45) rfl <|
    if_congr (opcode_match_iff op low 0x46) rfl <|
    if_congr (exchange_match_iff op low) rfl <|
    if_congr (opcode_match_iff op low 0xDF) rfl <|
    if_congr (opcode_match_iff op low 0xDE) rfl <|
    if_congr (branch_match_iff op low) rfl rfl

/-! ## The formats -/

theorem decodeThumb_tAdd (rd rs : RegNum) :
    decodeThumb (0b01000100#8 ++ (rd.extractLsb' 3 1 ++ rs ++ rd.extractLsb' 0 3)) = .ok (.tAdd rd rs) := by
  obtain ⟨hrd, hrs⟩ := fields_of_highRegisters rd rs
  rw [decodeThumb_append, if_pos rfl, hrd, hrs]

theorem decodeThumb_tCmp (rd rs : RegNum) :
    decodeThumb (0b01000101#8 ++ (rd.extractLsb' 3 1 ++ rs ++ rd.extractLsb' 0 3)) = .ok (.tCmp rd rs) := by
  obtain ⟨hrd, hrs⟩ := fields_of_highRegisters rd rs
  rw [decodeThumb_append, if_neg (by decide), if_pos rfl, hrd, hrs]

theorem decodeThumb_tMov (rd rs : RegNum) :
    decodeThumb (0b01000110#8 ++ (rd.extractLsb' 3 1 ++ rs ++ rd.extractLsb' 0 3)) = .ok (.tMov rd rs) := by
  obtain ⟨hrd, hrs⟩ := fields_of_highRegisters rd rs
  rw [decodeThumb_append, if_neg (by decide), if_neg (by decide), if_pos rfl, hrd, hrs]

theorem decodeThumb_tBx (rs : RegNum) : decodeThumb (0b010001110#9 ++ rs ++ 0b000#3) = .ok (.tBx rs) := by
  have hbytes : ∀ r : RegNum, 0b010001110#9 ++ r ++ 0b000#3 = 0x47#8 ++ (0#1 ++ r ++ 0b000#3) := by decide
  have hzero : ∀ r : RegNum, (0#1 ++ r ++ 0b000#3) &&& 0x87#8 = 0x00#8 := by decide
  have hrs : (0#1 ++ rs ++ 0b000#3).extractLsb' 3 4 = rs := by
    rw [BitVec.extractLsb'_append_eq_of_le (by decide), BitVec.extractLsb'_append_eq_right]
  rw [hbytes, decodeThumb_append, if_neg (by decide), if_neg (by decide), if_neg (by decide), if_pos ⟨rfl, hzero rs⟩, hrs]

/-- The fourteen conditions of format T-BC give opcode bytes that no earlier row has. -/
theorem decodeThumb_tB {c : Cond} (hal : c ≠ .al) (hnv : c ≠ .nv) (offset : Byte) :
    decodeThumb (0b1101#4 ++ c.bits ++ offset) = .ok (.tB c offset) := by
  rw [decodeThumb_append]
  cases c with
  | al => exact absurd rfl hal
  | nv => exact absurd rfl hnv
  | _ => rfl

theorem decodeThumb_branch_al (offset : Byte) : decodeThumb (0b1101#4 ++ 0b1110#4 ++ offset) = .error .notInSubset :=
  (decodeThumb_append (0b1101#4 ++ 0b1110#4) offset).trans rfl

end Sys2Proof.Proofs.ThumbWords
end

section
/-!
The THUMB-state instructions (45_thumb.md R200 to R205): BX, the conditional branch, and ADD, CMP and MOV on high registers.
-/

namespace Sys2Proof.Proofs.Thumb
open Sys2Proof Sys2Proof.Machine Sys2Proof.Proofs.Branches Sys2Proof.Proofs.DataProcessing Sys2Proof.Proofs.FlagRule
  Sys2Proof.Proofs.ThumbWords Sys2Proof.Proofs.TransferRules Sys2Proof.Proofs.Traps

/-! ## BX -/

theorem exec_tBx (rs : RegNum) (s : State) : exec (.tBx rs) s = withReg rs s fun v => exchange v s := rfl

/-- In THUMB state a switch to THUMB state only jumps. -/
theorem exchange_stays_thumb {v : Word} {s : State} (ht : s.cpsr.t = true) (h0 : v[0] = true) :
    exchange v s = .next (s.setPc (v.extractLsb' 1 31 ++ 0#1)) := by
  have hcpsr : { s.cpsr with t := true } = s.cpsr := by rw [← ht]
  rw [exchange_to_thumb h0, hcpsr]

/-! ## The conditional branch -/

theorem exec_tB_taken {c : Cond} {s : State} (h : condHolds c s.flags = true) (offset : Byte) :
    exec (.tB c offset) s = branchBy (thumbDisp offset) s := if_pos h

theorem exec_tB_not_taken {c : Cond} {s : State} (h : condHolds c s.flags = false) (offset : Byte) :
    exec (.tB c offset) s = advance 2 s := if_neg (by rw [h]; decide)

/-- The target of a THUMB branch (30_encoding.md R101). -/
theorem ofInt_thumbDisp (pc : Word) (offset : Byte) :
    BitVec.ofInt 32 ((pc.toNat : Int) + thumbDisp offset) = pc + 4#32 + (offset.signExtend 32 <<< 1) :=
  ofInt_target pc 4 1 offset

theorem add_thumbDisp (pc : Int) (offset : Byte) : pc + thumbDisp offset = pc + 4 + 2 * offset.toInt :=
  (Int.add_assoc ..).symm

/-! ## High registers -/

theorem getLsbD_three_eq_false_iff : ∀ i : RegNum, i.getLsbD 3 = false ↔ i.toNat < 8 := by decide

theorem bothLow_iff {rd rs : RegNum} : bothLow rd rs = true ↔ rd.toNat < 8 ∧ rs.toNat < 8 := by
  simp only [bothLow, Bool.and_eq_true, decide_eq_true_eq, getLsbD_three_eq_false_iff]

theorem bothLow_eq_false_iff {rd rs : RegNum} : bothLow rd rs = false ↔ 8 ≤ rd.toNat ∨ 8 ≤ rs.toNat := by
  rw [← Bool.not_eq_true, bothLow_iff, not_and_or, not_lt, not_lt]

section Sources
variable {rd rs : RegNum} {s : State}

theorem withThumbSource_bothLow (hd : rd.toNat < 8) (hs : rs.toNat < 8) (readsRd : Bool) (body : Word → Result) :
    withThumbSource readsRd rd rs s body = .refused .bothLow := if_pos (bothLow_iff.2 ⟨hd, hs⟩)

/-- R15 is a high register, so its refusal is the one that comes. -/
theorem withThumbSource_r15 {readsRd : Bool} (h : rs = 15#4 ∨ (readsRd = true ∧ rd = 15#4)) (body : Word → Result) :
    withThumbSource readsRd rd rs s body = .refused .r15Operand := by
  have hhigh : bothLow rd rs = false := by
    rw [bothLow_eq_false_iff]
    rcases h with rfl | ⟨-, rfl⟩
    · exact .inr (by decide)
    · exact .inl (by decide)
  rw [withThumbSource, if_neg (by rw [hhigh]; decide), if_pos h]

theorem withThumbSource_of_pair {readsRd : Bool} (hp : thumbPair rd rs) (hd : readsRd = true → rd ≠ 15#4)
    (body : Word → Result) : withThumbSource readsRd rd rs s body = body (s.second rs) :=
  withThumbSource_eq (bothLow_eq_false_iff.2 hp.1) hp.2 (fun h => hd h.1 h.2) body

theorem exec_tAdd : exec (.tAdd rd rs) s = withThumbSource true rd rs s fun v => advance 2 (s.setReg rd (s.reg rd + v)) := rfl

theorem exec_tCmp :
    exec (.tCmp rd rs) s = withThumbSource true rd rs s fun v => advance 2 (s.setFlags (diffFlags (s.reg rd) v).held) := by
  simp only [← subFlags_eq_diffFlags]
  rfl

theorem exec_tMov :
    exec (.tMov rd rs) s = withThumbSource false rd rs s fun v =>
      if rd ≠ 15#4 then advance 2 (s.setReg rd v) else .next (s.setPc (v.extractLsb' 1 31 ++ 0#1)) := rfl

theorem exec_tAdd_of_pair (hp : thumbPair rd rs) (hd : rd ≠ 15#4) :
    exec (.tAdd rd rs) s = advance 2 (s.setReg rd (s.reg rd + s.second rs)) := by
  rw [exec_tAdd, withThumbSource_of_pair hp fun _ => hd]

theorem exec_tCmp_of_pair (hp : thumbPair rd rs) (hd : rd ≠ 15#4) :
    exec (.tCmp rd rs) s = advance 2 (s.setFlags (diffFlags (s.reg rd) (s.second rs)).held) := by
  rw [exec_tCmp, withThumbSource_of_pair hp fun _ => hd]

/-- MOV does not read Rd, so any Rd passes the refusals. -/
theorem exec_tMov_of_pair (hp : thumbPair rd rs) :
    exec (.tMov rd rs) s =
      if rd ≠ 15#4 then advance 2 (s.setReg rd (s.second rs))
      else .next (s.setPc ((s.second rs).extractLsb' 1 31 ++ 0#1)) := by
  rw [exec_tMov, withThumbSource_of_pair hp fun h : false = true => nomatch h]

end Sources

/-! ## The obligations -/

/-- Settles O2: past the R15 check BX is `exchange`, whose three cases are the clauses. -/
theorem thumbBxSwitchesState : Obligations.ThumbBxSwitchesState := by
  intro rs s
  refine ⟨decodeThumb_tBx rs, fun ht => ?_⟩
  rw [exec_tBx]
  refine ⟨fun h15 => ?r15, fun hrs h0 => ?thumb, fun hrs h0 h1 => ?arm, fun hrs h0 h1 => ?misaligned⟩
  case r15 => exact withReg_r15 h15 s _
  case thumb => rw [withReg_eq hrs, exchange_stays_thumb ht h0]
  case arm => rw [withReg_eq hrs, exchange_to_arm h0 h1]
  case misaligned => rw [withReg_eq hrs, exchange_misaligned h0 h1]

/-- Settles O5: the three words by their opcode bytes; the branch is `branchBy` with the displacement of R101 or an advance
by 2. -/
theorem thumbConditionalBranch : Obligations.ThumbConditionalBranch := by
  intro c offset s hal hnv target total
  refine ⟨decodeThumb_tB hal hnv offset, decodeThumb_branch_al offset, decodeThumb_tSwi offset,
    fun hc hlo hhi => ?taken, fun hc hadv => ?notTaken, fun hc hadv => ?lastAddress⟩
  case taken => rw [exec_tB_taken hc, branchBy_eq (add_thumbDisp .. ▸ ⟨hlo, hhi⟩), ofInt_thumbDisp]
  case notTaken => rw [exec_tB_not_taken hc, advance_eq hadv]
  case lastAddress => rw [exec_tB_not_taken hc, advance_refused hadv]

/-- Settles O32: the words by their opcode bytes; the refusals of R200 in its order; and past them each instruction is an
advance by 2 from a state with the pc of the old one, or the jump of MOV. -/
theorem thumbHighRegisters : Obligations.ThumbHighRegisters := by
  intro rd rs s fields
  have hpc (hd : rd ≠ 15#4) (v : Word) : (s.setReg rd v).pc = s.pc := s.setReg_pc hd v
  refine ⟨decodeThumb_tAdd rd rs, decodeThumb_tCmp rd rs, decodeThumb_tMov rd rs, fun hd hs => ?bothLow, fun hs => ?source,
    fun h => ?operand, fun hp hd hadv => ?completes, fun hp hd hadv => ?lastAddress, fun hp hd => ?jump⟩
  case bothLow =>
    rw [exec_tAdd, exec_tCmp, exec_tMov]
    exact ⟨withThumbSource_bothLow hd hs _ _, withThumbSource_bothLow hd hs _ _, withThumbSource_bothLow hd hs _ _⟩
  case source => rw [exec_tMov, withThumbSource_r15 (.inl hs)]
  case operand =>
    have hr15 : rs = 15#4 ∨ (true = true ∧ rd = 15#4) := h.imp_right fun hd => ⟨rfl, hd⟩
    rw [exec_tAdd, exec_tCmp]
    exact ⟨withThumbSource_r15 hr15 _, withThumbSource_r15 hr15 _⟩
  case completes =>
    rw [exec_tAdd_of_pair hp hd, exec_tCmp_of_pair hp hd, exec_tMov_of_pair hp, if_pos hd]
    exact ⟨advance_eq_of_pc_eq (hpc hd _) hadv, advance_eq_of_pc_eq (s.setFlags_pc _) hadv,
      advance_eq_of_pc_eq (hpc hd _) hadv⟩
  case lastAddress =>
    rw [exec_tAdd_of_pair hp hd, exec_tCmp_of_pair hp hd, exec_tMov_of_pair hp, if_pos hd]
    exact ⟨advance_refused_of_pc_eq (hpc hd _) hadv, advance_refused_of_pc_eq (s.setFlags_pc _) hadv,
      advance_refused_of_pc_eq (hpc hd _) hadv⟩
  case jump => rw [exec_tMov_of_pair hp, if_neg (not_not_intro hd)]

end Sys2Proof.Proofs.Thumb
end

section
/-!
Taking an exception (60_exceptions.md R222, R223, R225): the tables of the seven exceptions, and what an entry writes and what
it leaves.
-/

namespace Sys2Proof.Proofs.ExceptionEntry
open Sys2Proof Sys2Proof.Machine Sys2Proof.Proofs.Registers

/-! ## The tables -/

theorem exn_modes :
    Exn.reset.mode = .svc ∧ Exn.undefined.mode = .und ∧ Exn.swi.mode = .svc ∧ Exn.prefetchAbort.mode = .abt ∧
    Exn.dataAbort.mode = .abt ∧ Exn.irq.mode = .irq ∧ Exn.fiq.mode = .fiq :=
  ⟨rfl, rfl, rfl, rfl, rfl, rfl, rfl⟩

/-- The link registers are the R14 of the modes entered. -/
theorem exn_links :
    bank Exn.reset.mode 14#4 = .r14svc ∧ bank Exn.undefined.mode 14#4 = .r14und ∧ bank Exn.swi.mode 14#4 = .r14svc ∧
    bank Exn.prefetchAbort.mode 14#4 = .r14abt ∧ bank Exn.dataAbort.mode 14#4 = .r14abt ∧
    bank Exn.irq.mode 14#4 = .r14irq ∧ bank Exn.fiq.mode 14#4 = .r14fiq := by
  obtain ⟨-, -, hfiq, hirq, hsvc, habt, hund⟩ := bank_r14
  exact ⟨hsvc, hund, hsvc, habt, habt, hirq, hfiq⟩

theorem exn_spsrs :
    Exn.reset.spsr = .svc ∧ Exn.undefined.spsr = .und ∧ Exn.swi.spsr = .svc ∧ Exn.prefetchAbort.spsr = .abt ∧
    Exn.dataAbort.spsr = .abt ∧ Exn.irq.spsr = .irq ∧ Exn.fiq.spsr = .fiq :=
  ⟨rfl, rfl, rfl, rfl, rfl, rfl, rfl⟩

theorem exn_vectors :
    Exn.reset.vector = 0x00#32 ∧ Exn.undefined.vector = 0x04#32 ∧ Exn.swi.vector = 0x08#32 ∧
    Exn.prefetchAbort.vector = 0x0C#32 ∧ Exn.dataAbort.vector = 0x10#32 ∧ Exn.irq.vector = 0x18#32 ∧
    Exn.fiq.vector = 0x1C#32 :=
  ⟨rfl, rfl, rfl, rfl, rfl, rfl, rfl⟩

/-- Reset and FIQ alone set F. -/
theorem masksFiq_iff {e : Exn} : e.masksFiq = true ↔ e = .reset ∨ e = .fiq := by
  cases e <;> decide

/-! ## The entry -/

section Entry
variable {e : Exn} (ret : Word) (s : State)

theorem raise_f_set (h : e = .reset ∨ e = .fiq) : (raise e ret s).cpsr.f = true := by
  rw [raise_cpsr, masksFiq_iff.2 h, Bool.or_true]

theorem raise_f_kept (hreset : e ≠ .reset) (hfiq : e ≠ .fiq) : (raise e ret s).cpsr.f = s.cpsr.f := by
  have hmask : e.masksFiq = false := Bool.eq_false_iff.2 fun h => (masksFiq_iff.1 h).elim hreset hfiq
  rw [raise_cpsr, hmask, Bool.or_false]

theorem raise_link : (raise e ret s).regIn e.mode 14#4 = .value ret := by
  rw [State.regIn, raise_get, if_neg (bank_ne_r15 _ (by decide)), if_pos rfl]

theorem raise_get_of_ne {q : PhysReg} (hpc : q ≠ .r15) (hlink : q ≠ bank e.mode 14#4) :
    (raise e ret s).regs.get q = s.regs.get q := by
  rw [raise_get, if_neg hpc, if_neg hlink]

theorem raise_saved : (raise e ret s).spsrs.get e.spsr = s.cpsr.toPsr := by
  rw [raise_spsrs, SpsrFile.get_set, if_pos rfl]

theorem raise_spsrs_of_ne {n : SpsrName} (h : n ≠ e.spsr) : (raise e ret s).spsrs.get n = s.spsrs.get n := by
  rw [raise_spsrs, SpsrFile.get_set, if_neg h]

end Entry

/-! ## The obligation -/

/-- Settles O39: the tables of R222 and R223; and field by field what `raise` writes, where a register or SPSR other than those
of the mode entered is one that the write passes by. Nothing here needs that the exception is not reset. -/
theorem exceptionEntry : Obligations.ExceptionEntry := by
  refine ⟨exn_modes, exn_links, ?spsrs, exn_vectors, fun e ret s => ?entry⟩
  case spsrs =>
    obtain ⟨hreset, hund, hswi, hpabt, hdabt, hirq, hfiq⟩ := exn_spsrs
    exact ⟨hreset, hund, hswi, hpabt, hdabt, hirq, hfiq, Exn.spsr_mode⟩
  case entry =>
    have hcpsr := raise_cpsr e ret s
    exact ⟨congrArg Cpsr.mode hcpsr, congrArg Cpsr.t hcpsr, congrArg Cpsr.i hcpsr, raise_f_set ret s, raise_f_kept ret s,
      raise_pc e ret s, fun _ => ⟨raise_link ret s, raise_saved ret s, by rw [hcpsr],
        fun _ => raise_get_of_ne ret s, fun _ => raise_spsrs_of_ne ret s,
        raise_mem e ret s, raise_modified e ret s, raise_wedged e ret s⟩⟩

end Sys2Proof.Proofs.ExceptionEntry
end

section
/-!
The words of the status register accesses (30_encoding.md R94, formats A-MRS and A-MSR): their fields, and what each decodes
as.
-/

namespace Sys2Proof.Proofs.StatusWords
open Sys2Proof Sys2Proof.Proofs.ArmDecoder Sys2Proof.Proofs.DataProcessingWords Sys2Proof.Proofs.TransferWords

/-- The condition, the R bit and bits [19:16] of a status register access. -/
theorem fields_above_status (c : Cond) (op : BitVec 5) (spsr : Bool) (dir : BitVec 2) (high : BitVec 4) (low : BitVec 16) :
    let w := c.bits ++ op ++ BitVec.ofBool spsr ++ dir ++ high ++ low
    condField w = c ∧ w.getLsbD 22 = spsr ∧ w.extractLsb' 16 4 = high := by
  intro w
  have hbit {v : Nat} (y : BitVec v) (k : Nat) : y.getLsbD k = (y.extractLsb' k 1).getLsbD 0 := by simp
  refine ⟨condField_eq ?_, ?_, ?_⟩
  · simp (disch := omega) only [w, BitVec.extractLsb'_append_eq_of_le]
    exact BitVec.extractLsb'_eq_self
  · simp (disch := omega) only [w, hbit _ 22, BitVec.extractLsb'_append_eq_of_le]
    exact (congrArg (BitVec.getLsbD · 0) BitVec.extractLsb'_append_eq_right).trans (by simp)
  · simp (disch := omega) only [w, BitVec.extractLsb'_append_eq_of_le]
    exact BitVec.extractLsb'_append_eq_right

theorem decodeArm_mrs (c : Cond) (spsr : Bool) (rd : RegNum) :
    decodeArm (c.bits ++ 0b00010#5 ++ BitVec.ofBool spsr ++ 0b00#2 ++ 0b1111#4 ++ rd ++ 0#12) = .ok (.mrs c spsr rd) := by
  have hassoc : c.bits ++ 0b00010#5 ++ BitVec.ofBool spsr ++ 0b00#2 ++ 0b1111#4 ++ rd ++ 0#12 =
      c.bits ++ 0b00010#5 ++ BitVec.ofBool spsr ++ 0b00#2 ++ 0b1111#4 ++ (rd ++ 0#12) := BitVec.append_assoc
  obtain ⟨hc, hs, -⟩ := hassoc ▸ fields_above_status c 0b00010#5 spsr 0b00#2 0b1111#4 (rd ++ 0#12)
  obtain ⟨hd, -⟩ := fields_of_offset rd 0#12
  refine decodeArm_of_row 11 (by decide) (Laws.RowMatch.mrs c spsr rd) ?_
  simp only [armTable, List.getElem_cons_succ, List.getElem_cons_zero, hc, hs]
  rw [hassoc, extractLsb'_low _ _ (by decide), hd]

theorem decodeArm_msrReg (c : Cond) (spsr : Bool) (mask : BitVec 4) (rm : RegNum) :
    decodeArm (c.bits ++ 0b00010#5 ++ BitVec.ofBool spsr ++ 0b10#2 ++ mask ++ 0b1111#4 ++ 0#8 ++ rm) =
      .ok (.msrReg c spsr mask rm) := by
  have hassoc : c.bits ++ 0b00010#5 ++ BitVec.ofBool spsr ++ 0b10#2 ++ mask ++ 0b1111#4 ++ 0#8 ++ rm =
      c.bits ++ 0b00010#5 ++ BitVec.ofBool spsr ++ 0b10#2 ++ mask ++ (0b1111#4 ++ 0#8 ++ rm) := by
    simp only [BitVec.append_assoc, BitVec.cast_eq]
  obtain ⟨hc, hs, hm⟩ := hassoc ▸ fields_above_status c 0b00010#5 spsr 0b10#2 mask (0b1111#4 ++ 0#8 ++ rm)
  refine decodeArm_of_row 12 (by decide) (Laws.RowMatch.msrReg c spsr mask rm) ?_
  simp only [armTable, List.getElem_cons_succ, List.getElem_cons_zero, hc, hs, hm, BitVec.extractLsb'_append_eq_right]

theorem decodeArm_msrImm (c : Cond) (spsr : Bool) (mask rot : BitVec 4) (imm : Byte) :
    decodeArm (c.bits ++ 0b00110#5 ++ BitVec.ofBool spsr ++ 0b10#2 ++ mask ++ 0b1111#4 ++ rot ++ imm) =
      .ok (.msrImm c spsr mask rot imm) := by
  have hassoc : c.bits ++ 0b00110#5 ++ BitVec.ofBool spsr ++ 0b10#2 ++ mask ++ 0b1111#4 ++ rot ++ imm =
      c.bits ++ 0b00110#5 ++ BitVec.ofBool spsr ++ 0b10#2 ++ mask ++ (0b1111#4 ++ rot ++ imm) := by
    simp only [BitVec.append_assoc, BitVec.cast_eq]
  obtain ⟨hc, hs, hm⟩ := hassoc ▸ fields_above_status c 0b00110#5 spsr 0b10#2 mask (0b1111#4 ++ rot ++ imm)
  refine decodeArm_of_row 13 (by decide) (Laws.RowMatch.msrImm c spsr mask rot imm) ?_
  simp only [armTable, List.getElem_cons_succ, List.getElem_cons_zero, hc, hs, hm, fields_of_immediate]

end Sys2Proof.Proofs.StatusWords
end

section
/-!
The encoder and the decoder (30_encoding.md R94 to R96, R102, R103): each reads back what the other writes, and the rows of the
table share no word.
-/

namespace Sys2Proof.Proofs.EncodeDecode
open Sys2Proof Sys2Proof.Proofs.ArmDecoder Sys2Proof.Proofs.DataProcessingWords Sys2Proof.Proofs.TransferWords
  Sys2Proof.Proofs.StatusWords Sys2Proof.Proofs.ThumbWords Sys2Proof.Proofs.Traps Sys2Proof.Proofs.MemoryAccess

/-! ## Bytes -/

theorem decode_wordBytes (be : Bool) (w : Word) : decode be false (wordBytes be w) = decodeArm w := by
  have hw : assemble be (wordBytes be w) = w := assemble_storeBytes be .word w
  cases be <;> exact congrArg decodeArm hw

theorem assemble_halfBytes (be : Bool) (h : Half) : (assemble be (halfBytes be h)).setWidth 16 = h := by
  have hh : h.extractLsb' 8 8 ++ h.extractLsb' 0 8 = h := BitVec.extractLsb'_append_extractLsb'
  cases be <;> simp [assemble, halfBytes, hh]

theorem decode_halfBytes (be : Bool) (h : Half) : decode be true (halfBytes be h) = decodeThumb h := by
  have hh := assemble_halfBytes be h
  cases be <;> exact congrArg decodeThumb hh

/-- What the decoder makes of an encoded instruction, by its instruction set. -/
def decodeCode : Code → Except DecodeError Instr
  | .arm w => decodeArm w
  | .thumb h => decodeThumb h

theorem decode_bytes (be : Bool) (x : Code) : decode be x.isThumb (x.bytes be) = decodeCode x := by
  cases x with
  | arm w => exact decode_wordBytes be w
  | thumb h => exact decode_halfBytes be h

/-! ## Decoding an encoding -/

theorem thumbBranch_iff (c : Cond) : c.thumbBranch = true ↔ c ≠ .al ∧ c ≠ .nv := by
  cases c <;> decide

/-- The opcode byte and the byte of operands of format T-HI. -/
theorem append_highRegisters (op : Byte) (rd rs : RegNum) :
    op ++ rd.extractLsb' 3 1 ++ rs ++ rd.extractLsb' 0 3 = op ++ (rd.extractLsb' 3 1 ++ rs ++ rd.extractLsb' 0 3) := by
  simp only [BitVec.append_assoc, BitVec.cast_eq]

theorem decodeCode_encode {i : Instr} (hi : i.wellFormed = true) : decodeCode (encode i) = .ok i := by
  cases i with
  | bx c rm => exact decodeArm_bx c rm
  | b c offset => exact decodeArm_b c offset
  | bl c offset => exact decodeArm_bl c offset
  | movReg c sf rd rm => exact decodeArm_movReg c sf rd rm
  | movImm c sf rd rot imm => exact decodeArm_movImm c sf rd rot imm
  | addReg c sf rn rd rm => exact decodeArm_addReg c sf rn rd rm
  | addImm c sf rn rd rot imm => exact decodeArm_addImm c sf rn rd rot imm
  | subReg c sf rn rd rm => exact decodeArm_subReg c sf rn rd rm
  | subImm c sf rn rd rot imm => exact decodeArm_subImm c sf rn rd rot imm
  | cmpReg c rn rm => exact decodeArm_cmpReg c rn rm
  | cmpImm c rn rot imm => exact decodeArm_cmpImm c rn rot imm
  | mrs c spsr rd => exact decodeArm_mrs c spsr rd
  | msrReg c spsr mask rm => exact decodeArm_msrReg c spsr mask rm
  | msrImm c spsr mask rot imm => exact decodeArm_msrImm c spsr mask rot imm
  | ldr c p u w rn rd offset => exact decodeArm_ldr c p u w rn rd offset
  | str c p u w rn rd offset => exact decodeArm_str c p u w rn rd offset
  | ldrb c p u w rn rd offset => exact decodeArm_ldrb c p u w rn rd offset
  | strb c p u w rn rd offset => exact decodeArm_strb c p u w rn rd offset
  | ldrh c p u w rn rd immH immL => exact decodeArm_ldrh c p u w rn rd immH immL
  | strh c p u w rn rd immH immL => exact decodeArm_strh c p u w rn rd immH immL
  | ldm c p u sbit w rn list => exact decodeArm_ldm c p u sbit w rn list
  | stm c p u sbit w rn list => exact decodeArm_stm c p u sbit w rn list
  | swp c rn rd rm => exact decodeArm_swp c rn rd rm
  | swpb c rn rd rm => exact decodeArm_swpb c rn rd rm
  | swi c comment => exact decodeArm_swi c comment
  | und c high low => exact decodeArm_und c high low
  | tAdd rd rs => exact (congrArg decodeThumb (append_highRegisters ..)).trans (decodeThumb_tAdd rd rs)
  | tCmp rd rs => exact (congrArg decodeThumb (append_highRegisters ..)).trans (decodeThumb_tCmp rd rs)
  | tMov rd rs => exact (congrArg decodeThumb (append_highRegisters ..)).trans (decodeThumb_tMov rd rs)
  | tBx rs => exact decodeThumb_tBx rs
  | tB c offset =>
    obtain ⟨hal, hnv⟩ := (thumbBranch_iff c).1 hi
    exact decodeThumb_tB hal hnv offset
  | tSwi value => exact decodeThumb_tSwi value

/-- Settles O57: the bytes assemble to the code, and each format decodes as its instruction. -/
theorem decodeEncode : Obligations.DecodeEncode := by
  intro i be hi
  rw [decode_bytes, decodeCode_encode hi]

/-! ## Encoding what was decoded -/

theorem flag_getLsbD (w : Word) (k : Nat) : flag (w.getLsbD k) = w.extractLsb' k 1 := by
  ext i hi
  obtain rfl : i = 0 := by omega
  simp [flag]

/-! A word is its fields side by side, format by format (30_encoding.md R94). The fixed fields are hypotheses, which the match
of a row gives (`extractLsb'_of_match`). -/

section Formats
variable {w : Word}

theorem append_exchange {k : BitVec 24} (hk : w.extractLsb' 4 24 = k) :
    (condField w).bits ++ k ++ w.extractLsb' 0 4 = w := by
  simp (disch := omega) only [← hk, bits_condField, BitVec.extractLsb'_append_extractLsb'_eq_extractLsb']
  exact BitVec.extractLsb'_eq_self

theorem append_branch {op : BitVec 4} (hop : w.extractLsb' 24 4 = op) :
    (condField w).bits ++ op ++ w.extractLsb' 0 24 = w := by
  simp (disch := omega) only [← hop, bits_condField, BitVec.extractLsb'_append_extractLsb'_eq_extractLsb']
  exact BitVec.extractLsb'_eq_self

/-- The second operand is two fields, as in `fields_above_operand2`. -/
theorem append_dataProcessing {op : BitVec 7} {rn : RegNum} {m n : Nat} {x : BitVec m} (hmn : 12 = n + m)
    (hop : w.extractLsb' 21 7 = op) (hn : w.extractLsb' 16 4 = rn) (hx : w.extractLsb' n m = x) :
    (condField w).bits ++ op ++ flag (w.getLsbD 20) ++ rn ++ w.extractLsb' 12 4 ++ x ++ w.extractLsb' 0 n =
      w.setWidth (4 + 7 + 1 + 4 + 4 + m + n) := by
  simp (disch := omega) only [← hop, ← hn, ← hx, bits_condField, flag_getLsbD,
    BitVec.extractLsb'_append_extractLsb'_eq_extractLsb']
  exact (BitVec.setWidth_eq_extractLsb' (by omega)).symm

theorem append_compareRegister {op : Byte} {z : BitVec 12} (hop : w.extractLsb' 20 8 = op) (hz : w.extractLsb' 4 12 = z) :
    (condField w).bits ++ op ++ w.extractLsb' 16 4 ++ z ++ w.extractLsb' 0 4 = w := by
  simp (disch := omega) only [← hop, ← hz, bits_condField, BitVec.extractLsb'_append_extractLsb'_eq_extractLsb']
  exact BitVec.extractLsb'_eq_self

/-- An opcode of 8 bits and four operands: CMP with an immediate, and the swaps. -/
theorem append_fourOperands {op : Byte} {rd : RegNum} {m n : Nat} {x : BitVec m} (hmn : 12 = n + m)
    (hop : w.extractLsb' 20 8 = op) (hd : w.extractLsb' 12 4 = rd) (hx : w.extractLsb' n m = x) :
    (condField w).bits ++ op ++ w.extractLsb' 16 4 ++ rd ++ x ++ w.extractLsb' 0 n = w.setWidth (4 + 8 + 4 + 4 + m + n) := by
  simp (disch := omega) only [← hop, ← hd, ← hx, bits_condField, BitVec.extractLsb'_append_extractLsb'_eq_extractLsb']
  exact (BitVec.setWidth_eq_extractLsb' (by omega)).symm

theorem append_mrs {op : BitVec 5} {dir : BitVec 2} {high : BitVec 4} {z : BitVec 12} (hop : w.extractLsb' 23 5 = op)
    (hdir : w.extractLsb' 20 2 = dir) (hhigh : w.extractLsb' 16 4 = high) (hz : w.extractLsb' 0 12 = z) :
    (condField w).bits ++ op ++ flag (w.getLsbD 22) ++ dir ++ high ++ w.extractLsb' 12 4 ++ z = w := by
  simp (disch := omega) only [← hop, ← hdir, ← hhigh, ← hz, bits_condField, flag_getLsbD,
    BitVec.extractLsb'_append_extractLsb'_eq_extractLsb']
  exact BitVec.extractLsb'_eq_self

theorem append_msr {op : BitVec 5} {dir : BitVec 2} {o : BitVec 4} {m n : Nat} {x : BitVec m} (hmn : 12 = n + m)
    (hop : w.extractLsb' 23 5 = op) (hdir : w.extractLsb' 20 2 = dir) (ho : w.extractLsb' 12 4 = o)
    (hx : w.extractLsb' n m = x) :
    (condField w).bits ++ op ++ flag (w.getLsbD 22) ++ dir ++ w.extractLsb' 16 4 ++ o ++ x ++ w.extractLsb' 0 n =
      w.setWidth (4 + 5 + 1 + 2 + 4 + 4 + m + n) := by
  simp (disch := omega) only [← hop, ← hdir, ← ho, ← hx, bits_condField, flag_getLsbD,
    BitVec.extractLsb'_append_extractLsb'_eq_extractLsb']
  exact (BitVec.setWidth_eq_extractLsb' (by omega)).symm

theorem append_wordTransfer {op : BitVec 3} {b l : BitVec 1} (hop : w.extractLsb' 25 3 = op) (hb : w.extractLsb' 22 1 = b)
    (hl : w.extractLsb' 20 1 = l) :
    (condField w).bits ++ op ++ flag (w.getLsbD 24) ++ flag (w.getLsbD 23) ++ b ++ flag (w.getLsbD 21) ++ l ++
      w.extractLsb' 16 4 ++ w.extractLsb' 12 4 ++ w.extractLsb' 0 12 = w := by
  simp (disch := omega) only [← hop, ← hb, ← hl, bits_condField, flag_getLsbD,
    BitVec.extractLsb'_append_extractLsb'_eq_extractLsb']
  exact BitVec.extractLsb'_eq_self

theorem append_halfTransfer {op : BitVec 3} {b l : BitVec 1} {mid : BitVec 4} (hop : w.extractLsb' 25 3 = op)
    (hb : w.extractLsb' 22 1 = b) (hl : w.extractLsb' 20 1 = l) (hmid : w.extractLsb' 4 4 = mid) :
    (condField w).bits ++ op ++ flag (w.getLsbD 24) ++ flag (w.getLsbD 23) ++ b ++ flag (w.getLsbD 21) ++ l ++
      w.extractLsb' 16 4 ++ w.extractLsb' 12 4 ++ w.extractLsb' 8 4 ++ mid ++ w.extractLsb' 0 4 = w := by
  simp (disch := omega) only [← hop, ← hb, ← hl, ← hmid, bits_condField, flag_getLsbD,
    BitVec.extractLsb'_append_extractLsb'_eq_extractLsb']
  exact BitVec.extractLsb'_eq_self

theorem append_blockTransfer {op : BitVec 3} {l : BitVec 1} (hop : w.extractLsb' 25 3 = op) (hl : w.extractLsb' 20 1 = l) :
    (condField w).bits ++ op ++ flag (w.getLsbD 24) ++ flag (w.getLsbD 23) ++ flag (w.getLsbD 22) ++ flag (w.getLsbD 21) ++
      l ++ w.extractLsb' 16 4 ++ w.extractLsb' 0 16 = w := by
  simp (disch := omega) only [← hop, ← hl, bits_condField, flag_getLsbD,
    BitVec.extractLsb'_append_extractLsb'_eq_extractLsb']
  exact BitVec.extractLsb'_eq_self

end Formats

/-- A word with the fixed bits of a row is the encoding of what the row builds: row by row, in the order of the table. -/
theorem encode_of_row {w : Word} : ∀ r ∈ armTable, w &&& r.mask = r.value → encode (r.build w) = .arm w := by
  intro r hr h
  have fixed (k n : Nat) (hmask : r.mask.extractLsb' k n = BitVec.allOnes n) :
      w.extractLsb' k n = r.value.extractLsb' k n := extractLsb'_of_match h hmask
  have hdecode := decodeArm_of_match hr h
  simp only [armTable, List.mem_cons, List.not_mem_nil, or_false] at hr
  rcases hr with rfl | rfl | rfl | rfl | rfl | rfl | rfl | rfl | rfl | rfl | rfl | rfl | rfl | rfl | rfl | rfl | rfl | rfl |
    rfl | rfl | rfl | rfl | rfl | rfl | rfl | rfl <;> refine congrArg Code.arm ?_
  · exact append_exchange (fixed 4 24 (by decide))
  · exact append_branch (fixed 24 4 (by decide))
  · exact append_branch (fixed 24 4 (by decide))
  · exact append_dataProcessing rfl (fixed 21 7 (by decide)) (fixed 16 4 (by decide)) (fixed 4 8 (by decide))
  · exact append_dataProcessing rfl (fixed 21 7 (by decide)) (fixed 16 4 (by decide)) rfl
  · exact append_dataProcessing rfl (fixed 21 7 (by decide)) rfl (fixed 4 8 (by decide))
  · exact append_dataProcessing rfl (fixed 21 7 (by decide)) rfl rfl
  · exact append_dataProcessing rfl (fixed 21 7 (by decide)) rfl (fixed 4 8 (by decide))
  · exact append_dataProcessing rfl (fixed 21 7 (by decide)) rfl rfl
  · exact append_compareRegister (fixed 20 8 (by decide)) (fixed 4 12 (by decide))
  · exact append_fourOperands rfl (fixed 20 8 (by decide)) (fixed 12 4 (by decide)) rfl
  · exact append_mrs (fixed 23 5 (by decide)) (fixed 20 2 (by decide)) (fixed 16 4 (by decide)) (fixed 0 12 (by decide))
  · exact append_msr rfl (fixed 23 5 (by decide)) (fixed 20 2 (by decide)) (fixed 12 4 (by decide)) (fixed 4 8 (by decide))
  · exact append_msr rfl (fixed 23 5 (by decide)) (fixed 20 2 (by decide)) (fixed 12 4 (by decide)) rfl
  · exact append_wordTransfer (fixed 25 3 (by decide)) (fixed 22 1 (by decide)) (fixed 20 1 (by decide))
  · exact append_wordTransfer (fixed 25 3 (by decide)) (fixed 22 1 (by decide)) (fixed 20 1 (by decide))
  · exact append_wordTransfer (fixed 25 3 (by decide)) (fixed 22 1 (by decide)) (fixed 20 1 (by decide))
  · exact append_wordTransfer (fixed 25 3 (by decide)) (fixed 22 1 (by decide)) (fixed 20 1 (by decide))
  · exact append_halfTransfer (fixed 25 3 (by decide)) (fixed 22 1 (by decide)) (fixed 20 1 (by decide))
      (fixed 4 4 (by decide))
  · exact append_halfTransfer (fixed 25 3 (by decide)) (fixed 22 1 (by decide)) (fixed 20 1 (by decide))
      (fixed 4 4 (by decide))
  · exact append_blockTransfer (fixed 25 3 (by decide)) (fixed 20 1 (by decide))
  · exact append_blockTransfer (fixed 25 3 (by decide)) (fixed 20 1 (by decide))
  · exact append_fourOperands rfl (fixed 20 8 (by decide)) rfl (fixed 4 8 (by decide))
  · exact append_fourOperands rfl (fixed 20 8 (by decide)) rfl (fixed 4 8 (by decide))
  · exact append_branch (fixed 24 4 (by decide))
  · exact (word_of_decodeArm_und hdecode).symm

theorem wellFormed_of_row (w : Word) : ∀ r ∈ armTable, (r.build w).wellFormed = true := by
  simp [armTable, Instr.wellFormed]

theorem append_operands (low : Byte) :
    low.extractLsb' 7 1 ++ low.extractLsb' 3 4 ++ low.extractLsb' 0 3 = low := by
  simp (disch := omega) only [BitVec.extractLsb'_append_extractLsb'_eq_extractLsb']
  exact BitVec.extractLsb'_eq_self

/-- The operands of format T-HI, written back where they were read. -/
theorem append_highRegisters_fields (op low : Byte) :
    let rd : RegNum := low.extractLsb' 7 1 ++ low.extractLsb' 0 3
    op ++ rd.extractLsb' 3 1 ++ low.extractLsb' 3 4 ++ rd.extractLsb' 0 3 = op ++ low := by
  intro rd
  have hhigh : rd.extractLsb' 3 1 = low.extractLsb' 7 1 := BitVec.extractLsb'_append_eq_left
  have hlow : rd.extractLsb' 0 3 = low.extractLsb' 0 3 := BitVec.extractLsb'_append_eq_right
  have hops := append_operands low
  rw [hhigh, hlow]
  simp only [BitVec.append_assoc, BitVec.cast_eq] at hops ⊢
  rw [hops]

/-- Where the match of the BX row fixes the operand bits around Rs, Rs between them is the halfword. -/
theorem append_exchange_fields : ∀ low : Byte, low &&& 0x87#8 = 0x00#8 →
    0b010001110#9 ++ low.extractLsb' 3 4 ++ 0b000#3 = 0x47#8 ++ low := by
  decide

/-- The opcode bytes of format T-BC but DE and DF name one of its conditions. -/
theorem condition_of_branch : ∀ op : Byte, op &&& 0xF0#8 = 0xD0#8 → op ≠ 0xDE#8 → op ≠ 0xDF#8 →
    (Cond.ofBits (op.extractLsb' 0 4)).thumbBranch = true ∧ 0b1101#4 ++ op.extractLsb' 0 4 = op := by
  decide

theorem encode_of_decodeThumb {h : Half} {i : Instr} (hi : decodeThumb h = .ok i) :
    i.wellFormed = true ∧ encode i = .thumb h := by
  obtain ⟨op, low, rfl⟩ : ∃ op low : Byte, h = op ++ low :=
    ⟨h.extractLsb' 8 8, h.extractLsb' 0 8, (BitVec.extractLsb'_append_extractLsb' (w := 8) (len := 8)).symm⟩
  rw [decodeThumb_append] at hi
  split_ifs at hi with hadd hcmp hmov hbx hswi hal hb <;> cases hi
  case pos => exact ⟨rfl, congrArg Code.thumb (hadd ▸ append_highRegisters_fields 0x44#8 low)⟩
  case pos => exact ⟨rfl, congrArg Code.thumb (hcmp ▸ append_highRegisters_fields 0x45#8 low)⟩
  case pos => exact ⟨rfl, congrArg Code.thumb (hmov ▸ append_highRegisters_fields 0x46#8 low)⟩
  case pos =>
    obtain ⟨rfl, hlow⟩ := hbx
    exact ⟨rfl, congrArg Code.thumb (append_exchange_fields low hlow)⟩
  case pos => exact ⟨rfl, congrArg Code.thumb (hswi ▸ rfl)⟩
  case pos =>
    obtain ⟨hwf, hop⟩ := condition_of_branch op hb hal hswi
    refine ⟨hwf, congrArg Code.thumb ?_⟩
    rw [bits_condOfBits, hop]

/-- Settles O58: an ARM word has the fixed bits of its row, so its fields side by side are the word; a THUMB halfword is
its opcode byte and its byte of operands. -/
theorem encodeDecode : Obligations.EncodeDecode := by
  refine ⟨fun w i hi => ?arm, fun h i hi => encode_of_decodeThumb hi⟩
  case arm =>
    obtain ⟨r, hr, hmatch, rfl⟩ := decodeArm_eq_ok hi
    exact ⟨wellFormed_of_row w r hr, encode_of_row r hr hmatch⟩

/-! ## The rows -/

/-- Settles O59: any two rows fix a common bit differently. -/
theorem armRowsDisjoint : Obligations.ArmRowsDisjoint :=
  armTable_fixedBitsDiffer.imp fun h _ hw => h.not_match hw.2 hw.1

theorem decodeArm_eq_error_iff {w : Word} :
    decodeArm w = .error .notInSubset ↔ ∀ r ∈ armTable, w &&& r.mask ≠ r.value := by
  constructor
  · intro h r hr hmatch
    rw [decodeArm_of_match hr hmatch] at h
    cases h
  · intro h
    have hnone : armTable.find? (fun r => w &&& r.mask == r.value) = none := by simpa using h
    rw [decodeArm, hnone]

/-- Bits [31:28] are in no mask. -/
theorem mask_eq_append : ∀ r ∈ armTable, r.mask = 0#4 ++ r.mask.extractLsb' 0 28 := by decide

theorem and_mask_congr {w v : Word} (h : w.extractLsb' 0 28 = v.extractLsb' 0 28) {r : ArmRow} (hr : r ∈ armTable) :
    w &&& r.mask = v &&& r.mask := by
  have hlow (x : Word) : x &&& r.mask = 0#4 ++ (x.extractLsb' 0 28 &&& r.mask.extractLsb' 0 28) := by
    have hx : x.extractLsb' 28 4 ++ x.extractLsb' 0 28 = x := BitVec.extractLsb'_append_extractLsb' (w := 4) (len := 28)
    calc x &&& r.mask = (x.extractLsb' 28 4 ++ x.extractLsb' 0 28) &&& (0#4 ++ r.mask.extractLsb' 0 28) := by
          rw [hx, ← mask_eq_append r hr]
      _ = _ := by rw [BitVec.and_append, BitVec.and_zero]
  rw [hlow w, hlow v, h]

/-- Settles O60: the decoder, run. -/
theorem sampleWords : Obligations.SampleWords :=
  ⟨rfl, rfl, rfl, rfl, rfl, rfl, rfl, rfl, rfl, rfl⟩

end Sys2Proof.Proofs.EncodeDecode
end

section
/-!
The status registers (41_data_processing.md R136; 42_psr_access.md R150 to R152): the return from an exception in each of its
cases, MRS, and MSR to the CPSR and to an SPSR.
-/

namespace Sys2Proof.Proofs.StatusAccess
open Sys2Proof Sys2Proof.Machine Sys2Proof.Proofs.DataProcessing Sys2Proof.Proofs.TransferRules
  Sys2Proof.Proofs.StatusWords

/-! ## Modes and alignment -/

theorem ofBits_eq_some_iff {b : BitVec 5} {m : Mode} : Mode.ofBits b = some m ↔ m.bits = b :=
  ⟨Mode.bits_of_ofBits, fun h => h ▸ Mode.ofBits_bits m⟩

theorem ofBits_eq_none_iff {b : BitVec 5} : Mode.ofBits b = none ↔ ∀ m : Mode, m.bits ≠ b := by
  simp only [Option.eq_none_iff_forall_ne_some, ne_eq, ofBits_eq_some_iff]

theorem spsr?_eq_none_iff {m : Mode} : m.spsr? = none ↔ m = .usr ∨ m = .sys := by
  cases m <;> decide

/-- An address fits a state bit when it is a multiple of the length of that state's instructions. -/
theorem pcFits_iff {thumb : Bool} {v : Word} : pcFits thumb v = true ↔ v.toNat % instrLength thumb = 0 := by
  cases thumb with
  | false => exact (decide_eq_true_iff).trans (extractLsb'_low_two_eq_zero_iff v)
  | true =>
    have hbit : v.getLsbD 0 = decide (v.toNat % 2 = 1) := Nat.testBit_zero v.toNat
    simp only [pcFits, instrLength, if_true, hbit, decide_eq_false_iff_not, decide_eq_true_eq]
    omega

/-! ## The return from an exception -/

section Return
variable {s : State} {n : SpsrName} {target : Word}

theorem exceptionReturn_noSpsr (h : s.cpsr.mode = .usr ∨ s.cpsr.mode = .sys) :
    exceptionReturn target s = .refused .noSpsr := by
  rw [exceptionReturn, spsr?_eq_none_iff.2 h]

theorem exceptionReturn_wedges (hn : s.cpsr.mode.spsr? = some n)
    (hm : ∀ m : Mode, m.bits ≠ ((s.spsrs.get n).read s.freeStatus).m) : exceptionReturn target s = .next s.wedge := by
  rw [exceptionReturn, hn]
  simp only [ofBits_eq_none_iff.2 hm]

theorem exceptionReturn_of_mode {m : Mode} (hn : s.cpsr.mode.spsr? = some n)
    (hm : m.bits = ((s.spsrs.get n).read s.freeStatus).m) :
    exceptionReturn target s =
      if pcFits ((s.spsrs.get n).read s.freeStatus).t target then
        .next ({ s with cpsr := ((s.spsrs.get n).read s.freeStatus).toCpsr m }.setPc target)
      else .refused .misalignedPc := by
  rw [exceptionReturn, hn]
  simp only [ofBits_eq_some_iff.2 hm]

theorem exceptionReturn_returns {m : Mode} (hn : s.cpsr.mode.spsr? = some n)
    (hm : m.bits = ((s.spsrs.get n).read s.freeStatus).m)
    (hfit : pcFits ((s.spsrs.get n).read s.freeStatus).t target = true) :
    exceptionReturn target s = .next ({ s with cpsr := ((s.spsrs.get n).read s.freeStatus).toCpsr m }.setPc target) := by
  rw [exceptionReturn_of_mode hn hm, if_pos hfit]

theorem exceptionReturn_misaligned {m : Mode} (hn : s.cpsr.mode.spsr? = some n)
    (hm : m.bits = ((s.spsrs.get n).read s.freeStatus).m)
    (hfit : ¬ pcFits ((s.spsrs.get n).read s.freeStatus).t target = true) :
    exceptionReturn target s = .refused .misalignedPc := by
  rw [exceptionReturn_of_mode hn hm, if_neg hfit]

/-- Past its condition a return form is the return to its address. -/
theorem exec_returnForm_of_passes {i : Instr} {c : Cond} (hi : returnForm i s = some (c, target)) (hc : s.passes c) :
    exec i s = exceptionReturn target s := by
  cases i with
  | movReg c' sf rd rm =>
    obtain ⟨⟨rfl, rfl, hm⟩, ⟨⟩⟩ := Option.ite_none_right_eq_some.1 hi
    rw [exec_movReg_of_passes hc, withReg_eq hm, moveResult_eq, writeResult_return]
  | movImm c' sf rd rot imm =>
    obtain ⟨⟨rfl, rfl⟩, ⟨⟩⟩ := Option.ite_none_right_eq_some.1 hi
    rw [exec_movImm_of_passes hc, moveResult_eq, writeResult_return]
  | addReg c' sf rn rd rm =>
    obtain ⟨⟨rfl, rfl, hn, hm⟩, ⟨⟩⟩ := Option.ite_none_right_eq_some.1 hi
    rw [exec_addReg_of_passes hc, withReg_withSecond_eq hn hm, addResult_eq, writeResult_return]
  | addImm c' sf rn rd rot imm =>
    obtain ⟨⟨rfl, rfl, hn⟩, ⟨⟩⟩ := Option.ite_none_right_eq_some.1 hi
    rw [exec_addImm_of_passes hc, withReg_eq hn, addResult_eq, writeResult_return]
  | subReg c' sf rn rd rm =>
    obtain ⟨⟨rfl, rfl, hn, hm⟩, ⟨⟩⟩ := Option.ite_none_right_eq_some.1 hi
    rw [exec_subReg_of_passes hc, withReg_withSecond_eq hn hm, subResult_eq, writeResult_return]
  | subImm c' sf rn rd rot imm =>
    obtain ⟨⟨rfl, rfl, hn⟩, ⟨⟩⟩ := Option.ite_none_right_eq_some.1 hi
    rw [exec_subImm_of_passes hc, withReg_eq hn, subResult_eq, writeResult_return]
  | _ => cases hi

end Return

/-! ## MRS -/

section Mrs
variable {c : Cond} {spsr : Bool} {rd : RegNum} {s : State}

theorem exec_mrs_r15 (hc : s.passes c) (hd : rd = 15#4) : exec (.mrs c spsr rd) s = .refused .mrsToR15 :=
  (conditional_passes hc _).trans (if_pos hd)

theorem exec_mrs_noSpsr (hc : s.passes c) (hd : rd ≠ 15#4) (hp : psrRead spsr s = none) :
    exec (.mrs c spsr rd) s = .refused .noSpsr := by
  refine (conditional_passes hc _).trans ((if_neg hd).trans ?_)
  rw [hp]

/-- Past the refusals MRS writes the register and counts the draw of the reserved bits. -/
theorem exec_mrs_of_read (hc : s.passes c) (hd : rd ≠ 15#4) {p : Psr} (hp : psrRead spsr s = some p) :
    exec (.mrs c spsr rd) s = advance 4 ((s.drew 1).setReg rd (p.toWord (Config.freeReserved s.draws))) := by
  refine (conditional_passes hc _).trans ((if_neg hd).trans ?_)
  rw [hp]
  rfl

theorem psrRead_cpsr (s : State) :
    psrRead false s = some ⟨s.cpsr.flags.read s.freeStatus, s.cpsr.i, s.cpsr.f, s.cpsr.t, s.cpsr.mode.bits⟩ := rfl

theorem psrRead_spsr {n : SpsrName} (hn : s.cpsr.mode.spsr? = some n) :
    psrRead true s = some ((s.spsrs.get n).read s.freeStatus) := by
  rw [psrRead, if_pos rfl, hn]
  rfl

theorem psrRead_noSpsr (h : s.cpsr.mode = .usr ∨ s.cpsr.mode = .sys) : psrRead true s = none := by
  rw [psrRead, if_pos rfl, spsr?_eq_none_iff.2 h]
  rfl

theorem psrRead_isSome (h : spsr = true → ∃ n, s.cpsr.mode.spsr? = some n) : ∃ p, psrRead spsr s = some p := by
  cases spsr with
  | false => exact ⟨_, psrRead_cpsr s⟩
  | true =>
    obtain ⟨n, hn⟩ := h rfl
    exact ⟨_, psrRead_spsr hn⟩

end Mrs

/-- Settles O14: what MRS reads is `psrRead`, none of it only for the SPSR of a mode without one; then a register write and an
advance. -/
theorem mrsReadsStatus : Obligations.MrsReadsStatus := by
  intro c spsr rd s
  refine ⟨decodeArm_mrs c spsr rd, fun hc => ⟨exec_mrs_r15 hc, fun hd hs hmode => ?noSpsr, fun hd hn hadv => ?lastAddress,
    fun p hd hadv hcpsr hspsr => ?read⟩⟩
  case noSpsr => exact exec_mrs_noSpsr hc hd (hs ▸ psrRead_noSpsr hmode)
  case lastAddress =>
    obtain ⟨p, hp⟩ := psrRead_isSome hn
    rw [exec_mrs_of_read hc hd hp]
    exact advance_refused_of_pc_eq (State.setReg_pc _ hd _) hadv
  case read =>
    have hp : psrRead spsr s = some p := by
      cases spsr with
      | false => rw [hcpsr rfl, psrRead_cpsr]
      | true =>
        obtain ⟨n, hn, rfl⟩ := hspsr rfl
        exact psrRead_spsr hn
    rw [exec_mrs_of_read hc hd hp]
    exact advance_eq_of_pc_eq (State.setReg_pc _ hd _) hadv

/-! ## MSR -/

section Msr
variable {mask : BitVec 4} {v : Word} {s : State}

/-- The flags that an MSR leaves in the CPSR. -/
def msrFlags (mask : BitVec 4) (v : Word) (s : State) : HeldFlags :=
  if mask[3] then (flagsIn v).held else s.cpsr.flags

/-- Without the control byte to write, an MSR to the CPSR writes the flags. -/
theorem msrCpsr_flags (h : mask[0] = false ∨ s.cpsr.mode = .usr) :
    msr false mask v s = advance 4 (s.setFlags (msrFlags mask v s)) := by
  have hctl : ¬ (maskC mask = true ∧ s.cpsr.mode ≠ .usr) := by
    rintro ⟨hmask, hmode⟩
    exact h.elim (fun h0 => Bool.false_ne_true (h0.symm.trans hmask)) hmode
  rw [msr, if_neg Bool.false_ne_true, msrCpsr]
  exact if_neg hctl

theorem msrCpsr_control (h0 : mask[0] = true) (hmode : s.cpsr.mode ≠ .usr) :
    msr false mask v s =
      if v[5] ≠ s.cpsr.t then .refused .tBitChanged
      else
        match Mode.ofBits (v.extractLsb' 0 5) with
        | none => .next s.wedge
        | some m => advance 4 { s with cpsr := ⟨msrFlags mask v s, v[7], v[6], s.cpsr.t, m⟩ } := by
  rw [msr, if_neg Bool.false_ne_true, msrCpsr]
  exact if_pos ⟨h0, hmode⟩

theorem msrCpsr_tBit (h0 : mask[0] = true) (hmode : s.cpsr.mode ≠ .usr) (ht : v[5] ≠ s.cpsr.t) :
    msr false mask v s = .refused .tBitChanged := by
  rw [msrCpsr_control h0 hmode, if_pos ht]

theorem msrCpsr_wedges (h0 : mask[0] = true) (hmode : s.cpsr.mode ≠ .usr) (ht : v[5] = s.cpsr.t)
    (hm : ∀ m : Mode, m.bits ≠ v.extractLsb' 0 5) : msr false mask v s = .next s.wedge := by
  rw [msrCpsr_control h0 hmode, if_neg (not_not_intro ht), ofBits_eq_none_iff.2 hm]

theorem msrCpsr_mode (h0 : mask[0] = true) (hmode : s.cpsr.mode ≠ .usr) (ht : v[5] = s.cpsr.t) {m : Mode}
    (hm : m.bits = v.extractLsb' 0 5) :
    msr false mask v s = advance 4 { s with cpsr := ⟨msrFlags mask v s, v[7], v[6], s.cpsr.t, m⟩ } := by
  rw [msrCpsr_control h0 hmode, if_neg (not_not_intro ht), ofBits_eq_some_iff.2 hm]

theorem msrSpsr_noSpsr (h : s.cpsr.mode = .usr ∨ s.cpsr.mode = .sys) : msr true mask v s = .refused .noSpsr := by
  rw [msr, if_pos rfl, msrSpsr, spsr?_eq_none_iff.2 h]

theorem msrSpsr_writes {n : SpsrName} (hn : s.cpsr.mode.spsr? = some n) :
    msr true mask v s = advance 4 (s.setSpsr n ((s.spsrs.get n).masked mask v)) := by
  rw [msr, if_pos rfl, msrSpsr, hn]

/-- Past its condition an MSR form is `msr` of its operand. -/
theorem exec_msrForm_of_passes {i : Instr} {c : Cond} {spsr : Bool} (hi : msrForm i s = some (c, spsr, mask, v))
    (hc : s.passes c) : exec i s = msr spsr mask v s := by
  cases i with
  | msrReg c' spsr' mask' rm =>
    obtain ⟨hm, ⟨⟩⟩ := Option.ite_none_right_eq_some.1 hi
    exact (conditional_passes hc _).trans (withReg_eq hm _)
  | msrImm c' spsr' mask' rot imm =>
    cases hi
    rw [← immValue_eq_rotated]
    exact conditional_passes hc _
  | _ => cases hi

end Msr

/-- Settles O15: the words; and past the condition an MSR form is `msr`, case by case as the rule has it. -/
theorem msrWritesStatus : Obligations.MsrWritesStatus := by
  refine ⟨⟨rfl, rfl, rfl, rfl, rfl, rfl, rfl⟩, decodeArm_msrReg, decodeArm_msrImm, fun c spsr mask s hc => ?r15,
    fun i s c mask v hi hc => ?cpsr, fun i s c mask v hi hc => ?spsr⟩
  case r15 => exact (conditional_passes hc _).trans (withReg_r15 rfl s _)
  case cpsr =>
    intro flags
    rw [exec_msrForm_of_passes hi hc]
    refine ⟨msrCpsr_tBit, msrCpsr_wedges, fun m h0 hmode ht hm hadv => ?mode, fun m h0 hmode ht hm hadv => ?modeWrap,
      fun h hadv => ?flags, fun h hadv => ?flagsWrap⟩
    case mode =>
      rw [msrCpsr_mode h0 hmode ht hm]
      exact advance_eq_of_pc_eq rfl hadv
    case modeWrap =>
      rw [msrCpsr_mode h0 hmode ht hm]
      exact advance_refused_of_pc_eq rfl hadv
    case flags =>
      rw [msrCpsr_flags h]
      exact advance_eq_of_pc_eq rfl hadv
    case flagsWrap =>
      rw [msrCpsr_flags h]
      exact advance_refused_of_pc_eq rfl hadv
  case spsr =>
    rw [exec_msrForm_of_passes hi hc]
    refine ⟨msrSpsr_noSpsr, fun n hn hadv => ?wrap, fun n hn hadv => ?writes⟩
    case wrap =>
      rw [msrSpsr_writes hn]
      exact advance_refused_of_pc_eq rfl hadv
    case writes =>
      rw [msrSpsr_writes hn]
      exact advance_eq_of_pc_eq rfl hadv

end Sys2Proof.Proofs.StatusAccess
end

section
/-!
What an access can do to memory and to the set of stored bytes (20_memory.md R63, R80; 43_load_store.md R170, R173): one
relation for writes and for the bytes of aborted stores, kept by a sequence of accesses.
-/

namespace Sys2Proof.Proofs.MemoryWrites
open Sys2Proof Sys2Proof.Machine Sys2Proof.Proofs.TransferRules Sys2Proof.Proofs.BlockTransfers
  Sys2Proof.Proofs.StoreMultiple

/-- From s to u the bytes B have been stored to, whatever they hold now: every other byte is as before, exactly the bytes B
are noted as stored to beside those noted before, and the canonical forms are kept. -/
structure Wrote (B : Nat → Prop) (s u : State) : Prop where
  outside : ∀ a, ¬ B a → u.mem.get? a = s.mem.get? a
  noted : ∀ a, a ∈ u.modified ↔ B a ∨ a ∈ s.modified
  wf : Memory.wf s.mem → AddrSet.wf s.modified → Memory.wf u.mem ∧ AddrSet.wf u.modified

/-- The bytes of an access. -/
abbrev InRange (a n x : Nat) : Prop := a ≤ x ∧ x < a + n

theorem Wrote.congr {B C : Nat → Prop} {s u : State} (h : Wrote B s u) (hBC : ∀ a, B a ↔ C a) : Wrote C s u := by
  obtain rfl : B = C := funext fun a => propext (hBC a)
  exact h

theorem Wrote.of_eq {B : Nat → Prop} {s u v : State} (h : Wrote B s u) (hmem : v.mem = u.mem)
    (hmod : v.modified = u.modified) : Wrote B s v := by
  obtain ⟨hout, hnoted, hwf⟩ := h
  exact ⟨hmem ▸ hout, hmod ▸ hnoted, hmem ▸ hmod ▸ hwf⟩

theorem Wrote.of_start {B : Nat → Prop} {s t u : State} (h : Wrote B t u) (hmem : t.mem = s.mem)
    (hmod : t.modified = s.modified) : Wrote B s u := by
  obtain ⟨hout, hnoted, hwf⟩ := h
  exact ⟨hmem ▸ hout, hmod ▸ hnoted, hmem ▸ hmod ▸ hwf⟩

/-- Nothing has been stored. -/
theorem wrote_nothing {B : Nat → Prop} {s u : State} (hB : ∀ a, ¬ B a) (hmem : u.mem = s.mem)
    (hmod : u.modified = s.modified) : Wrote B s u :=
  ⟨fun _ _ => by rw [hmem], fun a => by rw [hmod, or_iff_right (hB a)], fun hm hd => by rw [hmem, hmod]; exact ⟨hm, hd⟩⟩

theorem Wrote.trans {B C : Nat → Prop} {s t u : State} (hst : Wrote B s t) (htu : Wrote C t u) :
    Wrote (fun a => B a ∨ C a) s u where
  outside a ha := by
    obtain ⟨hB, hC⟩ := not_or.1 ha
    rw [htu.outside a hC, hst.outside a hB]
  noted a := by
    rw [htu.noted, hst.noted]
    tauto
  wf hm hd := by
    obtain ⟨hm', hd'⟩ := hst.wf hm hd
    exact htu.wf hm' hd'

/-! ## One access -/

theorem forgetBytes_modified (n a x : Nat) (s : State) :
    x ∈ (forgetBytes n a s).modified ↔ InRange a n x ∨ x ∈ s.modified := by
  induction n generalizing a s with
  | zero => exact ⟨.inr, fun h => h.resolve_left (by omega)⟩
  | succ n ih =>
    rw [forgetBytes, ih, AddrSet.mem_add, ← or_assoc]
    exact or_congr_left (by omega)

theorem forgetBytes_wrote (n a : Nat) (s : State) (h : a + n ≤ 2 ^ 32) : Wrote (InRange a n) s (forgetBytes n a s) where
  outside x hx := by rw [forgetBytes_get?, if_neg hx]
  noted x := forgetBytes_modified n a x s
  wf hm hd := forgetBytes_wf n a s hm hd h

theorem writeBytes_wrote (bs : List Byte) (a : Nat) (s : State) (h : a + bs.length ≤ 2 ^ 32) :
    Wrote (InRange a bs.length) s (writeBytes bs a s) where
  outside x hx := by rw [writeBytes_get?, dif_neg hx]
  noted x := writeBytes_modified bs a x s
  wf hm hd := writeBytes_wf bs a s hm hd h

/-- A write that is answered ok stores to the bytes of its access. -/
theorem memWrite_wrote {size : Size} {addr v : Word} {s t : State} (hal : addr.toNat % size.bytes = 0)
    (h : memWrite size addr v s = (true, t)) : Wrote (InRange addr.toNat size.bytes) s t := by
  have hlen := storeBytes_length s.cfg.bigEndian size v
  obtain ⟨-, hw⟩ | ⟨-, hw⟩ := memWrite_cases size addr v s
  · cases hw.symm.trans h
  · cases hw.symm.trans h
    have hwrote := writeBytes_wrote (storeBytes s.cfg.bigEndian size v) addr.toNat s.answered
      (hlen.symm ▸ aligned_end (aligned_iff.2 hal))
    rw [hlen] at hwrote
    exact hwrote.of_start rfl rfl

/-! ## The loop of an STM -/

theorem storeOne_wrote (i : RegNum) {addr : Word} (hal : addr.toNat % 4 = 0) (b : Bool × State) :
    Wrote (InRange addr.toNat 4) b.2 (storeOne i addr b).2 := by
  obtain ⟨habort, hw⟩ | ⟨-, hw⟩ := memWrite_cases .word addr (b.2.second i) b.2
  · rw [storeOne_of_abort habort]
    have hwrote := forgetBytes_wrote 4 addr.toNat b.2.answered (aligned_end (size := .word) (aligned_iff.2 hal))
    exact hwrote.of_start rfl rfl
  · have hwrote := memWrite_wrote (size := .word) hal hw
    rwa [storeOne, hw]

/-- The bytes of the first n words from an address upwards. -/
abbrev InBlock (start : Word) (n x : Nat) : Prop := ∃ k < n, InRange (wordAddr start k).toNat 4 x

theorem wordAddr_aligned {start : Word} (h : start.toNat % 4 = 0) (k : Nat) : (wordAddr start k).toNat % 4 = 0 := by
  rw [toNat_wordAddr]
  omega

theorem inBlock_succ (start : Word) (n x : Nat) :
    InBlock start (n + 1) x ↔ InBlock start n x ∨ InRange (wordAddr start n).toNat 4 x :=
  Nat.exists_lt_succ_right

theorem storeBlock_wrote (is : List RegNum) {start : Word} (hal : start.toNat % 4 = 0) (b : Bool × State) :
    Wrote (InBlock start is.length) b.2 (storeBlock is start b).2 := by
  induction is using List.reverseRecOn with
  | nil => exact wrote_nothing (fun a ⟨k, hk, _⟩ => Nat.not_lt_zero k hk) rfl rfl
  | append_singleton is i ih =>
    have hlast := storeOne_wrote i (wordAddr_aligned hal is.length) (storeBlock is start b)
    rw [storeBlock_snoc, List.length_append, List.length_singleton]
    exact (ih.trans hlast).congr fun a => (inBlock_succ start is.length a).symm

/-- A block of a base that is a multiple of 4 starts at one. -/
theorem blockRange_aligned (p u : Bool) {base : Word} (h : base.toNat % 4 = 0) (n : Nat) :
    (blockRange p u base n).1.toNat % 4 = 0 := by
  cases p <;> cases u <;> simp only [blockRange, BitVec.toNat_add, BitVec.toNat_sub, BitVec.toNat_ofNat] <;> omega

end Sys2Proof.Proofs.MemoryWrites
end

section
/-!
What an instruction can do: every next state that `exec` answers is one of the ten kinds of `Effect`. The frame, safety and
invariant statements are derived from these kinds.
-/

namespace Sys2Proof.Proofs.Effects
open Sys2Proof Sys2Proof.Machine Sys2Proof.Proofs.MemoryAccess Sys2Proof.Proofs.Branches Sys2Proof.Proofs.DataProcessing
  Sys2Proof.Proofs.TransferRules Sys2Proof.Proofs.SingleTransfers Sys2Proof.Proofs.Swaps Sys2Proof.Proofs.BlockTransfers
  Sys2Proof.Proofs.LoadMultiple Sys2Proof.Proofs.StoreMultiple Sys2Proof.Proofs.SpsrWrites Sys2Proof.Proofs.StatusAccess
  Sys2Proof.Proofs.MemoryWrites

/-! ## The kinds -/

/-- The bytes that the instruction i stores to when s executes it past its condition, with an aborted store of a single
transfer or an STM among them; a swap stores only when both its accesses are answered ok. -/
inductive Stores (i : Instr) (s : State) (a : Nat) : Prop
  | single {x : Transfer} {addr : Word} {wb : Option Word} (hi : storeForm i = some x)
      (haddr : transferAddress x.p x.u x.w (s.reg x.rn) x.offset = some (addr, wb))
      (ha : InRange addr.toNat x.size.bytes a)
  | block {c : Cond} {p u sbit w : Bool} {rn : RegNum} {list : BitVec 16} {k : Nat} (hi : i = .stm c p u sbit w rn list)
      (hk : k < (regsOf list).length) (ha : InRange (blockAddr p u (s.reg rn) list k) 4 a)
  | swap {c : Cond} {size : Size} {rn rd rm : RegNum} (hi : swapForm i = some (c, size, rn, rd, rm)) (hq : s.quiet 2)
      (ha : InRange (s.reg rn).toNat size.bytes a)

/-- u is s but for memory, the set of stored bytes, the answers and draws used, and registers of the current mode. -/
structure Reached (s u : State) : Prop where
  status : SameStatus s u
  regs : ∀ q : PhysReg, (∀ j, q ≠ bank s.cpsr.mode j) → u.regs.get q = s.regs.get q
  pc : u.pc = s.pc
  draws : s.draws ≤ u.draws

/-- u is s after the accesses of i and its writes to registers; the pc has still to move. -/
structure Accessed (i : Instr) (s u : State) : Prop where
  form : registerForm i = none
  reached : Reached s u
  memory : Wrote (Stores i s) s u

/-- The address v keeps the pc aligned to the operating state, if i is executed in the state of its instruction set. -/
def Fits (i : Instr) (s : State) (v : Word) : Prop :=
  (armCond i = none → s.cpsr.t = true) → s.pcAligned → v.toNat % instrLength s.cpsr.t = 0

/-- What makes an instruction wedge the machine (10_state.md R40). -/
def Wedges (i : Instr) (s : State) : Prop :=
  (∃ c mask v, msrForm i s = some (c, false, mask, v) ∧ mask[0] = true ∧ s.cpsr.mode ≠ .usr ∧
      ∀ m : Mode, m.bits ≠ v.extractLsb' 0 5) ∨
    ∃ c v n, returnForm i s = some (c, v) ∧ s.cpsr.mode.spsr? = some n ∧
      ∀ m : Mode, m.bits ≠ ((s.spsrs.get n).read s.freeStatus).m

/-- The next states that the instruction i can make of s. -/
inductive Effect (i : Instr) (s : State) : State → Prop
  /-- The condition fails. -/
  | skipped {c : Cond} (hi : armCond i = some c) (hc : condHolds c s.flags = false) (hadv : s.canAdvance 4) :
      Effect i s (s.stepped 4)
  /-- Flags, one register and the pc are written. -/
  | computed {d : Option RegNum} {k : Nat} {fl : HeldFlags} {r : RegNum} {wb : Option Word} {v : Word}
      (hi : registerForm i = some d) (hfl : keepsCpsr i = true → fl = s.cpsr.flags) (hd : wb.isSome = true → d = some r)
      (hv : Fits i s v) : Effect i s ((((s.drew k).setFlags fl).writeBack r wb).setPc v)
  /-- The state switch of BX. -/
  | exchanged {b : Bool} {v : Word} (hi : (∃ c rm, i = .bx c rm) ∨ ∃ rs, i = .tBx rs) (hv : v.toNat % instrLength b = 0) :
      Effect i s ({ s with cpsr := { s.cpsr with t := b } }.setPc v)
  /-- The return from an exception. -/
  | returned {c : Cond} {v : Word} {n : SpsrName} {m : Mode} (hi : returnForm i s = some (c, v))
      (hn : s.cpsr.mode.spsr? = some n) (hm : m.bits = ((s.spsrs.get n).read s.freeStatus).m)
      (hv : v.toNat % instrLength ((s.spsrs.get n).read s.freeStatus).t = 0) :
      Effect i s ({ s with cpsr := ((s.spsrs.get n).read s.freeStatus).toCpsr m }.setPc v)
  | wedged (h : Wedges i s) : Effect i s s.wedge
  /-- An MSR to the control byte of the CPSR. -/
  | control {c : Cond} {mask : BitVec 4} {v : Word} {r : Cpsr} (hi : msrForm i s = some (c, false, mask, v))
      (hmode : s.cpsr.mode ≠ .usr) (ht : r.t = s.cpsr.t) (hadv : s.canAdvance 4) :
      Effect i s ({ s with cpsr := r }.stepped 4)
  /-- An MSR to the SPSR of the current mode. -/
  | saved {c : Cond} {mask : BitVec 4} {v : Word} {n : SpsrName} {p : HeldPsr} (hi : msrForm i s = some (c, true, mask, v))
      (hn : s.cpsr.mode.spsr? = some n) (hadv : s.canAdvance 4) : Effect i s ((s.setSpsr n p).stepped 4)
  | trapped {e : Exn} {ret : Word} (hi : mayStore i = false) (hform : registerForm i = none) (he : e ≠ .reset) :
      Effect i s (raise e ret s)
  | accessed {u : State} {v : Word} (h : Accessed i s u) (hv : Fits i s v) : Effect i s (u.setPc v)
  | aborted {u : State} (h : Accessed i s u) : Effect i s (dataAbort u)

/-- Every next state that r answers is one of those kinds. -/
def Does (i : Instr) (s : State) (r : Result) : Prop := ∀ t, r = .next t → Effect i s t

/-! ## Where the pc goes -/

section Targets
variable {i : Instr} {s : State}

theorem fits_of_multiple_of_four {v : Word} (h : v.toNat % 4 = 0) : Fits i s v := by
  intro _ _
  cases ht : s.cpsr.t <;> simp only [instrLength, if_true, if_false, Bool.false_eq_true] <;> omega

theorem fits_of_multiple_of_two (hi : armCond i = none) {v : Word} (h : v.toNat % 2 = 0) : Fits i s v := by
  intro ht _
  rw [ht hi]
  exact h

theorem stepped_fits {n : Nat} (hadv : s.canAdvance n) (hn : n % instrLength s.cpsr.t = 0) (hpc : s.pcAligned) :
    (s.pc + BitVec.ofNat 32 n).toNat % instrLength s.cpsr.t = 0 := by
  have hsum : (s.pc + BitVec.ofNat 32 n).toNat = s.pc.toNat + n := by
    rw [BitVec.toNat_add, BitVec.toNat_ofNat, Nat.add_mod_mod, Nat.mod_eq_of_lt hadv]
  rw [hsum, Nat.add_mod, hpc, hn]
  rfl

theorem fits_advance_four (hadv : s.canAdvance 4) : Fits i s (s.pc + 4#32) := fun _ =>
  stepped_fits hadv (by cases s.cpsr.t <;> rfl)

theorem fits_advance_two (hi : armCond i = none) (hadv : s.canAdvance 2) : Fits i s (s.pc + 2#32) := fun ht =>
  stepped_fits hadv (by rw [ht hi]; rfl)

theorem toNat_ofInt_target {d : Int} (h : 0 ≤ (s.pc.toNat : Int) + d ∧ (s.pc.toNat : Int) + d < 2 ^ 32) :
    ((BitVec.ofInt 32 ((s.pc.toNat : Int) + d)).toNat : Int) = (s.pc.toNat : Int) + d := by
  rw [BitVec.toNat_ofInt]
  omega

theorem fits_arm_branch {offset : BitVec 24}
    (h : 0 ≤ (s.pc.toNat : Int) + armDisp offset ∧ (s.pc.toNat : Int) + armDisp offset < 2 ^ 32) :
    Fits i s (BitVec.ofInt 32 ((s.pc.toNat : Int) + armDisp offset)) := by
  intro _ hpc
  have htarget := toNat_ofInt_target h
  simp only [armDisp] at htarget ⊢
  cases ht : s.cpsr.t <;> simp only [State.pcAligned, ht, instrLength, if_true, if_false, Bool.false_eq_true] at hpc ⊢ <;>
    omega

theorem fits_thumb_branch (hi : armCond i = none) {offset : Byte}
    (h : 0 ≤ (s.pc.toNat : Int) + thumbDisp offset ∧ (s.pc.toNat : Int) + thumbDisp offset < 2 ^ 32) :
    Fits i s (BitVec.ofInt 32 ((s.pc.toNat : Int) + thumbDisp offset)) := by
  intro ht hpc
  have htarget := toNat_ofInt_target h
  simp only [thumbDisp, State.pcAligned, ht hi, instrLength, if_true] at htarget hpc ⊢
  omega

theorem clearBit0_even (v : Word) : (clearBit0 v).toNat % 2 = 0 := by
  rw [clearBit0, BitVec.toNat_append]
  simp [Nat.shiftLeft_eq]

theorem multiple_of_four_of_low_bits {v : Word} (h0 : v.getLsbD 0 = false) (h1 : v.getLsbD 1 = false) :
    v.toNat % 4 = 0 := by
  rw [← extractLsb'_low_two_eq_zero_iff]
  apply BitVec.eq_of_getLsbD_eq
  intro j hj
  interval_cases j <;> simp_all

end Targets

/-! ## Register instructions -/

section Computed
variable {i : Instr} {s : State}

theorem effect_stepped_four {c : Cond} (hi : armCond i = some c) (hc : condHolds c s.flags = false) :
    Does i s (advance 4 s) := by
  intro t ht
  obtain ⟨hadv, rfl⟩ := advance_next ht
  exact .skipped hi hc hadv

/-- Only an ARM instruction whose condition passes has to be looked at. -/
theorem does_conditional {c : Cond} {body : Result} (hi : armCond i = some c) (h : s.passes c → Does i s body) :
    Does i s (conditional c s body) := by
  intro t ht
  obtain ⟨hnv, ⟨hc, hbody⟩ | ⟨hc, hadv⟩⟩ := conditional_next ht
  · exact h ⟨hnv, hc⟩ t hbody
  · exact effect_stepped_four hi hc t hadv

theorem does_of_passes {c : Cond} (hi : armCond i = some c) (h : s.passes c → Does i s (exec i s)) :
    Does i s (exec i s) := by
  obtain ⟨body, hexec⟩ := exec_eq_conditional hi s
  rw [hexec]
  exact does_conditional hi fun hc => conditional_passes hc body ▸ hexec ▸ h hc

/-- Only the pc moves. -/
theorem effect_moved {d : Option RegNum} (hi : registerForm i = some d) {v : Word} (hv : Fits i s v) :
    Effect i s (s.setPc v) :=
  .computed (k := 0) (fl := s.cpsr.flags) (r := 0#4) (wb := none) hi (fun _ => rfl) (fun h => nomatch h) hv

theorem does_branchBy {d : Option RegNum} (hi : registerForm i = some d) {disp : Int}
    (hv : 0 ≤ (s.pc.toNat : Int) + disp ∧ (s.pc.toNat : Int) + disp < 2 ^ 32 →
      Fits i s (BitVec.ofInt 32 ((s.pc.toNat : Int) + disp))) : Does i s (branchBy disp s) := by
  intro t ht
  obtain ⟨hin, rfl⟩ := branchBy_next ht
  exact effect_moved hi (hv hin)

theorem does_exchange (hi : (∃ c rm, i = .bx c rm) ∨ ∃ rs, i = .tBx rs) (v : Word) : Does i s (exchange v s) := by
  intro t ht
  obtain ⟨-, rfl⟩ | ⟨h0, h1, rfl⟩ := exchange_next ht
  · exact .exchanged hi (clearBit0_even v)
  · exact .exchanged hi (multiple_of_four_of_low_bits h0 h1)

theorem does_exceptionReturn {c : Cond} {v : Word} (hi : returnForm i s = some (c, v)) :
    Does i s (exceptionReturn v s) := by
  intro t ht
  obtain ⟨n, hn, ⟨hm, rfl⟩ | ⟨m, hm, hfit, rfl⟩⟩ := exceptionReturn_next ht
  · exact .wedged (.inr ⟨c, v, n, hi, hn, ofBits_eq_none_iff.1 hm⟩)
  · exact .returned hi hn (ofBits_eq_some_iff.1 hm) (pcFits_iff.1 hfit)

theorem does_writeResult {sf : Bool} {rd : RegNum} (hi : registerForm i = some (some rd)) (hk : keepsCpsr i = !sf)
    {v : Word} (hret : sf = true → rd = 15#4 → ∃ c, returnForm i s = some (c, v)) (fl : HeldFlags) :
    Does i s (writeResult sf rd v fl s) := by
  intro t ht
  obtain ⟨hd, hadv⟩ | ⟨hd, hsf, hexn⟩ | ⟨-, -, hjump⟩ := writeResult_next ht
  · have hpc : (if sf then (s.setReg rd v).setFlags fl else s.setReg rd v).pc = s.pc := by
      cases sf <;> exact s.setReg_pc hd v
    obtain ⟨hcan, rfl⟩ := advance_next hadv
    rw [State.canAdvance, hpc] at hcan
    rw [State.stepped, hpc]
    cases sf with
    | true =>
      exact .computed (k := 0) (fl := fl) (r := rd) (wb := some v) hi (fun h => by rw [hk] at h; cases h) (fun _ => rfl)
        (fits_advance_four hcan)
    | false =>
      exact .computed (k := 0) (fl := s.cpsr.flags) (r := rd) (wb := some v) hi (fun _ => rfl) (fun _ => rfl)
        (fits_advance_four hcan)
  · obtain ⟨c, hform⟩ := hret hsf hd
    exact does_exceptionReturn hform t hexn
  · obtain ⟨hal, rfl⟩ := jumpArm_next hjump
    exact effect_moved hi (fits_of_multiple_of_four ((extractLsb'_low_two_eq_zero_iff v).1 hal))

theorem does_setFlags {d : Option RegNum} (hi : registerForm i = some d) (hk : keepsCpsr i = false) {n : Nat}
    (hv : s.canAdvance n → Fits i s (s.pc + BitVec.ofNat 32 n)) (fl : HeldFlags) :
    Does i s (advance n (s.setFlags fl)) := by
  intro t ht
  obtain ⟨hadv, rfl⟩ := advance_next ht
  exact .computed (k := 0) (fl := fl) (r := 0#4) (wb := none) hi (fun h => by rw [hk] at h; cases h) (fun h => nomatch h)
    (hv hadv)

/-- A register is written, with draws counted, and the pc moves on. -/
theorem does_setReg {k : Nat} {rd : RegNum} (hi : registerForm i = some (some rd)) (hd : rd ≠ 15#4) {n : Nat}
    (hv : s.canAdvance n → Fits i s (s.pc + BitVec.ofNat 32 n)) (v : Word) :
    Does i s (advance n ((s.drew k).setReg rd v)) := by
  intro t ht
  have hpc : ((s.drew k).setReg rd v).pc = s.pc := State.setReg_pc _ hd v
  obtain ⟨hadv, rfl⟩ := advance_next ht
  rw [State.canAdvance, hpc] at hadv
  rw [State.stepped, hpc]
  exact .computed (fl := s.cpsr.flags) (r := rd) (wb := some v) hi (fun _ => rfl) (fun _ => rfl) (hv hadv)

/-! ## Status registers -/

theorem msrForm_form {c : Cond} {spsr : Bool} {mask : BitVec 4} {v : Word} (hi : msrForm i s = some (c, spsr, mask, v)) :
    registerForm i = some none ∧ keepsCpsr i = false := by
  cases i with
  | msrReg | msrImm => exact ⟨rfl, rfl⟩
  | _ => cases hi

theorem does_msr {c : Cond} {spsr : Bool} {mask : BitVec 4} {v : Word} (hi : msrForm i s = some (c, spsr, mask, v)) :
    Does i s (msr spsr mask v s) := by
  obtain ⟨hform, hkeeps⟩ := msrForm_form hi
  intro t ht
  cases spsr with
  | true =>
    cases hn : s.cpsr.mode.spsr? with
    | none => cases (msrSpsr_noSpsr (spsr?_eq_none_iff.1 hn)).symm.trans ht
    | some n =>
      rw [msrSpsr_writes hn] at ht
      obtain ⟨hadv, rfl⟩ := advance_next ht
      exact .saved hi hn hadv
  | false =>
    by_cases hctl : mask[0] = false ∨ s.cpsr.mode = .usr
    · exact does_setFlags hform hkeeps fits_advance_four _ t (msrCpsr_flags hctl ▸ ht)
    obtain ⟨h0, hmode⟩ := not_or.1 hctl
    rw [Bool.not_eq_false] at h0
    by_cases htb : v[5] = s.cpsr.t
    · cases hm : Mode.ofBits (v.extractLsb' 0 5) with
      | none =>
        rw [ofBits_eq_none_iff] at hm
        cases (msrCpsr_wedges h0 hmode htb hm).symm.trans ht
        exact .wedged (.inl ⟨c, mask, v, hi, h0, hmode, hm⟩)
      | some m =>
        rw [msrCpsr_mode h0 hmode htb (ofBits_eq_some_iff.1 hm)] at ht
        obtain ⟨hadv, rfl⟩ := advance_next ht
        exact .control hi hmode rfl hadv
    · cases (msrCpsr_tBit h0 hmode htb).symm.trans ht

end Computed

/-! ## Accesses -/

section Accesses
variable {i : Instr} {s u : State}

theorem not_stores (hi : mayStore i = false) (a : Nat) : ¬ Stores i s a := by
  rintro (⟨hform, -, -⟩ | ⟨hform, -, -⟩ | ⟨hform, -, -⟩)
  · cases i with
    | str | strb | strh => cases hi
    | _ => cases hform
  · cases hform
    cases hi
  · cases i with
    | swp | swpb => cases hi
    | _ => cases hform

theorem Reached.refl (s : State) : Reached s s :=
  ⟨⟨rfl, rfl, rfl, rfl, rfl⟩, fun _ _ => rfl, rfl, le_rfl⟩

/-- Accesses leave registers and status, and draws only grow. -/
theorem Reached.access {t : State} (h : Reached s t) (hregs : u.regs = t.regs) (hst : SameStatus t u)
    (hdraws : t.draws ≤ u.draws) : Reached s u :=
  ⟨sameStatus_trans h.status hst, fun q hq => hregs ▸ h.regs q hq, (pc_eq_of_regs_eq hregs).trans h.pc,
    h.draws.trans hdraws⟩

theorem Reached.putReg (h : Reached s u) {r : RegNum} (hr : r ≠ 15#4) (x : Held Word) : Reached s (u.putReg r x) where
  status := h.status
  regs q hq := by
    obtain ⟨hc, -⟩ := h.status
    rw [State.putReg_regs, RegFile.get_put _ (bank_ne_r15 _ hr), if_neg (hc ▸ hq r), h.regs q hq]
  pc := (u.putReg_pc hr x).trans h.pc
  draws := h.draws

theorem Accessed.putReg (h : Accessed i s u) {r : RegNum} (hr : r ≠ 15#4) (x : Held Word) : Accessed i s (u.putReg r x) :=
  ⟨h.form, h.reached.putReg hr x, h.memory.of_eq rfl rfl⟩

theorem Accessed.setReg (h : Accessed i s u) {r : RegNum} (hr : r ≠ 15#4) (v : Word) : Accessed i s (u.setReg r v) :=
  h.putReg hr (.value v)

theorem Accessed.writeBack (h : Accessed i s u) {r : RegNum} (hr : r ≠ 15#4) (wb : Option Word) :
    Accessed i s (u.writeBack r wb) := by
  cases wb with
  | none => exact h
  | some v => exact h.setReg hr v

/-- The end of an instruction that has made its accesses. -/
theorem does_advance_of_accessed (h : Accessed i s u) : Does i s (advance 4 u) := by
  intro t ht
  obtain ⟨hadv, rfl⟩ := advance_next ht
  rw [State.canAdvance, h.reached.pc] at hadv
  rw [State.stepped, h.reached.pc]
  exact .accessed h (fits_advance_four hadv)

theorem does_dataAbort (h : Accessed i s u) : Does i s (.next (dataAbort u)) := by
  rintro t ⟨⟩
  exact .aborted h

/-- Reads change the answers and the draws alone. -/
theorem accessed_of_reads (hform : registerForm i = none) (hB : ∀ a, ¬ Stores i s a) {as : List Bool} {d : Nat}
    (hd : s.draws ≤ d) : Accessed i s { s with aborts := as, draws := d } :=
  ⟨hform, (Reached.refl s).access rfl ⟨rfl, rfl, rfl, rfl, rfl⟩ hd, wrote_nothing hB rfl rfl⟩

/-! ## Single transfers -/

theorem loadForm_kind {x : Transfer} (hi : loadForm i = some x) :
    armCond i = some x.cond ∧ registerForm i = none ∧ mayStore i = false := by
  cases i with
  | ldr | ldrb | ldrh => cases hi; exact ⟨rfl, rfl, rfl⟩
  | _ => cases hi

theorem storeForm_kind {x : Transfer} (hi : storeForm i = some x) :
    armCond i = some x.cond ∧ registerForm i = none ∧ swapForm i = none ∧ ∀ c p u sbit w rn list, i ≠ .stm c p u sbit w rn list := by
  cases i with
  | str | strb | strh => cases hi; exact ⟨rfl, rfl, rfl, fun _ _ _ _ _ _ _ h => nomatch h⟩
  | _ => cases hi

theorem does_load {x : Transfer} (hi : loadForm i = some x) : Does i s (exec i s) := by
  obtain ⟨hcond, hform, hstore⟩ := loadForm_kind hi
  refine does_of_passes hcond fun hc t ht => ?_
  rw [exec_load_of_passes hi hc] at ht
  obtain ⟨addr, wb, hx⟩ := legal_of_next ht
  obtain ⟨hn, hd, -⟩ := id hx
  have hread {k : Nat} : Accessed i s (s.answered.drew k) := accessed_of_reads hform (not_stores hstore) (Nat.le_add_right ..)
  obtain ⟨hs, -⟩ | ⟨-, k, v, hr⟩ := memRead_cases x.size addr s
  · exact does_dataAbort (((hread (k := 0)).writeBack hn wb).putReg hd .unspecified) t (load_of_abort hx hs ▸ ht)
  · exact does_advance_of_accessed ((hread.setReg hd v).writeBack hn wb) t (load_of_legal hx hr ▸ ht)

/-- What a single store stores to, once its address is known. -/
theorem stores_single_iff {x : Transfer} {addr : Word} {wb : Option Word} (hi : storeForm i = some x)
    (haddr : transferAddress x.p x.u x.w (s.reg x.rn) x.offset = some (addr, wb)) (a : Nat) :
    Stores i s a ↔ InRange addr.toNat x.size.bytes a := by
  refine ⟨fun h => ?_, .single hi haddr⟩
  obtain ⟨-, -, hswap, hstm⟩ := storeForm_kind hi
  obtain ⟨hi', haddr', ha⟩ | ⟨hi', -, -⟩ | ⟨hi', -, -⟩ := h
  · cases hi.symm.trans hi'
    cases haddr.symm.trans haddr'
    exact ha
  · cases hstm _ _ _ _ _ _ _ hi'
  · cases hswap.symm.trans hi'

theorem reached_of_store_abort {r : RegNum} (hr : r ≠ 15#4) (wb : Option Word) (n a : Nat) :
    Reached s (forgetBytes n a (s.answered.writeBack r wb)) := by
  have hbase : Reached s (s.answered.writeBack r wb) := by
    have hread : Reached s s.answered := (Reached.refl s).access rfl ⟨rfl, rfl, rfl, rfl, rfl⟩ le_rfl
    cases wb with
    | none => exact hread
    | some v => exact hread.putReg hr (.value v)
  obtain ⟨m, d, hf⟩ := forgetBytes_state n a (s.answered.writeBack r wb)
  rw [hf]
  exact hbase.access rfl ⟨rfl, rfl, rfl, rfl, rfl⟩ le_rfl

theorem does_store {x : Transfer} (hi : storeForm i = some x) : Does i s (exec i s) := by
  obtain ⟨hcond, hform, -⟩ := storeForm_kind hi
  refine does_of_passes hcond fun hc t ht => ?_
  rw [exec_store_of_passes hi hc] at ht
  obtain ⟨addr, wb, hx⟩ := legal_of_next ht
  obtain ⟨hn, hd, haddr, -, hal⟩ := id hx
  have hstores (a : Nat) := (stores_single_iff hi haddr a).symm
  obtain ⟨hs, -⟩ | ⟨-, hw⟩ := memWrite_cases x.size addr (s.second x.rd) s
  · exact does_dataAbort ⟨hform, reached_of_store_abort hn wb _ _, (forgetBytes_wrote _ _ _ (aligned_end (aligned_iff.2 hal))
      |>.of_start (by simp) (by simp)).congr hstores⟩ t (store_of_abort hx hs ▸ ht)
  · obtain ⟨hregs, hst, hdraws, -⟩ := memWrite_frame hw
    have hwrote := (memWrite_wrote hal hw).congr hstores
    have hdone : Accessed i s _ := ⟨hform, (Reached.refl s).access hregs hst hdraws.ge, hwrote⟩
    exact does_advance_of_accessed (hdone.writeBack hn wb) t (store_of_legal hx hw ▸ ht)

/-! ## Swaps -/

theorem swapForm_kind {c : Cond} {size : Size} {rn rd rm : RegNum} (hi : swapForm i = some (c, size, rn, rd, rm)) :
    armCond i = some c ∧ registerForm i = none ∧ storeForm i = none ∧ ∀ c p u sbit w rn list, i ≠ .stm c p u sbit w rn list := by
  cases i with
  | swp | swpb => cases hi; exact ⟨rfl, rfl, rfl, fun _ _ _ _ _ _ _ h => nomatch h⟩
  | _ => cases hi

theorem stores_swap_iff {c : Cond} {size : Size} {rn rd rm : RegNum} (hi : swapForm i = some (c, size, rn, rd, rm)) (a : Nat) :
    Stores i s a ↔ s.quiet 2 ∧ InRange (s.reg rn).toNat size.bytes a := by
  refine ⟨fun h => ?_, fun ⟨hq, ha⟩ => .swap hi hq ha⟩
  obtain ⟨-, -, hstore, hstm⟩ := swapForm_kind hi
  obtain ⟨hi', -, -⟩ | ⟨hi', -, -⟩ | ⟨hi', hq, ha⟩ := h
  · cases hstore.symm.trans hi'
  · cases hstm _ _ _ _ _ _ _ hi'
  · cases hi.symm.trans hi'
    exact ⟨hq, ha⟩

theorem does_swap {c : Cond} {size : Size} {rn rd rm : RegNum} (hi : swapForm i = some (c, size, rn, rd, rm)) :
    Does i s (exec i s) := by
  obtain ⟨hcond, hform, -⟩ := swapForm_kind hi
  refine does_of_passes hcond fun hc t ht => ?_
  rw [exec_swap_of_passes hi hc] at ht
  have hx := swap_next_legal ht
  obtain ⟨-, hd, -, -, -, hal⟩ := id hx
  have hnone (hq : ¬ s.quiet 2) (a : Nat) : ¬ Stores i s a := fun h => hq ((stores_swap_iff hi a).1 h).1
  obtain ⟨hs, hr⟩ | ⟨hs, k, v, hr⟩ := memRead_cases size (s.reg rn) s
  · have hq : ¬ s.quiet 2 := fun hq => Bool.false_ne_true ((quiet_two.1 hq).1.symm.trans hs)
    exact does_dataAbort (accessed_of_reads hform (hnone hq) le_rfl) t (swap_of_read_abort hx hr ▸ ht)
  cases hs' : (s.answered.drew k).abortNow with
  | true =>
    have hq : ¬ s.quiet 2 := fun hq => Bool.false_ne_true ((quiet_two.1 hq).2.symm.trans hs')
    exact does_dataAbort (accessed_of_reads hform (hnone hq) (Nat.le_add_right ..)) t
      (swap_of_read_ok hx hr (memWrite_aborted hs' ..) ▸ ht)
  | false =>
    obtain ⟨u, hw, -⟩ := memWrite_valueAt? hs' size (s.reg rn) (s.second rm)
    obtain ⟨hregs, hst, hdraws, -⟩ := memWrite_frame hw
    have hstores (a : Nat) := ((stores_swap_iff hi a).trans (and_iff_right (quiet_two.2 ⟨hs, hs'⟩))).symm
    have hdone : Accessed i s u := ⟨hform, (Reached.refl s).access hregs hst (Nat.le_add_right s.draws k |>.trans hdraws.ge),
      ((memWrite_wrote hal hw).of_start (s := s) rfl rfl).congr hstores⟩
    exact does_advance_of_accessed (hdone.setReg hd v) t ((swap_of_read_ok hx hr hw).symm.trans ht)

/-! ## Blocks -/

theorem loadOne_draws (j : RegNum) (addr : Word) (b : BlockLoad) : b.state.draws ≤ (loadOne j addr b).state.draws := by
  cases h : b.state.abortNow with
  | true => rw [loadOne_of_abort h]; exact le_rfl
  | false =>
    obtain ⟨-, -, hdraws⟩ := loadOne_counts j addr b
    rw [hdraws h]
    exact Nat.le_add_right ..

theorem loadBlock_draws_le (is : List RegNum) (start : Word) (b : BlockLoad) :
    b.state.draws ≤ (loadBlock is start b).state.draws := by
  induction is generalizing start b with
  | nil => exact le_rfl
  | cons j is ih => exact (loadOne_draws j start b).trans (ih ..)

theorem accessed_ldmLoop (hform : registerForm i = none) (hstore : mayStore i = false) (p u : Bool) (rn : RegNum)
    (list : BitVec 16) : Accessed i s (ldmLoop p u rn list s).state := by
  obtain ⟨hmem, hmod, hst, hpc, -⟩ := ldmLoop_frame p u rn list s
  have hdraws : s.draws ≤ (ldmLoop p u rn list s).state.draws := loadBlock_draws_le _ _ ⟨false, none, s⟩
  exact ⟨hform, ⟨hst, fun q hq => ldmLoop_get p u rn list s fun j _ => hq j, hpc, hdraws⟩,
    wrote_nothing (not_stores hstore) hmem hmod⟩

theorem Accessed.abortedBase (h : Accessed i s u) (w : Bool) {rn : RegNum} (hn : rn ≠ 15#4) (list : BitVec 16)
    (base : Held Word) (wb : Word) : Accessed i s (abortedBase w rn list base wb u) := by
  rw [Machine.abortedBase]
  split_ifs
  · exact h.setReg hn wb
  · exact h.putReg hn base
  · exact h

theorem does_ldm {c : Cond} {p v sbit w : Bool} {rn : RegNum} {list : BitVec 16} (hi : i = .ldm c p v sbit w rn list) :
    Does i s (exec i s) := by
  subst hi
  refine does_of_passes rfl fun hc t ht => ?_
  obtain ⟨rfl, hx⟩ := blockLegal_of_next ((conditional_passes hc _).symm.trans ht)
  have hloop := accessed_ldmLoop (i := .ldm c p v false w rn list) (s := s) rfl rfl p v rn list
  by_cases hq : s.quiet (regsOf list).length
  · have hdone := hloop.writeBack hx.1 (writtenBack p v w rn list s)
    cases h15 : list.getLsbD 15 with
    | true =>
      obtain ⟨hal, rfl⟩ := jumpArm_next (exec_ldm_jump hc hx hq h15 ▸ ht)
      exact .accessed hdone (fits_of_multiple_of_four ((extractLsb'_low_two_eq_zero_iff _).1 hal))
    | false => exact does_advance_of_accessed hdone t (exec_ldm_advance hc hx hq h15 ▸ ht)
  · exact does_dataAbort (hloop.abortedBase w hx.1 list _ _) t (exec_ldm_of_abort hc hx hq ▸ ht)

theorem stores_stm_iff {c : Cond} {p v sbit w : Bool} {rn : RegNum} {list : BitVec 16} (a : Nat) :
    Stores (.stm c p v sbit w rn list) s a ↔
      InBlock (blockRange p v (s.reg rn) (regsOf list).length).1 (regsOf list).length a := by
  refine ⟨fun h => ?_, fun ⟨k, hk, ha⟩ => .block rfl hk ha⟩
  obtain ⟨hi, -, -⟩ | ⟨hi, hk, ha⟩ | ⟨hi, -, -⟩ := h
  · cases hi
  · cases hi
    exact ⟨_, hk, ha⟩
  · cases hi

theorem accessed_stmLoop {c : Cond} {p v sbit w : Bool} {rn : RegNum} {list : BitVec 16} (hal : (s.reg rn).toNat % 4 = 0) :
    Accessed (.stm c p v sbit w rn list) s (stmLoop p v rn list s).2 := by
  obtain ⟨hregs, hst, hdraws, -⟩ := stmLoop_frame (p := p) (u := v) (rn := rn) (list := list) (s := s)
  have hwrote := storeBlock_wrote (regsOf list) (blockRange_aligned p v hal (regsOf list).length) (false, s)
  exact ⟨rfl, (Reached.refl s).access hregs hst hdraws.ge, hwrote.congr fun a => (stores_stm_iff a).symm⟩

theorem does_stm {c : Cond} {p v sbit w : Bool} {rn : RegNum} {list : BitVec 16} (hi : i = .stm c p v sbit w rn list) :
    Does i s (exec i s) := by
  subst hi
  refine does_of_passes rfl fun hc t ht => ?_
  obtain ⟨rfl, hx⟩ := blockLegal_of_next ((conditional_passes hc _).symm.trans ht)
  obtain ⟨hn, -, hal, -⟩ := id hx
  have hdone := (accessed_stmLoop (c := c) (p := p) (v := v) (sbit := false) (w := w) (list := list) hal).writeBack hn
    (writtenBack p v w rn list s)
  cases h15 : list.getLsbD 15 with
  | true => cases (exec_stm_r15 hc hx h15).symm.trans ht
  | false =>
    by_cases hq : s.quiet (regsOf list).length
    · exact does_advance_of_accessed hdone t (exec_stm_of_quiet hc hx h15 hq ▸ ht)
    · exact does_dataAbort hdone t (exec_stm_of_abort hc hx h15 hq ▸ ht)

end Accesses

/-! ## Every instruction -/

section Operands
variable {i : Instr} {s : State}

theorem does_withReg {r : RegNum} {body : Word → Result} (h : r ≠ 15#4 → Does i s (body (s.reg r))) :
    Does i s (withReg r s body) := by
  intro t ht
  obtain ⟨hr, hbody⟩ := withReg_next ht
  exact h hr t hbody

theorem does_withSecond {r : RegNum} {body : Word → Result} (h : r ≠ 15#4 → Does i s (body (s.second r))) :
    Does i s (withSecond r s body) := by
  intro t ht
  obtain ⟨hr, hbody⟩ := withSecond_next ht
  exact h hr t hbody

theorem does_withThumbSource {readsRd : Bool} {rd rs : RegNum} {body : Word → Result}
    (h : ¬ (readsRd = true ∧ rd = 15#4) → Does i s (body (s.second rs))) :
    Does i s (withThumbSource readsRd rd rs s body) := by
  intro t ht
  obtain ⟨-, -, hrd, hbody⟩ := withThumbSource_next ht
  exact h hrd t hbody

theorem does_raise {e : Exn} (hi : mayStore i = false) (hform : registerForm i = none) (he : e ≠ .reset) (ret : Word) :
    Does i s (.next (raise e ret s)) := by
  rintro t ⟨⟩
  exact .trapped hi hform he

end Operands

theorem does_mrs {c : Cond} {spsr : Bool} {rd : RegNum} {s : State} :
    Does (.mrs c spsr rd) s (exec (.mrs c spsr rd) s) := by
  refine does_of_passes rfl fun hc t ht => ?_
  by_cases hd : rd = 15#4
  · cases (exec_mrs_r15 hc hd).symm.trans ht
  cases hp : psrRead spsr s with
  | none => cases (exec_mrs_noSpsr hc hd hp).symm.trans ht
  | some p => exact does_setReg rfl hd fits_advance_four _ t (exec_mrs_of_read hc hd hp ▸ ht)

theorem does_link {c : Cond} {offset : BitVec 24} {s : State} :
    Does (.bl c offset) s (branchBy (armDisp offset) (s.setReg 14#4 (s.pc + 4#32))) := by
  intro t ht
  have hpc : (s.setReg 14#4 (s.pc + 4#32)).pc = s.pc := s.setReg_pc (by decide) _
  obtain ⟨hin, rfl⟩ := branchBy_next ht
  rw [hpc] at hin ⊢
  exact .computed (k := 0) (fl := s.cpsr.flags) (r := 14#4) (wb := some (s.pc + 4#32)) rfl (fun _ => rfl) (fun _ => rfl)
    (fits_arm_branch hin)

theorem does_tMov {rd rs : RegNum} {s : State} (v : Word) :
    Does (.tMov rd rs) s (if rd ≠ 15#4 then advance 2 (s.setReg rd v) else .next (s.setPc (clearBit0 v))) := by
  intro t ht
  split_ifs at ht with hd
  · exact does_setReg (k := 0) rfl hd (fits_advance_two rfl) v t ht
  · cases ht
    exact effect_moved rfl (fits_of_multiple_of_two rfl (clearBit0_even v))

theorem does_tB {c : Cond} {offset : Byte} {s : State} : Does (.tB c offset) s (exec (.tB c offset) s) := by
  cases hc : condHolds c s.flags with
  | true =>
    rw [Thumb.exec_tB_taken hc]
    exact does_branchBy rfl (fits_thumb_branch rfl)
  | false =>
    intro t ht
    rw [Thumb.exec_tB_not_taken hc] at ht
    obtain ⟨hadv, rfl⟩ := advance_next ht
    exact effect_moved rfl (fits_advance_two rfl hadv)

/-- Everything an instruction can do. -/
theorem exec_effect (i : Instr) (s : State) : Does i s (exec i s) := by
  cases i with
  | bx c rm =>
    exact does_conditional rfl fun _ => does_withReg fun _ => does_exchange (.inl ⟨c, rm, rfl⟩) _
  | b => exact does_conditional rfl fun _ => does_branchBy rfl fits_arm_branch
  | bl => exact does_conditional rfl fun _ => does_link
  | movReg c sf rd rm =>
    exact does_conditional rfl fun _ => does_withReg fun hm => does_writeResult rfl rfl
      (fun hsf hd => ⟨c, by exact if_pos ⟨hsf, hd, hm⟩⟩) _
  | movImm c sf rd rot imm =>
    exact does_conditional rfl fun _ => does_writeResult rfl rfl
      (fun hsf hd => ⟨c, by rw [immValue_eq_rotated]; exact if_pos ⟨hsf, hd⟩⟩) _
  | addReg c sf rn rd rm | subReg c sf rn rd rm =>
    exact does_conditional rfl fun _ => does_withReg fun hn => does_withSecond fun hm => does_writeResult rfl rfl
      (fun hsf hd => ⟨c, by exact if_pos ⟨hsf, hd, hn, hm⟩⟩) _
  | addImm c sf rn rd rot imm | subImm c sf rn rd rot imm =>
    exact does_conditional rfl fun _ => does_withReg fun hn => does_writeResult rfl rfl
      (fun hsf hd => ⟨c, by rw [immValue_eq_rotated]; exact if_pos ⟨hsf, hd, hn⟩⟩) _
  | cmpReg =>
    exact does_conditional rfl fun _ => does_withReg fun _ => does_withSecond fun _ =>
      does_setFlags rfl rfl fits_advance_four _
  | cmpImm => exact does_conditional rfl fun _ => does_withReg fun _ => does_setFlags rfl rfl fits_advance_four _
  | mrs => exact does_mrs
  | msrReg c spsr mask rm => exact does_conditional rfl fun _ => does_withReg fun hm => does_msr (if_pos hm)
  | msrImm c spsr mask rot imm =>
    exact does_conditional rfl fun _ => does_msr (c := c) (by rw [immValue_eq_rotated]; rfl)
  | ldr | ldrb | ldrh => exact does_load rfl
  | str | strb | strh => exact does_store rfl
  | ldm => exact does_ldm rfl
  | stm => exact does_stm rfl
  | swp | swpb => exact does_swap rfl
  | swi | und => exact does_conditional rfl fun _ => does_raise rfl rfl (by decide) _
  | tAdd rd rs =>
    rw [Thumb.exec_tAdd]
    refine does_withThumbSource fun hd => ?_
    exact does_setReg (k := 0) rfl (fun h => hd ⟨rfl, h⟩) (fits_advance_two rfl) _
  | tCmp rd rs =>
    rw [Thumb.exec_tCmp]
    refine does_withThumbSource fun _ => ?_
    exact does_setFlags rfl rfl (fits_advance_two rfl) _
  | tMov rd rs =>
    rw [Thumb.exec_tMov]
    refine does_withThumbSource fun _ => ?_
    exact does_tMov _
  | tBx rs =>
    rw [Thumb.exec_tBx]
    refine does_withReg fun _ => ?_
    exact does_exchange (.inr ⟨rs, rfl⟩) _
  | tB c offset => exact does_tB
  | tSwi => exact does_raise rfl rfl (by decide) _

end Sys2Proof.Proofs.Effects
end

section
/-!
Frames (20_memory.md R68, R80; 10_state.md R40, R44): what each kind of effect keeps of memory, of the set of stored bytes, of
the registers and of the status, and the statements about instructions that follow.
-/

namespace Sys2Proof.Proofs.InstructionFrames
open Sys2Proof Sys2Proof.Machine Sys2Proof.Proofs.Branches Sys2Proof.Proofs.TransferRules
  Sys2Proof.Proofs.SingleTransfers Sys2Proof.Proofs.Swaps Sys2Proof.Proofs.BlockTransfers
  Sys2Proof.Proofs.StoreMultiple Sys2Proof.Proofs.SpsrWrites Sys2Proof.Proofs.StatusAccess
  Sys2Proof.Proofs.MemoryWrites Sys2Proof.Proofs.Effects

/-! ## The forms -/

theorem mayStore_of_registerForm {i : Instr} {d : Option RegNum} (hi : registerForm i = some d) : mayStore i = false := by
  cases i with
  | str | strb | strh | stm | swp | swpb => cases hi
  | _ => rfl

theorem returnForm_kind {i : Instr} {s : State} {c : Cond} {v : Word} (hi : returnForm i s = some (c, v)) :
    registerForm i = some (some 15#4) ∧ keepsCpsr i = false := by
  cases i with
  | movReg | addReg | addImm | subReg | subImm =>
    obtain ⟨⟨rfl, rfl, -⟩, -⟩ := Option.ite_none_right_eq_some.1 hi
    exact ⟨rfl, rfl⟩
  | movImm =>
    obtain ⟨⟨rfl, rfl⟩, -⟩ := Option.ite_none_right_eq_some.1 hi
    exact ⟨rfl, rfl⟩
  | _ => cases hi

section Frames
variable {i : Instr} {s t : State}

theorem exchangeForm_kind (hi : (∃ c rm, i = .bx c rm) ∨ ∃ rs, i = .tBx rs) :
    registerForm i = some none ∧ keepsCpsr i = false := by
  obtain ⟨c, rm, rfl⟩ | ⟨rs, rfl⟩ := hi <;> exact ⟨rfl, rfl⟩

theorem registerForm_of_wedges (h : Wedges i s) : ∃ d, registerForm i = some d := by
  obtain ⟨c, mask, v, hi, -⟩ | ⟨c, v, n, hi, -⟩ := h
  · exact ⟨_, (msrForm_form hi).1⟩
  · exact ⟨_, (returnForm_kind hi).1⟩

/-! ## Memory -/

/-- What an instruction has done to memory: it has stored to the bytes of `Stores`, or its condition has failed. -/
theorem memory_of_effect (h : Effect i s t) :
    Wrote (Stores i s) s t ∨
      (∃ c, armCond i = some c ∧ ¬ s.passes c) ∧ t.mem = s.mem ∧ t.modified = s.modified := by
  have kept {u : State} (hi : mayStore i = false) (hmem : u.mem = s.mem) (hmod : u.modified = s.modified) :
      Wrote (Stores i s) s u := wrote_nothing (not_stores hi) hmem hmod
  cases h with
  | skipped hi hc => exact .inr ⟨⟨_, hi, fun hp => Bool.false_ne_true (hc.symm.trans hp.2)⟩, rfl, rfl⟩
  | computed hi => exact .inl (kept (mayStore_of_registerForm hi) (by simp) (by simp))
  | exchanged hi => exact .inl (kept (mayStore_of_registerForm (exchangeForm_kind hi).1) rfl rfl)
  | returned hi => exact .inl (kept (mayStore_of_registerForm (returnForm_kind hi).1) rfl rfl)
  | wedged h =>
    obtain ⟨d, hi⟩ := registerForm_of_wedges h
    exact .inl (kept (mayStore_of_registerForm hi) rfl rfl)
  | control hi | saved hi => exact .inl (kept (mayStore_of_registerForm (msrForm_form hi).1) rfl rfl)
  | trapped hi => exact .inl (kept hi rfl rfl)
  | accessed h | aborted h => exact .inl (h.memory.of_eq rfl rfl)

theorem get?_of_effect (h : Effect i s t) {a : Nat} (ha : ¬ Stores i s a) : t.mem.get? a = s.mem.get? a := by
  obtain hw | ⟨-, hmem, -⟩ := memory_of_effect h
  · exact hw.outside a ha
  · rw [hmem]

theorem modified_of_effect (h : Effect i s t) {a : Nat} (ha : a ∈ s.modified) : a ∈ t.modified := by
  obtain hw | ⟨-, -, hmod⟩ := memory_of_effect h
  · exact (hw.noted a).2 (.inr ha)
  · rwa [hmod]

theorem noted_of_change (h : Effect i s t) {a : Nat} (ha : s.mem.get? a ≠ t.mem.get? a) : a ∈ t.modified := by
  obtain hw | ⟨-, hmem, -⟩ := memory_of_effect h
  · exact (hw.noted a).2 (.inl (not_not.1 fun hB => ha (hw.outside a hB).symm))
  · exact absurd (by rw [hmem]) ha

/-- Past its condition an instruction notes every byte it stores to. -/
theorem noted_of_stores (h : Effect i s t) (hc : ∀ c, armCond i = some c → s.passes c) {a : Nat} (ha : Stores i s a) :
    a ∈ t.modified := by
  obtain hw | ⟨⟨c, hi, hnot⟩, -⟩ := memory_of_effect h
  · exact (hw.noted a).2 (.inl ha)
  · exact absurd (hc c hi) hnot

theorem wf_of_effect (h : Effect i s t) (hm : Memory.wf s.mem) (hd : AddrSet.wf s.modified) :
    Memory.wf t.mem ∧ AddrSet.wf t.modified := by
  obtain hw | ⟨-, hmem, hmod⟩ := memory_of_effect h
  · exact hw.wf hm hd
  · rw [hmem, hmod]
    exact ⟨hm, hd⟩

/-! ## Status, parameters, draws, registers -/

theorem cfg_of_effect (h : Effect i s t) : t.cfg = s.cfg := by
  cases h with
  | computed => simp
  | accessed h | aborted h =>
    obtain ⟨-, -, -, hcfg, -⟩ := h.reached.status
    exact hcfg
  | _ => rfl

theorem draws_of_effect (h : Effect i s t) : s.draws ≤ t.draws := by
  cases h with
  | computed => simp
  | accessed h | aborted h => exact h.reached.draws
  | _ => exact le_rfl

theorem wedged_of_effect (h : Effect i s t) (hs : s.wedged = false) (ht : t.wedged = true) : Wedges i s ∧ t = s.wedge := by
  cases h with
  | wedged h => exact ⟨h, rfl⟩
  | computed => simp [hs] at ht
  | accessed h | aborted h =>
    obtain ⟨-, -, hw, -⟩ := h.reached.status
    cases hs.symm.trans (hw.symm.trans ht)
  | _ => cases hs.symm.trans ht

theorem entered_raise (e : Exn) (ret : Word) (s : State) : Entered e ret s (raise e ret s) :=
  ⟨rfl, rfl, ExceptionEntry.raise_link ret s, rfl⟩

theorem entered_of_accessed {u : State} (h : Accessed i s u) : Entered .dataAbort (s.pc + 8#32) s (dataAbort u) := by
  obtain ⟨hc, hp, -⟩ := h.reached.status
  exact entered_dataAbort hc hp h.reached.pc

/-- The registers after a register instruction. -/
theorem get_of_computed {d : Option RegNum} {k : Nat} {fl : HeldFlags} {r : RegNum} {wb : Option Word} {v : Word}
    (hd : wb.isSome = true → d = some r) {q : PhysReg} (h15 : q ≠ .r15) (hq : ∀ r, d = some r → q ≠ bank s.cpsr.mode r) :
    ((((s.drew k).setFlags fl).writeBack r wb).setPc v).regs.get q = s.regs.get q := by
  rw [setPc_get h15, writeBack_get_of_ne ((s.drew k).setFlags fl) fun hwb => hq r (hd hwb)]
  rfl

end Frames

/-! ## The obligations -/

/-- Settles O36: of the kinds of effect those of `registerForm` remain, each with one register written at most. -/
theorem registerInstructionFrame : Obligations.RegisterInstructionFrame := by
  intro i d s t hi ht
  have heffect := exec_effect i s t ht
  have hmem (a : Nat) : t.mem.get? a = s.mem.get? a := get?_of_effect heffect (not_stores (mayStore_of_registerForm hi) a)
  suffices h : (∀ q : PhysReg, q ≠ .r15 → (∀ r, d = some r → q ≠ bank s.cpsr.mode r) → t.regs.get q = s.regs.get q) ∧
      t.modified = s.modified ∧ t.aborts = s.aborts ∧ t.lines = s.lines ∧
      ((∀ c mask v, msrForm i s ≠ some (c, true, mask, v)) → t.spsrs = s.spsrs) ∧
      (keepsCpsr i = true → t.cpsr = s.cpsr) by
    obtain ⟨hregs, hmod, haborts, hlines, hspsrs, hcpsr⟩ := h
    exact ⟨hregs, hmem, hmod, haborts, hlines, cfg_of_effect heffect, hspsrs, hcpsr⟩
  have moved {u : State} {v : Word} (hregs : u.regs = s.regs) (q : PhysReg) (h15 : q ≠ .r15) :
      (u.setPc v).regs.get q = s.regs.get q := (setPc_get h15 u v).trans (by rw [hregs])
  cases heffect with
  | skipped => exact ⟨fun q h15 _ => moved rfl q h15, rfl, rfl, rfl, fun _ => rfl, fun _ => rfl⟩
  | computed hi' hfl hd =>
    cases hi.symm.trans hi'
    refine ⟨fun q h15 hq => get_of_computed hd h15 hq, by simp, by simp, by simp, fun _ => by simp, fun hk => ?_⟩
    rw [hfl hk]
    simp
  | exchanged hi' =>
    exact ⟨fun q h15 _ => moved rfl q h15, rfl, rfl, rfl, fun _ => rfl, fun hk => by
      cases (exchangeForm_kind hi').2.symm.trans hk⟩
  | returned hi' =>
    exact ⟨fun q h15 _ => moved rfl q h15, rfl, rfl, rfl, fun _ => rfl, fun hk => by
      cases (returnForm_kind hi').2.symm.trans hk⟩
  | wedged => exact ⟨fun _ _ _ => rfl, rfl, rfl, rfl, fun _ => rfl, fun _ => rfl⟩
  | control hi' =>
    exact ⟨fun q h15 _ => moved rfl q h15, rfl, rfl, rfl, fun _ => rfl, fun hk => by
      cases (msrForm_form hi').2.symm.trans hk⟩
  | saved hi' =>
    exact ⟨fun q h15 _ => moved rfl q h15, rfl, rfl, rfl, fun hmsr => (hmsr _ _ _ hi').elim, fun _ => rfl⟩
  | trapped _ hform => cases hform.symm.trans hi
  | accessed h | aborted h => cases h.form.symm.trans hi

/-- Settles O37: outside `Stores` no byte changes, and `Stores` is the range of each form's accesses. -/
theorem memoryFrame : Obligations.MemoryFrame := by
  intro i s t ht
  have hkept {a : Nat} (ha : ¬ Stores i s a) : t.mem.get? a = s.mem.get? a := get?_of_effect (exec_effect i s t ht) ha
  refine ⟨fun hi a => hkept (not_stores hi a), fun x addr wb hi haddr a ha => hkept fun h => ?single,
    fun c p u sbit w rn list hi a ha => hkept fun h => ?block, fun c size rn rd rm hi a ha => hkept fun h => ?swap⟩
  case single =>
    obtain ⟨hlo, hhi⟩ := (stores_single_iff hi haddr a).1 h
    omega
  case block =>
    subst hi
    obtain ⟨k, hk, hlo, hhi⟩ := (stores_stm_iff a).1 h
    have := ha k hk
    rw [blockAddr_eq] at this
    omega
  case swap =>
    obtain ⟨-, hlo, hhi⟩ := (stores_swap_iff hi a).1 h
    omega

/-- Settles O46: the one kind of effect that sets the flag. -/
theorem onlyIllegalModesWedge : Obligations.OnlyIllegalModesWedge := by
  intro i s t ht hs hw
  obtain ⟨hcause, rfl⟩ := wedged_of_effect (exec_effect i s t ht) hs hw
  exact ⟨rfl, hcause⟩

/-- The CPSR that a saved status restores is the saved status. -/
theorem toPsr_toCpsr {p : Psr} {m : Mode} (h : m.bits = p.m) : (p.toCpsr m).toPsr = p.held := by
  rw [Cpsr.toPsr, Psr.held, ← h]
  rfl

/-- What BX makes of the state. -/
theorem eq_of_exchange {v : Word} {s t : State} (h : exchange v s = .next t) :
    t = { s with cpsr := { s.cpsr with t := t.cpsr.t } }.setPc t.pc := by
  obtain ⟨-, rfl⟩ | ⟨-, -, rfl⟩ := exchange_next h <;> rfl

/-- Settles O44: by the kinds of effect, and `exchange` for BX. -/
theorem stateSwitches : Obligations.StateSwitches := by
  refine ⟨fun i s t ht htbit => ?switch, fun i s t hi ht => ?bx⟩
  case switch =>
    cases exec_effect i s t ht with
    | skipped | wedged | saved => exact absurd rfl htbit
    | computed => exact absurd (by simp) htbit
    | exchanged hi => exact hi.elim .inl (.inr ∘ .inl)
    | returned hi hn hm => exact .inr (.inr (.inr ⟨_, _, _, hi, hn, toPsr_toCpsr hm⟩))
    | control _ _ htr => exact absurd htr htbit
    | trapped => exact .inr (.inr (.inl ⟨_, _, entered_raise ..⟩))
    | accessed h => exact absurd (congrArg Cpsr.t h.reached.status.1) htbit
    | aborted h => exact .inr (.inr (.inl ⟨_, _, entered_of_accessed h⟩))
  case bx =>
    obtain ⟨c, rm, rfl⟩ | ⟨rs, rfl⟩ := hi
    · obtain ⟨-, ⟨-, hbody⟩ | ⟨-, hadv⟩⟩ := conditional_next ht
      · exact eq_of_exchange (withReg_next hbody).2
      · obtain ⟨-, rfl⟩ := advance_next hadv
        rfl
    · rw [Thumb.exec_tBx] at ht
      exact eq_of_exchange (withReg_next ht).2

end Sys2Proof.Proofs.InstructionFrames
end

section
/-!
The step (60_exceptions.md R220): reset, interrupt, fetch and execution in their order, each once as an equation; what a step
can do; and the statements about single events that follow.
-/

namespace Sys2Proof.Proofs.StepRules
open Sys2Proof Sys2Proof.Machine Sys2Proof.Proofs.EncodeDecode Sys2Proof.Proofs.Traps Sys2Proof.Proofs.ExceptionEntry
  Sys2Proof.Proofs.StatusAccess Sys2Proof.Proofs.Effects Sys2Proof.Proofs.InstructionFrames

/-! ## Reset -/

/-- Everything that a reset leaves (70_reset_and_hazards.md R271). -/
theorem takeReset_eq (s : State) :
    takeReset s = { s with
      regs := RegFile.unspecified 0#32
      cpsr := ⟨HeldFlags.unspecified, true, true, false, .svc⟩
      spsrs := ⟨HeldPsr.unspecified, HeldPsr.unspecified, HeldPsr.unspecified, HeldPsr.unspecified, HeldPsr.unspecified⟩
      mem := []
      wedged := false } := by
  have hf : (s.cpsr.f || Exn.reset.masksFiq) = true := Bool.or_true _
  rw [takeReset, raise, hf]
  rfl

theorem step_of_reset {s : State} (h : s.linesNow.nRESET = false) : step s = .next (takeReset s.boundaryPassed) := if_pos h

/-- Past the reset test a wedged machine waits. -/
theorem step_of_wedged {s : State} (hr : s.linesNow.nRESET = true) (hw : s.wedged = true) : step s = wedgedStep s := by
  rw [step, stepWith, hr, hw]
  rfl

theorem step_of_running {s : State} (hr : s.linesNow.nRESET = true) (hw : s.wedged = false) :
    step s = boundaryStep exec s.linesNow s.boundaryPassed := by
  rw [step, stepWith, hr, hw]
  rfl

/-- The head of the lines is the sample of this boundary. -/
theorem linesNow_of_all_high {s : State} (h : ∀ l ∈ s.lines, l.nRESET = true) : s.linesNow.nRESET = true := by
  rw [State.linesNow]
  cases hl : s.lines with
  | nil => rfl
  | cons l ls => exact h l (by simp [hl])

theorem wedgedStep_of_all_high {s : State} (h : ∀ l ∈ s.lines, l.nRESET = true) : wedgedStep s = .fault .wedged := by
  have hnil : s.lines.dropWhile (fun l => l.nRESET) = [] := by simpa using h
  rw [wedgedStep, hnil]

theorem wedgedStep_of_low {s : State} (h : ∃ l ∈ s.lines, l.nRESET = false) :
    ∃ ls, wedgedStep s = .next (takeReset { s with lines := ls, draws := s.draws + 1 }) := by
  cases hd : s.lines.dropWhile (fun l => l.nRESET) with
  | nil =>
    obtain ⟨l, hl, hlow⟩ := h
    have hhigh : ∀ l ∈ s.lines, l.nRESET = true := by simpa using hd
    exact absurd (hlow.symm.trans (hhigh l hl)) Bool.false_ne_true
  | cons l ls =>
    rw [wedgedStep, hd]
    exact ⟨ls, rfl⟩

/-! ## Interrupts -/

theorem step_of_fiq {s : State} (hr : s.linesNow.nRESET = true) (hw : s.wedged = false) (hl : s.linesNow.nFIQ = false)
    (hf : s.cpsr.f = false) : step s = .next (raise .fiq (s.pc + 4#32) s.boundaryPassed) := by
  rw [step_of_running hr hw]
  exact if_pos ⟨hl, hf⟩

theorem step_of_no_fiq {s : State} (hr : s.linesNow.nRESET = true) (hw : s.wedged = false)
    (hf : s.linesNow.nFIQ = true ∨ s.cpsr.f = true) :
    step s = if s.linesNow.nIRQ = false ∧ s.cpsr.i = false then .next (raise .irq (s.pc + 4#32) s.boundaryPassed)
      else fetchAndRun exec s.boundaryPassed := by
  rw [step_of_running hr hw]
  refine if_neg ?_
  rintro ⟨hl, hf'⟩
  rcases hf with h | h
  · cases hl.symm.trans h
  · cases hf'.symm.trans h

theorem step_of_irq {s : State} (hr : s.linesNow.nRESET = true) (hw : s.wedged = false)
    (hf : s.linesNow.nFIQ = true ∨ s.cpsr.f = true) (hl : s.linesNow.nIRQ = false) (hi : s.cpsr.i = false) :
    step s = .next (raise .irq (s.pc + 4#32) s.boundaryPassed) := by
  rw [step_of_no_fiq hr hw hf, if_pos ⟨hl, hi⟩]

theorem step_of_undisturbed {s : State} (h : s.undisturbed) : step s = fetchAndRun exec s.boundaryPassed := by
  obtain ⟨hr, hw, hf, hi⟩ := h
  rw [step_of_no_fiq hr hw hf, if_neg]
  rintro ⟨hl, hi'⟩
  rcases hi with h | h
  · cases hl.symm.trans h
  · cases hi'.symm.trans h

/-! ## Fetch -/

section Fetch
variable {s : State}

theorem anyModified_eq_false_iff {a n : Nat} : anyModified s.modified a n = false ↔ s.unmodified a n := by
  simp only [anyModified, List.any_eq_false, Bool.and_eq_true, decide_eq_true_eq, State.unmodified]
  exact forall₂_congr fun x _ => by omega

theorem fetchAndRun_of_aligned (hp : s.pcAligned) :
    fetchAndRun exec s =
      match fetch s with
      | .modified => .refused .fetchModified
      | .abort t => .next (raise .prefetchAbort (t.pc + 4#32) t)
      | .ok bytes t => decodeAndRun exec bytes t := if_pos (pcFits_iff.2 hp)

theorem fetch_modified (h : ¬ s.unmodified s.pc.toNat (instrLength s.cpsr.t)) : fetch s = .modified := by
  rw [← anyModified_eq_false_iff, Bool.not_eq_false] at h
  exact if_pos h

theorem fetch_abort (hm : s.unmodified s.pc.toNat (instrLength s.cpsr.t)) (ha : s.abortNow = true) :
    fetch s = .abort s.answered := by
  rw [fetch, anyModified_eq_false_iff.2 hm, ha]
  rfl

theorem fetch_ok (hm : s.unmodified s.pc.toNat (instrLength s.cpsr.t)) (ha : s.abortNow = false) {bytes : List Byte}
    (hlen : bytes.length = instrLength s.cpsr.t)
    (hbytes : ∀ k (h : k < bytes.length), s.mem.get? (s.pc.toNat + k) = some bytes[k]) :
    fetch s = .ok bytes s.answered := by
  have hread : readBytes (instrLength s.cpsr.t) s.pc.toNat s.answered = (bytes, s.answered) :=
    hlen ▸ readBytes_of_values bytes s.pc.toNat s.answered hbytes
  rw [fetch, anyModified_eq_false_iff.2 hm, ha]
  simp only [Bool.false_eq_true, if_false, hread]

/-- A step at an undisturbed boundary whose bytes hold values decodes them. -/
theorem step_of_bytes {bytes : List Byte} (h : s.undisturbed) (hp : s.pcAligned)
    (hm : s.unmodified s.pc.toNat (instrLength s.cpsr.t)) (ha : s.abortNow = false)
    (hlen : bytes.length = instrLength s.cpsr.t)
    (hbytes : ∀ k (h : k < bytes.length), s.mem.get? (s.pc.toNat + k) = some bytes[k]) :
    step s = decodeAndRun exec bytes s.boundaryPassed.answered := by
  rw [step_of_undisturbed h, fetchAndRun_of_aligned (s := s.boundaryPassed) hp,
    fetch_ok (s := s.boundaryPassed) hm ha hlen hbytes]

end Fetch

/-! ## What a step can do -/

/-- The next states that a step can make of s. -/
inductive StepKind (s : State) : State → Prop
  | reset {ls : List Lines} (h : s.linesNow.nRESET = false ∨ s.wedged = true) :
      StepKind s (takeReset { s with lines := ls, draws := s.draws + 1 })
  /-- An interrupt or a prefetch abort. -/
  | exception {e : Exn} {ret : Word} {as : List Bool} (he : e ≠ .reset) :
      StepKind s (raise e ret { s.boundaryPassed with aborts := as })
  /-- An instruction of the operating state's instruction set. -/
  | instruction {i : Instr} {k : Nat} {t : State} (hi : armCond i = none → s.cpsr.t = true)
      (h : Effect i (s.boundaryPassed.answered.drew k) t) : StepKind s t

theorem armCond_of_row (w : Word) : ∀ r ∈ armTable, armCond (r.build w) ≠ none := by
  simp [armTable, armCond]

/-- The decoder reads a THUMB instruction in THUMB state only (30_encoding.md R91). -/
theorem thumb_of_decode {be thumb : Bool} {bytes : List Byte} {i : Instr} (h : decode be thumb bytes = .ok i)
    (hi : armCond i = none) : thumb = true := by
  cases thumb with
  | true => rfl
  | false =>
    unfold decode at h
    split at h
    · obtain ⟨r, hr, -, rfl⟩ := decodeArm_eq_ok h
      exact absurd hi (armCond_of_row _ r hr)
    · next heq => cases heq
    · cases h

theorem step_kind {s t : State} (h : step s = .next t) : StepKind s t := by
  obtain ⟨hr, rfl⟩ | ⟨-, hw, hwait⟩ | ⟨-, -, -, -, rfl⟩ | ⟨-, -, -, -, -, rfl⟩ | ⟨-, -, -, -, hrun⟩ := step_cases h
  · exact .reset (.inl hr)
  · by_cases hlow : ∃ l ∈ s.lines, l.nRESET = false
    · obtain ⟨ls, hls⟩ := wedgedStep_of_low hlow
      cases hls.symm.trans hwait
      exact .reset (.inr hw)
    · have hhigh : ∀ l ∈ s.lines, l.nRESET = true := by simpa using hlow
      cases (wedgedStep_of_all_high hhigh).symm.trans hwait
  · exact .exception (as := s.aborts) (by decide)
  · exact .exception (as := s.aborts) (by decide)
  · obtain ⟨-, -, ⟨-, rfl⟩ | ⟨-, i, k, bytes, hdecode, -, hexec⟩⟩ := fetchAndRun_cases hrun
    · exact .exception (by decide)
    · exact .instruction (thumb_of_decode hdecode) (exec_effect i _ t hexec)

theorem draws_of_step {s t : State} (h : step s = .next t) : s.draws < t.draws := by
  cases step_kind h with
  | reset => exact Nat.lt_succ_self _
  | exception => exact Nat.lt_succ_self _
  | instruction _ h => exact (Nat.lt_succ_self _).trans_le ((Nat.le_add_right ..).trans (draws_of_effect h))

theorem cfg_of_step {s t : State} (h : step s = .next t) : t.cfg = s.cfg := by
  cases step_kind h with
  | reset => rfl
  | exception => rfl
  | instruction _ h =>
    have hcfg := cfg_of_effect h
    exact hcfg

/-! ## The obligations -/

/-- Settles O41: the two tests of the boundary in their order, and the entry's fields. -/
theorem interruptsAtBoundary : Obligations.InterruptsAtBoundary := by
  intro s hr hw
  refine ⟨step_of_fiq hr hw, step_of_irq hr hw, ?fiq, rfl, rfl, ?irq, rfl, rfl⟩
  case fiq =>
    have hf : (s.cpsr.f || Exn.fiq.masksFiq) = true := Bool.or_true _
    rw [raise_cpsr, hf]
    rfl
  case irq =>
    have hf : (s.cpsr.f || Exn.irq.masksFiq) = s.cpsr.f := Bool.or_false _
    rw [raise_cpsr, hf]
    rfl

/-- Settles O42: the fetch that aborts, and the entry. -/
theorem prefetchAbortTaken : Obligations.PrefetchAbortTaken := by
  intro s hs hp hm ha
  refine ⟨raise .prefetchAbort (s.pc + 4#32) s.boundaryPassed.answered, ?_, entered_raise .prefetchAbort _ _, rfl,
    fun q h15 h14 => raise_get_of_ne _ _ h15 h14⟩
  rw [step_of_undisturbed hs, fetchAndRun_of_aligned (s := s.boundaryPassed) hp, fetch_abort (s := s.boundaryPassed) hm ha]
  rfl

/-- Settles O47: both the reset test and the waiting lead to `takeReset`, whose fields are those of the statement. -/
theorem wedgedUntilReset : Obligations.WedgedUntilReset := by
  intro s hw
  refine ⟨fun h => ?waits, fun h => ?resets⟩
  case waits => rw [step_of_wedged (linesNow_of_all_high h) hw, wedgedStep_of_all_high h]
  case resets =>
    obtain ⟨ls, hstep⟩ : ∃ ls, step s = .next (takeReset { s with lines := ls, draws := s.draws + 1 }) := by
      cases hr : s.linesNow.nRESET with
      | false => exact ⟨s.lines.tail, step_of_reset hr⟩
      | true =>
        rw [step_of_wedged hr hw]
        exact wedgedStep_of_low h
    refine ⟨_, hstep, ?_⟩
    rw [takeReset_eq]
    exact ⟨rfl, rfl, rfl, rfl, rfl, rfl⟩

/-- Settles O48: the reset comes first, and `takeReset` takes every value but those it writes. -/
theorem resetSequence : Obligations.ResetSequence := by
  intro s hr
  refine ⟨_, step_of_reset hr, ?_⟩
  have hregs {q : PhysReg} (hq : q ≠ .r15) := takeReset_get s.boundaryPassed hq
  rw [takeReset_eq] at hregs ⊢
  refine ⟨rfl, rfl, rfl, rfl, rfl, rfl, fun q => hregs, rfl, fun n => ?_, fun a => rfl⟩
  cases n <;> rfl

/-- Settles O49: `takeReset` reads nothing but what the two machines share. -/
theorem resetForgets : Obligations.ResetForgets := by
  intro s t hr hlines hcfg haborts hmod hdraws
  have hr' : t.linesNow.nRESET = false := by rwa [State.linesNow, ← hlines]
  refine ⟨_, step_of_reset hr, ?_⟩
  rw [step_of_reset hr', takeReset_eq, takeReset_eq]
  simp [hlines, hcfg, haborts, hmod, hdraws]

/-- Settles O50: the fields of the state. -/
theorem resetState : Obligations.ResetState :=
  ⟨rfl, rfl, rfl, rfl, rfl, rfl, fun _ => rfl⟩

/-- Settles O51: an undisturbed step is the fetch, which finds the bytes, and what they decode to. -/
theorem stepRunsDecoded : Obligations.StepRunsDecoded := by
  intro s bytes i hs hp hm ha hlen hbytes hdecode
  rw [step_of_bytes hs hp hm ha hlen hbytes, decodeAndRun]
  simp only [State.answered_cfg, State.boundaryPassed_cfg, State.answered_cpsr, State.boundaryPassed_cpsr, hdecode]

/-- Settles O52: an undisturbed step refuses what does not decode; and no mask looks at bits [31:28]. -/
theorem outsideSubsetRefused : Obligations.OutsideSubsetRefused := by
  refine ⟨fun s bytes hs hp hm ha hlen hbytes hdecode => ?step, fun w => decodeArm_eq_error_iff, fun w v h => ?condition⟩
  case step =>
    rw [step_of_bytes hs hp hm ha hlen hbytes, decodeAndRun]
    simp only [State.answered_cfg, State.boundaryPassed_cfg, State.answered_cpsr, State.boundaryPassed_cpsr, hdecode]
  case condition =>
    rw [decodeArm_eq_error_iff, decodeArm_eq_error_iff]
    exact forall₂_congr fun r hr => by rw [and_mask_congr h hr]

/-- Settles O53: the fetch is refused first; what an instruction stores to it notes (`memory_of_effect`). -/
theorem modifiedFetchRefused : Obligations.ModifiedFetchRefused := by
  refine ⟨fun s hs hp hm => ?fetch, fun i s t ht a ha => noted_of_change (exec_effect i s t ht) ha,
    fun i s t ht a ha => modified_of_effect (exec_effect i s t ht) ha, fun i x s t addr wb hi hc hx ht a hlo hhi => ?single,
    fun c p u sbit w rn list s t hc ht k a hk hlo hhi => ?block, fun i c size rn rd rm s t hi hc hq ht a hlo hhi => ?swap⟩
  case fetch =>
    rw [step_of_undisturbed hs, fetchAndRun_of_aligned (s := s.boundaryPassed) hp, fetch_modified (s := s.boundaryPassed) hm]
  case single =>
    obtain ⟨hcond, -⟩ := storeForm_kind hi
    obtain ⟨-, -, haddr, -⟩ := hx
    exact noted_of_stores (exec_effect i s t ht) (fun c' h => Option.some.inj (hcond.symm.trans h) ▸ hc)
      (.single hi haddr ⟨hlo, hhi⟩)
  case block =>
    exact noted_of_stores (exec_effect _ s t ht) (fun c' h => Option.some.inj h ▸ hc) (.block rfl hk ⟨hlo, hhi⟩)
  case swap =>
    obtain ⟨hcond, -⟩ := swapForm_kind hi
    exact noted_of_stores (exec_effect i s t ht) (fun c' h => Option.some.inj (hcond.symm.trans h) ▸ hc)
      (.swap hi hq ⟨hlo, hhi⟩)

end Sys2Proof.Proofs.StepRules
end

section
/-!
What every step keeps (10_state.md R30, R37, R46; 20_memory.md R67; 60_exceptions.md R245; 70_reset_and_hazards.md R283): the
invariant, the confinement of User mode, and the run.
-/

namespace Sys2Proof.Proofs.StepInvariants
open Sys2Proof Sys2Proof.Machine Sys2Proof.Proofs.TransferRules Sys2Proof.Proofs.ExceptionEntry
  Sys2Proof.Proofs.StatusAccess Sys2Proof.Proofs.Effects Sys2Proof.Proofs.InstructionFrames Sys2Proof.Proofs.StepRules

/-! ## The invariant -/

/-- Every vector is a multiple of 4, the alignment of the ARM state that an exception enters. -/
theorem raise_pcAligned (e : Exn) (ret : Word) (s : State) : (raise e ret s).pcAligned := by
  have hvector : ∀ e : Exn, e.vector.toNat % 4 = 0 := by intro e; cases e <;> rfl
  exact hvector e

/-- An instruction of the operating state's instruction set keeps the pc aligned. -/
theorem pcAligned_of_effect {i : Instr} {s t : State} (h : Effect i s t) (hi : armCond i = none → s.cpsr.t = true)
    (hpc : s.pcAligned) : t.pcAligned := by
  cases h with
  | skipped hi' hc hadv => exact fits_advance_four (i := i) hadv hi hpc
  | computed _ _ _ hv =>
    have hfit := hv hi hpc
    simpa [State.pcAligned] using hfit
  | exchanged _ hv => exact hv
  | returned _ _ _ hv => exact hv
  | wedged => exact hpc
  | control _ _ ht hadv =>
    have hfit := fits_advance_four (i := i) hadv hi hpc
    rwa [← ht] at hfit
  | saved _ _ hadv => exact fits_advance_four (i := i) hadv hi hpc
  | trapped => exact raise_pcAligned ..
  | accessed h hv =>
    have hfit := hv hi hpc
    rwa [← h.reached.status.1] at hfit
  | aborted => exact raise_pcAligned ..

theorem inv_of_raise {s : State} (hm : Memory.wf s.mem) (hd : AddrSet.wf s.modified) (e : Exn) (ret : Word) :
    (raise e ret s).Inv := ⟨hm, hd, raise_pcAligned e ret s⟩

theorem takeReset_inv {s : State} (hd : AddrSet.wf s.modified) : (takeReset s).Inv := by
  rw [takeReset_eq]
  exact ⟨⟨.nil, fun c hc => absurd hc List.not_mem_nil⟩, hd, rfl⟩

/-- Settles O55: reset and exception entries jump to a vector and leave memory canonical; an instruction keeps each part of the
invariant by its kind of effect. -/
theorem stepKeepsInv : Obligations.StepKeepsInv := by
  rintro s t ⟨hm, hd, hpc⟩ ht
  cases step_kind ht with
  | reset => exact takeReset_inv hd
  | exception => exact inv_of_raise hm hd _ _
  | instruction hi heffect =>
    obtain ⟨hm', hd'⟩ := wf_of_effect heffect hm hd
    exact ⟨hm', hd', pcAligned_of_effect heffect hi hpc⟩

/-- Settles O56: nothing is stored yet, and the pc is 0. -/
theorem resetHasInv : Obligations.ResetHasInv :=
  ⟨⟨.nil, fun _ hc => absurd hc List.not_mem_nil⟩, ⟨.nil, fun _ ha => absurd ha List.not_mem_nil⟩, rfl⟩

/-! ## User mode -/

/-- t is s still in User mode with everything that User mode may not write, or an exception taken from s. -/
def Confined (s t : State) : Prop :=
  (t.cpsr.mode = .usr ∧ t.cpsr.i = s.cpsr.i ∧ t.cpsr.f = s.cpsr.f ∧ t.spsrs = s.spsrs ∧
    ∀ q : PhysReg, (∀ i, q ≠ bank .usr i) → t.regs.get q = s.regs.get q) ∨
  ∃ e ret, e ≠ .reset ∧ Entered e ret s t ∧
    ∀ q : PhysReg, (∀ i, q ≠ bank .usr i) → q ≠ bank e.mode 14#4 → t.regs.get q = s.regs.get q

section User
variable {s t : State}

/-- A register that User mode does not see is not the pc. -/
theorem ne_r15_of_hidden {q : PhysReg} (hq : ∀ i, q ≠ bank .usr i) : q ≠ .r15 := hq 15#4

theorem confined_raise {e : Exn} (he : e ≠ .reset) (ret : Word) (s : State) : Confined s (raise e ret s) :=
  .inr ⟨e, ret, he, entered_raise e ret s, fun _ hq hlink => raise_get_of_ne ret s (ne_r15_of_hidden hq) hlink⟩

/-- Staying in User mode with I, F and the SPSRs as they are: the pc is no hidden register. -/
theorem confined_setPc {u : State} (hu : s.cpsr.mode = .usr) (hmode : u.cpsr.mode = s.cpsr.mode) (hi : u.cpsr.i = s.cpsr.i)
    (hf : u.cpsr.f = s.cpsr.f) (hp : u.spsrs = s.spsrs)
    (hregs : ∀ q : PhysReg, (∀ i, q ≠ bank .usr i) → u.regs.get q = s.regs.get q) (v : Word) : Confined s (u.setPc v) :=
  .inl ⟨hmode.trans hu, hi, hf, hp, fun q hq => (setPc_get (ne_r15_of_hidden hq) u v).trans (hregs q hq)⟩

theorem not_wedges_of_user (hu : s.cpsr.mode = .usr) {i : Instr} : ¬ Wedges i s := by
  rintro (⟨c, mask, v, -, -, hmode, -⟩ | ⟨c, v, n, -, hn, -⟩)
  · exact hmode hu
  · rw [hu] at hn
    cases hn

theorem not_wedged_of_user {i : Instr} (h : Effect i s t) (hu : s.cpsr.mode = .usr) (hw : s.wedged = false) :
    t.wedged = false := by
  by_contra ht
  obtain ⟨hcause, -⟩ := wedged_of_effect h hw (Bool.not_eq_false _ ▸ ht)
  exact not_wedges_of_user hu hcause

/-- In User mode no instruction returns from an exception or writes a control byte or an SPSR. -/
theorem confined_of_effect {i : Instr} (h : Effect i s t) (hu : s.cpsr.mode = .usr) : Confined s t := by
  cases h with
  | skipped => exact confined_setPc hu rfl rfl rfl rfl (fun _ _ => rfl) _
  | @computed d k fl r wb v _ _ hd =>
    refine confined_setPc hu (by simp) (by simp) (by simp) (by simp) (fun q hq => ?_) _
    exact writeBack_get_of_ne ((s.drew k).setFlags fl) fun _ => by simpa [hu] using hq r
  | @exchanged b v =>
    exact confined_setPc (u := { s with cpsr := { s.cpsr with t := b } }) hu rfl rfl rfl rfl (fun _ _ => rfl) v
  | returned _ hn =>
    rw [hu] at hn
    cases hn
  | wedged h => exact absurd h (not_wedges_of_user hu)
  | control _ hmode => exact absurd hu hmode
  | saved _ hn =>
    rw [hu] at hn
    cases hn
  | trapped _ _ he => exact confined_raise he _ _
  | accessed h =>
    obtain ⟨hc, hp, -⟩ := h.reached.status
    exact confined_setPc hu (by rw [hc]) (by rw [hc]) (by rw [hc]) hp (fun q hq => h.reached.regs q (hu ▸ hq)) _
  | aborted h =>
    refine .inr ⟨.dataAbort, _, by decide, entered_of_accessed h, fun q hq hlink => ?_⟩
    rw [dataAbort_get (ne_r15_of_hidden hq) hlink, h.reached.regs q (hu ▸ hq)]

end User

/-- Settles O45: a step that is no reset is an exception entry or the effect of an instruction (`step_kind`), and in User mode
the effects that write privileged state are impossible. -/
theorem userModeIsConfined : Obligations.UserModeIsConfined := by
  intro s t hu hw hr ht
  cases step_kind ht with
  | reset h =>
    rcases h with h | h
    · cases hr.symm.trans h
    · cases hw.symm.trans h
  | exception he => exact ⟨hw, confined_raise he _ _⟩
  | instruction _ heffect =>
    have hrunning := not_wedged_of_user heffect hu hw
    have hconfined := confined_of_effect heffect hu
    exact ⟨hrunning, hconfined⟩

/-! ## The run -/

section Run
variable {s t : State}

theorem ended_iff : s.ended = true ↔ s.cfg.endPc = some s.pc := decide_eq_true_iff

theorem runToEnd_of_ended (h : s.cfg.endPc = some s.pc) (k : Nat) : runToEnd k s = .ended s := by
  cases k <;> exact if_pos (ended_iff.2 h)

theorem runToEnd_zero (h : s.cfg.endPc ≠ some s.pc) : runToEnd 0 s = .running s := if_neg (mt ended_iff.1 h)

theorem runToEnd_succ (h : s.cfg.endPc ≠ some s.pc) (k : Nat) :
    runToEnd (k + 1) s =
      match step s with
      | .next t => runToEnd k t
      | .fault r => .fault r
      | .refused r => .refused r := if_neg (mt ended_iff.1 h)

/-- A run that ends from a state that is not the end has made a step. -/
theorem runToEnd_succ_ended (h : s.cfg.endPc ≠ some s.pc) {k : Nat} (hk : runToEnd (k + 1) s = .ended t) :
    ∃ u, step s = .next u ∧ runToEnd k u = .ended t := by
  rw [runToEnd_succ h] at hk
  cases hstep : step s with
  | next u =>
    rw [hstep] at hk
    exact ⟨u, rfl, hk⟩
  | fault | refused =>
    rw [hstep] at hk
    cases hk

theorem runToEnd_ended {k : Nat} (hk : runToEnd k s = .ended t) : t.cfg.endPc = some t.pc ∧ t.cfg = s.cfg := by
  induction k generalizing s with
  | zero =>
    by_cases h : s.cfg.endPc = some s.pc
    · cases (runToEnd_of_ended h 0).symm.trans hk
      exact ⟨h, rfl⟩
    · cases (runToEnd_zero h).symm.trans hk
  | succ k ih =>
    by_cases h : s.cfg.endPc = some s.pc
    · cases (runToEnd_of_ended h _).symm.trans hk
      exact ⟨h, rfl⟩
    · obtain ⟨u, hstep, hu⟩ := runToEnd_succ_ended h hk
      obtain ⟨hend, hcfg⟩ := ih hu
      exact ⟨hend, hcfg.trans (cfg_of_step hstep)⟩

theorem runToEnd_add {k : Nat} (hk : runToEnd k s = .ended t) (j : Nat) : runToEnd (k + j) s = .ended t := by
  by_cases h : s.cfg.endPc = some s.pc
  · rw [runToEnd_of_ended h, ← hk, runToEnd_of_ended h]
  induction k generalizing s with
  | zero => cases (runToEnd_zero h).symm.trans hk
  | succ k ih =>
    obtain ⟨u, hstep, hu⟩ := runToEnd_succ_ended h hk
    rw [Nat.add_right_comm, runToEnd_succ h, hstep]
    by_cases hend : u.cfg.endPc = some u.pc
    · exact (runToEnd_of_ended hend _).trans ((runToEnd_of_ended hend _).symm.trans hu)
    · exact ih hu hend

end Run

/-- Settles O54: the equations of `runToEnd`, and inductions over the bound with `cfg_of_step`. -/
theorem runEnds : Obligations.RunEnds := by
  refine ⟨fun s k h => runToEnd_of_ended h k, fun s => runToEnd_zero, fun s k h => ?goesOn, fun s t k => runToEnd_ended,
    fun s t j k hk => runToEnd_add hk j, fun s t => cfg_of_step⟩
  case goesOn =>
    rw [runToEnd_succ h]
    exact ⟨fun t ht => by rw [ht], fun r hr => by rw [hr], fun r hr => by rw [hr]⟩

end Sys2Proof.Proofs.StepInvariants
end

section
/-!
Conditions (30_encoding.md R93; 41_data_processing.md R134, R135): the table, the instruction whose condition fails, and what
the conditions say after a comparison; and the branches that leave the address space.
-/

namespace Sys2Proof.Proofs.Conditions
open Sys2Proof Sys2Proof.Machine Sys2Proof.Proofs.Branches Sys2Proof.Proofs.FlagRule Sys2Proof.Proofs.DataProcessing
  Sys2Proof.Proofs.SpsrWrites Sys2Proof.Proofs.Thumb

/-! ## The flags of a subtraction -/

section Compared
variable (a b : Word)

/-- Z is equality. -/
theorem subFlags_z : (subFlags a b).z = decide (a = b) := by
  rw [Bool.eq_iff_iff, decide_eq_true_iff]
  exact beq_iff_eq.trans sub_eq_zero

/-- N and V together are the order of the exact values: the difference has the wrong sign exactly when it overflows. -/
theorem subFlags_n_eq_v : ((subFlags a b).n == (subFlags a b).v) = decide (b.toInt ≤ a.toInt) := by
  have hn : (subFlags a b).n = decide ((a.toInt - b.toInt).bmod (2 ^ 32) < 0) := by
    rw [← BitVec.toInt_sub]
    exact (BitVec.msb_eq_toInt : (a - b).msb = _)
  have hv : (subFlags a b).v = decide (a.toInt - b.toInt < -(2 ^ 31) ∨ 2 ^ 31 - 1 < a.toInt - b.toInt) := by
    rw [Bool.eq_iff_iff, decide_eq_true_iff]
    exact signedOverflow_iff _
  have ha := a.toInt_lt
  have ha' := a.le_toInt
  have hb := b.toInt_lt
  have hb' := b.le_toInt
  rw [hn, hv, Int.bmod_def, Bool.eq_iff_iff, beq_iff_eq, decide_eq_decide, decide_eq_true_iff]
  split_ifs <;> omega

/-- The ten conditions on the flags of a - b. -/
theorem condHolds_subFlags :
    let holds := fun c => condHolds c (subFlags a b)
    holds .eq = decide (a = b) ∧ holds .ne = decide (a ≠ b) ∧
    holds .cs = decide (b.toNat ≤ a.toNat) ∧ holds .cc = decide (a.toNat < b.toNat) ∧
    holds .hi = decide (b.toNat < a.toNat) ∧ holds .ls = decide (a.toNat ≤ b.toNat) ∧
    holds .ge = decide (b.toInt ≤ a.toInt) ∧ holds .lt = decide (a.toInt < b.toInt) ∧
    holds .gt = decide (b.toInt < a.toInt) ∧ holds .le = decide (a.toInt ≤ b.toInt) := by
  have hc : (subFlags a b).c = decide (b.toNat ≤ a.toNat) := rfl
  have hnat : a = b ↔ a.toNat = b.toNat := BitVec.toNat_inj.symm
  have hint : a = b ↔ a.toInt = b.toInt := BitVec.toInt_inj.symm
  simp only [condHolds, bne, subFlags_n_eq_v, subFlags_z, hc, ← decide_not, ← Bool.decide_and, ← Bool.decide_or,
    decide_eq_decide]
  refine ⟨trivial, trivial, trivial, not_le, ?hi, ?ls, trivial, not_le, ?gt, ?le⟩
  case hi => rw [hnat]; omega
  case ls => rw [hnat]; omega
  case gt => rw [hint]; omega
  case le => rw [hint]; omega

end Compared

/-- A comparison that completes leaves the flags of the difference. -/
theorem flags_of_comparison {i : Instr} {a b : Word} {s t : State} (hi : comparison i s = some (a, b))
    (hc : ∀ c, armCond i = some c → s.passes c) (ht : exec i s = .next t) : t.flags = subFlags a b := by
  cases i with
  | cmpReg c rn rm =>
    cases hi
    rw [exec_cmpReg_of_passes (hc c rfl)] at ht
    obtain ⟨-, rfl⟩ := advance_next (withSecond_next (withReg_next ht).2).2
    rfl
  | cmpImm c rn rot imm =>
    cases hi
    rw [exec_cmpImm_of_passes (hc c rfl)] at ht
    obtain ⟨-, rfl⟩ := advance_next (withReg_next ht).2
    rfl
  | tCmp rd rs =>
    cases hi
    have hrun : withThumbSource true rd rs s (fun v => advance 2 (s.setFlags (subFlags (s.reg rd) v).held)) = .next t :=
      ht
    obtain ⟨-, -, -, hadv⟩ := withThumbSource_next hrun
    obtain ⟨-, rfl⟩ := advance_next hadv
    rfl
  | _ => cases hi

/-! ## The obligations -/

/-- Settles O12: the flags are those of the difference, and V tells when its sign is not the order of the values. -/
theorem conditionsAfterCompare : Obligations.ConditionsAfterCompare := by
  intro i a b s t hi hc ht
  rw [flags_of_comparison hi hc ht]
  exact condHolds_subFlags a b

theorem conditional_nv (s : State) (body : Result) : conditional .nv s body = .refused .cond1111 := rfl

/-- Settles O33: the table; and every ARM instruction is `conditional`, whose tests come in the order of the rule. -/
theorem conditionCodes : Obligations.ConditionCodes := by
  refine ⟨fun fl => ?table, fun i c s hi => ?tests⟩
  case table =>
    simp only [condHolds, bne, Bool.beq_eq_decide_eq, decide_not, and_self]
  case tests =>
    obtain ⟨body, hexec⟩ := exec_eq_conditional hi s
    rw [hexec]
    refine ⟨fun hnv => hnv ▸ conditional_nv s body, fun hnv hf hadv => ?_, fun hnv hf hadv => ?_⟩
    · rw [conditional_fails hnv hf, advance_eq hadv]
    · rw [conditional_fails hnv hf, advance_refused hadv]

/-- Settles O6: both branches are `branchBy`, BL from a state with the same pc. -/
theorem linkAndThumbBranchesRefuseWrap : Obligations.LinkAndThumbBranchesRefuseWrap := by
  refine ⟨fun c offset s hc => ?link, fun c offset s hc => ?thumb⟩
  case link =>
    intro total hout
    have hpc : (s.setReg 14#4 (s.pc + 4#32)).pc = s.pc := s.setReg_pc (by decide) _
    rw [exec_bl_of_passes hc]
    exact branchBy_refused (by rw [hpc, add_armDisp]; exact hout)
  case thumb =>
    intro total hout
    rw [exec_tB_taken hc]
    exact branchBy_refused (by rw [add_thumbDisp]; exact hout)

end Sys2Proof.Proofs.Conditions
end

section
/-!
Returns from exceptions (41_data_processing.md R136; 60_exceptions.md R229, R230, R237): every return form, the return statement
after its entry, and an FIQ between a data abort and its handler.
-/

namespace Sys2Proof.Proofs.ExceptionReturns
open Sys2Proof Sys2Proof.Machine Sys2Proof.Proofs.DataProcessing Sys2Proof.Proofs.ExceptionEntry
  Sys2Proof.Proofs.StatusAccess Sys2Proof.Proofs.StepRules

/-- Settles O13: past the condition a return form is `exceptionReturn`, whose cases are the clauses. -/
theorem exceptionReturn : Obligations.ExceptionReturn := by
  intro i s c target hi hc
  rw [exec_returnForm_of_passes hi hc]
  refine ⟨exceptionReturn_noSpsr, fun n hn => ?spsr⟩
  case spsr =>
    intro p
    refine ⟨exceptionReturn_wedges hn, fun m hm => ?_⟩
    refine ⟨fun ht h4 => ?arm, fun ht h2 => ?thumb, fun h4 h2 => ?returns⟩
    case arm => exact exceptionReturn_misaligned hn hm fun hfit => h4 (by simpa [p, ht, instrLength] using pcFits_iff.1 hfit)
    case thumb => exact exceptionReturn_misaligned hn hm fun hfit => h2 (by simpa [p, ht, instrLength] using pcFits_iff.1 hfit)
    case returns =>
      have hfit : target.toNat % instrLength p.t = 0 := by
        cases ht : p.t with
        | false => exact h4 ht
        | true => exact h2 ht
      exact exceptionReturn_returns hn hm (pcFits_iff.2 hfit)

/-! ## The return statements -/

theorem passes_al (s : State) : s.passes .al := ⟨by decide, rfl⟩

/-- In the mode entered, R14 is the link value. -/
theorem raise_reg_link (e : Exn) (ret : Word) (s : State) : (raise e ret s).reg 14#4 = ret :=
  (State.reg_of_value (raise_link ret s)).1

/-- The return statement is a return form whose address is the link value less the offset. -/
theorem returnForm_returnStatement (e : Exn) (ret : Word) (s : State) :
    returnForm (returnStatement e) (raise e ret s) = some (.al, ret - returnOffset e) := by
  have hreg := raise_reg_link e ret s
  have hfour : rotated 0#4 4#8 = 4#32 := by decide
  have height : rotated 0#4 8#8 = 8#32 := by decide
  cases e <;> simp [returnForm, returnStatement, returnOffset, hreg, hfour, height]

/-- The return statement takes back what the entry has saved. -/
theorem exec_returnStatement (e : Exn) (ret : Word) (s : State) (hfit : pcFits s.cpsr.t (ret - returnOffset e) = true) :
    exec (returnStatement e) (raise e ret s) =
      .next ({ s with
        regs := ((s.setRegIn e.mode 14#4 ret).setPc (ret - returnOffset e)).regs
        cpsr := { s.cpsr with flags := (s.cpsr.flags.read s.freeStatus).held }
        spsrs := s.spsrs.set e.spsr s.cpsr.toPsr }) := by
  have hsaved : ((raise e ret s).spsrs.get e.spsr).read (raise e ret s).freeStatus = s.cpsr.toPsr.read s.freeStatus := by
    rw [raise_saved]
    rfl
  have hm : s.cpsr.mode.bits = (((raise e ret s).spsrs.get e.spsr).read (raise e ret s).freeStatus).m := by
    rw [hsaved]
    rfl
  rw [exec_returnForm_of_passes (returnForm_returnStatement e ret s) (passes_al _),
    exceptionReturn_returns (n := e.spsr) (Exn.spsr_mode e) hm (by rw [hsaved]; exact hfit), hsaved, Cpsr.toCpsr_toPsr]
  rfl

/-- Settles O40: the return statement after its entry, the words, and MOV PC, R14 as a jump. Nothing here needs that the
exception is not reset, which stands with the SWI in `returnStatement`. -/
theorem returnRestores : Obligations.ReturnRestores := by
  refine ⟨fun e ret s _ => exec_returnStatement e ret s, fun fl s hfl => ?flags, rfl, rfl, rfl, rfl, rfl, rfl, rfl,
    fun s hal => ?jump⟩
  case flags => rw [hfl, Flags.held_read]
  case jump =>
    rw [exec_movReg_of_passes (passes_al s), withReg_eq (by decide), moveResult_eq, writeResult_jump, jumpArm_aligned hal]

/-! ## An FIQ before the abort handler -/

/-- Settles O43: the entry has set I and left F, so the FIQ is taken from it and an IRQ is not; and the FIQ's return statement
goes back to the handler. -/
theorem fiqDuringDataAbort : Obligations.FiqDuringDataAbort := by
  intro ret s hf hw hr t
  have htf : t.cpsr.f = false := (raise_f_kept ret s (by decide) (by decide)).trans hf
  refine ⟨rfl, rfl, htf, rfl, fun hfiq => ?fiq, fun hfiq hirq => ?irq⟩
  case fiq =>
    have hreturn := exec_returnStatement .fiq 0x14#32 t.boundaryPassed rfl
    exact ⟨_, _, step_of_fiq (s := t) hr hw hfiq htf, rfl, rfl, rfl, rfl, hreturn, rfl, rfl, rfl, rfl⟩
  case irq =>
    rw [step_of_no_fiq (s := t) hr hw (.inl hfiq), if_neg]
    rintro ⟨-, hi⟩
    cases hi

end Sys2Proof.Proofs.ExceptionReturns
end

section
/-!
What loads, stores and swaps refuse (10_state.md R31; 20_memory.md R66; 43_load_store.md R174, R175): the tests of a block
transfer in their order, and every transfer that is not legal.
-/

namespace Sys2Proof.Proofs.TransferRefusals
open Sys2Proof Sys2Proof.Machine Sys2Proof.Proofs.DataProcessing Sys2Proof.Proofs.TransferRules
  Sys2Proof.Proofs.SingleTransfers Sys2Proof.Proofs.Swaps Sys2Proof.Proofs.BlockTransfers Sys2Proof.Proofs.StoreMultiple
  Sys2Proof.Proofs.Thumb

/-! ## The tests of a block transfer -/

/-- An LDM or STM whose condition passes is an address computation and its loop. -/
theorem exec_block_of_passes {i : Instr} {c : Cond} {p u sbit w : Bool} {rn : RegNum} {list : BitVec 16} {s : State}
    (hi : i = .ldm c p u sbit w rn list ∨ i = .stm c p u sbit w rn list) (hc : s.passes c) :
    ∃ body, exec i s = withBlock p u sbit w rn list s body := by
  obtain rfl | rfl := hi <;> exact ⟨_, conditional_passes hc _⟩

section Tests
variable {p u w : Bool} {rn : RegNum} {list : BitVec 16} {s : State} (body : Word → Word → Word → Result)

theorem withBlock_sBit : withBlock p u true w rn list s body = .refused .blockSBit := rfl

theorem withBlock_r15 (hn : rn = 15#4) : withBlock p u false w rn list s body = .refused .r15Operand := if_pos hn

theorem withBlock_emptyList (hn : rn ≠ 15#4) (hl : list = 0#16) :
    withBlock p u false w rn list s body = .refused .emptyList := (if_neg hn).trans (if_pos hl)

theorem withBlock_misaligned (hn : rn ≠ 15#4) (hl : list ≠ 0#16) (hal : (s.reg rn).toNat % 4 ≠ 0) :
    withBlock p u false w rn list s body = .refused .misalignedAccess :=
  (if_neg hn).trans ((if_neg hl).trans (if_pos (not_aligned hal)))

theorem withBlock_writebackInList (hn : rn ≠ 15#4) (hl : list ≠ 0#16) (hal : (s.reg rn).toNat % 4 = 0)
    (hwb : w = true ∧ list.getLsbD rn.toNat = true) :
    withBlock p u false w rn list s body = .refused .writebackInList := by
  have hal' : ¬ aligned .word (s.reg rn) = false := by rw [aligned_iff.2 hal]; decide
  exact (if_neg hn).trans ((if_neg hl).trans ((if_neg hal').trans (if_pos hwb)))

end Tests

/-! ## What is not legal is refused -/

theorem block_refused {i : Instr} {c : Cond} {p u sbit w : Bool} {rn : RegNum} {list : BitVec 16} {s : State}
    (hi : i = .ldm c p u sbit w rn list ∨ i = .stm c p u sbit w rn list) (hc : s.passes c)
    (hx : ¬ s.blockLegal w rn list) : ∃ r, exec i s = .refused r := by
  obtain ⟨body, hexec⟩ := exec_block_of_passes hi hc
  rw [hexec]
  cases sbit with
  | true => exact ⟨_, withBlock_sBit body⟩
  | false =>
    by_cases hn : rn = 15#4
    · exact ⟨_, withBlock_r15 body hn⟩
    by_cases hl : list = 0#16
    · exact ⟨_, withBlock_emptyList body hn hl⟩
    by_cases hal : (s.reg rn).toNat % 4 = 0
    · exact ⟨_, withBlock_writebackInList body hn hl hal (by_contra fun hwb => hx ⟨hn, hl, hal, hwb⟩)⟩
    · exact ⟨_, withBlock_misaligned body hn hl hal⟩

theorem transfer_refused {i : Instr} {x : Transfer} {s : State} (hi : loadForm i = some x ∨ storeForm i = some x)
    (hc : s.passes x.cond) (hx : ∀ addr wb, ¬ x.legal s addr wb) : ∃ r, exec i s = .refused r := by
  obtain ⟨body, hexec⟩ := exec_transfer_of_passes hi hc
  rw [hexec]
  by_cases hn : x.rn = 15#4
  · exact ⟨_, withTransfer_base_r15 body hn⟩
  by_cases hd : x.rd = 15#4
  · exact ⟨_, withTransfer_data_r15 body hn hd⟩
  cases ha : Machine.transferAddress x.p x.u x.w (s.reg x.rn) x.offset with
  | none => exact ⟨.postIndexedW, by rw [withTransfer, if_neg hn, if_neg hd, ha]⟩
  | some access =>
    by_cases hwb : access.2.isSome = true ∧ x.rn = x.rd
    · exact ⟨_, withTransfer_writebackToData body hn hd ha hwb⟩
    · exact ⟨_, withTransfer_misaligned body hn hd ha hwb fun hal => hx _ _ ⟨hn, hd, ha, hwb, hal⟩⟩

theorem swap_refused {i : Instr} {c : Cond} {size : Size} {rn rd rm : RegNum} {s : State}
    (hi : swapForm i = some (c, size, rn, rd, rm)) (hc : s.passes c) (hx : ¬ s.swapLegal size rn rd rm) :
    ∃ r, exec i s = .refused r := by
  rw [exec_swap_of_passes hi hc]
  by_cases h15 : rd = 15#4 ∨ rm = 15#4 ∨ rn = 15#4
  · exact ⟨_, swap_r15 h15⟩
  obtain ⟨hd, hm, hn⟩ : rd ≠ 15#4 ∧ rm ≠ 15#4 ∧ rn ≠ 15#4 := by simpa only [not_or] using h15
  by_cases hb : rn = rm ∨ rn = rd
  · exact ⟨_, swap_baseIsData hd hm hn hb⟩
  obtain ⟨hnm, hnd⟩ := not_or.1 hb
  exact ⟨_, swap_misaligned hd hm hn hnm hnd fun hal => hx ⟨hn, hd, hm, hnm, hnd, hal⟩⟩

theorem transfer_r15_refused {i : Instr} {x : Transfer} {s : State} (hi : loadForm i = some x ∨ storeForm i = some x)
    (hc : s.passes x.cond) (h15 : x.rn = 15#4 ∨ x.rd = 15#4) : ∃ r, exec i s = .refused r :=
  transfer_refused hi hc fun _ _ ⟨hn, hd, _⟩ => h15.elim hn hd

/-- An STM whose list holds R15. -/
theorem stm_r15_refused {c : Cond} {p u sbit w : Bool} {rn : RegNum} {list : BitVec 16} {s : State} (hc : s.passes c)
    (h15 : list.getLsbD 15 = true) : ∃ r, exec (.stm c p u sbit w rn list) s = .refused r := by
  by_cases hx : s.blockLegal w rn list
  · cases sbit with
    | true => exact ⟨_, conditional_passes hc _⟩
    | false => exact ⟨_, exec_stm_r15 hc hx h15⟩
  · exact block_refused (.inr rfl) hc hx

/-! ## The register list -/

theorem regsOf_ascending (list : BitVec 16) : (regsOf list).Pairwise fun i j => i.toNat < j.toNat :=
  List.Pairwise.filter _ (by decide : allRegs.Pairwise fun i j => i.toNat < j.toNat)

/-- A list that is not empty has a bit, and the register of that bit is in it. -/
theorem length_regsOf_pos {list : BitVec 16} (h : list ≠ 0#16) : 1 ≤ (regsOf list).length := by
  obtain ⟨k, hk, hbit⟩ : ∃ k < 16, list.getLsbD k = true := by
    by_contra hnone
    refine h (BitVec.eq_of_getLsbD_eq fun k hk => ?_)
    rw [BitVec.getLsbD_zero]
    exact Bool.eq_false_iff.2 fun hbit => hnone ⟨k, hk, hbit⟩
  refine List.length_pos_of_mem (mem_regsOf.2 (?_ : list.getLsbD (BitVec.ofNat 4 k).toNat = true))
  rwa [BitVec.toNat_ofNat, Nat.mod_eq_of_lt hk]

/-! ## The obligations -/

/-- Settles O23: the list is a filter of the ascending registers, the addresses are `blockRange`, and the refusals are the tests
of `withBlock` in their order. -/
theorem blockAddresses : Obligations.BlockAddresses := by
  refine ⟨fun base list k => ⟨fun i => mem_regsOf, regsOf_ascending list,
    fun hl => ⟨length_regsOf_pos hl, length_regsOf_le list⟩, rfl, rfl, rfl, rfl, rfl, rfl, rfl, rfl⟩,
    fun i c p u sbit w rn list s hi hc => ?tests⟩
  obtain ⟨body, hexec⟩ := exec_block_of_passes hi hc
  rw [hexec]
  refine ⟨?sBit, ?r15, ?emptyList, ?misaligned, ?writebackInList⟩
  case sBit => rintro rfl; exact withBlock_sBit body
  case r15 => rintro rfl hn; exact withBlock_r15 body hn
  case emptyList => rintro rfl hn hl; exact withBlock_emptyList body hn hl
  case misaligned => rintro rfl hn hl hal; exact withBlock_misaligned body hn hl hal
  case writebackInList => rintro rfl hn hl hal hw hin; exact withBlock_writebackInList body hn hl hal ⟨hw, hin⟩

/-- Settles O34: operands are read through `withReg`, `withSecond` and `withThumbSource`, and no transfer that names R15 as base
or data is legal. -/
theorem r15OperandRefused : Obligations.R15OperandRefused := by
  intro i s h hc
  cases i with
  | bx c | movReg c | msrReg c | addImm c | subImm c | cmpImm c =>
    exact ⟨_, (conditional_passes (hc c rfl) _).trans (withReg_r15 (of_decide_eq_true h) s _)⟩
  | addReg c | subReg c | cmpReg c =>
    exact ⟨_, (conditional_passes (hc c rfl) _).trans (withReg_withSecond_r15 (of_decide_eq_true h) s _)⟩
  | ldr c | ldrb c | ldrh c =>
    exact transfer_r15_refused (.inl rfl) (hc c rfl) (.inl (of_decide_eq_true h))
  | str c | strb c | strh c =>
    exact transfer_r15_refused (.inr rfl) (hc c rfl) (of_decide_eq_true h)
  | ldm c =>
    exact block_refused (.inl rfl) (hc c rfl) fun ⟨hn, _⟩ => hn (of_decide_eq_true h)
  | stm c p u sbit w rn list =>
    obtain hn | h15 := of_decide_eq_true h
    · exact block_refused (.inr rfl) (hc c rfl) fun ⟨hn', _⟩ => hn' hn
    · exact stm_r15_refused (hc c rfl) h15
  | swp c | swpb c =>
    exact swap_refused rfl (hc c rfl) fun ⟨hn, _, hm, _⟩ => (of_decide_eq_true h).elim hn hm
  | tAdd => exact ⟨_, exec_tAdd.trans (withThumbSource_r15 ((of_decide_eq_true h).symm.imp_right fun hd => ⟨rfl, hd⟩) _)⟩
  | tCmp => exact ⟨_, exec_tCmp.trans (withThumbSource_r15 ((of_decide_eq_true h).symm.imp_right fun hd => ⟨rfl, hd⟩) _)⟩
  | tMov => exact ⟨_, exec_tMov.trans (withThumbSource_r15 (.inl (of_decide_eq_true h)) _)⟩
  | tBx rs => exact ⟨_, (exec_tBx rs s).trans (withReg_r15 (of_decide_eq_true h) s _)⟩
  | b | bl | movImm | mrs | msrImm | swi | und | tB | tSwi => exact Bool.noConfusion h

/-- Settles O35: no transfer with a misaligned address is legal. -/
theorem misalignedAccessRefused : Obligations.MisalignedAccessRefused := by
  refine ⟨fun i x s addr wb hi hc ha hmis => ?single, fun i c p u sbit w rn list s hi hc hmis => ?block,
    fun c rn rd rm s hc hmis => ?swap⟩
  case single =>
    refine transfer_refused hi hc fun addr' wb' ⟨_, _, ha', _, hal⟩ => hmis ?_
    cases ha.symm.trans ha'
    exact hal
  case block => exact block_refused hi hc fun ⟨_, _, hal, _⟩ => hmis hal
  case swap => exact swap_refused rfl hc fun ⟨_, _, _, _, _, hal⟩ => hmis hal

end Sys2Proof.Proofs.TransferRefusals
end

section
/-!
What an aborted transfer leaves without a value, and what a read of bytes without a value finds (43_load_store.md R160 to R173;
logs 4, 5 and 14).
-/

namespace Sys2Proof.Proofs.Valueless
open Sys2Proof Sys2Proof.Machine Sys2Proof.Proofs.DataProcessing Sys2Proof.Proofs.MemoryAccess Sys2Proof.Proofs.TransferRules
  Sys2Proof.Proofs.SingleTransfers Sys2Proof.Proofs.Swaps Sys2Proof.Proofs.BlockTransfers
  Sys2Proof.Proofs.LoadMultiple Sys2Proof.Proofs.StoreMultiple Sys2Proof.Proofs.StepRules

/-! ## The aborted single transfer -/

theorem storeForm_ne_of_load {i : Instr} {x : Transfer} (hi : loadForm i = some x) : storeForm i ≠ some x := by
  cases i with
  | ldr | ldrb | ldrh => nofun
  | _ => cases hi

theorem loadForm_ne_of_store {i : Instr} {x : Transfer} (hi : storeForm i = some x) : loadForm i ≠ some x :=
  fun hl => storeForm_ne_of_load hl hi

/-- The write-back, seen after the data abort that follows it. -/
theorem dataAbort_get_base {s t : State} {rn : RegNum} {v : Word} (hn : rn ≠ 15#4) (h14 : bank s.cpsr.mode rn ≠ .r14abt)
    (ht : t.regs.get (bank s.cpsr.mode rn) = (s.writeBack rn (some v)).regs.get (bank s.cpsr.mode rn)) :
    (dataAbort t).regs.get (bank s.cpsr.mode rn) = .value v := by
  rw [dataAbort_get (bank_ne_r15 _ hn) h14, ht, writeBack_get_base]

section Aborted
variable {x : Transfer} {s : State} {wb : Option Word}

/-- A loaded register that holds no value, seen beside the other registers. -/
theorem putReg_answered_get (hd : x.rd ≠ 15#4) (q : PhysReg) :
    ((s.answered.writeBack x.rn wb).putReg x.rd .unspecified).regs.get q =
      if q = bank s.cpsr.mode x.rd then .unspecified else (s.writeBack x.rn wb).regs.get q := by
  rw [State.putReg_regs, RegFile.get_put _ (bank_ne_r15 _ hd), State.writeBack_cpsr, State.answered_cpsr,
    writeBack_regs_congr (s := s) (t := s.answered) rfl rfl]

theorem forgetBytes_regs (n a : Nat) (t : State) : (forgetBytes n a t).regs = t.regs := by
  obtain ⟨m, d, hf⟩ := forgetBytes_state n a t
  rw [hf]

theorem forgetBytes_answered_get (n a : Nat) (q : PhysReg) :
    (forgetBytes n a (s.answered.writeBack x.rn wb)).regs.get q = (s.writeBack x.rn wb).regs.get q := by
  rw [forgetBytes_regs, writeBack_regs_congr (s := s) (t := s.answered) rfl rfl]

end Aborted

/-- Settles O20: the data abort is taken from the state with the write-back, in which a load has put no value into Rd and a store
has taken the values of its bytes. -/
theorem abortedTransfer : Obligations.AbortedTransfer := by
  intro i x s addr wb hi hc hx habort
  obtain ⟨hn, hd, -, hwb, -⟩ := id hx
  obtain hl | hs := hi
  · have hbase (h : wb.isSome = true) : bank s.cpsr.mode x.rn ≠ bank s.cpsr.mode x.rd :=
      fun hb => hwb ⟨h, bank_injective _ _ _ hb⟩
    refine ⟨_, (exec_load_of_passes hl hc).trans (load_of_abort hx habort), entered_of_load_abort hx, fun v hv h14 => ?_,
      fun _ h14 => ?_, fun q h15 h14 hqn hqd => ?_, fun _ => ?_, fun h => absurd h (storeForm_ne_of_load hl)⟩
    · subst hv
      exact dataAbort_get_base hn h14 (by rw [putReg_answered_get hd, if_neg (hbase rfl)])
    · rw [dataAbort_get (bank_ne_r15 _ hd) h14, putReg_answered_get hd, if_pos rfl]
    · rw [dataAbort_get h15 h14, putReg_answered_get hd, if_neg (hqd hl), writeBack_get_of_ne _ hqn]
    · exact State.writeBack_mem ..
  · refine ⟨_, (exec_store_of_passes hs hc).trans (store_of_abort hx habort), entered_of_store_abort hx, fun v hv h14 => ?_,
      fun h => absurd h (loadForm_ne_of_store hs), fun q h15 h14 hqn _ => ?_, fun h => absurd h (loadForm_ne_of_store hs),
      fun _ => ⟨fun a ha => ?_, fun a hlo hhi => ?_⟩⟩
    · subst hv
      exact dataAbort_get_base hn h14 (forgetBytes_answered_get ..)
    · rw [dataAbort_get h15 h14, forgetBytes_answered_get, writeBack_get_of_ne _ hqn]
    · have hout : ¬ (addr.toNat ≤ a ∧ a < addr.toNat + x.size.bytes) := by omega
      exact ((forgetBytes_get? ..).trans (if_neg hout)).trans (by rw [State.writeBack_mem, State.answered_mem])
    · exact (forgetBytes_get? ..).trans (if_pos ⟨hlo, hhi⟩)

/-! ## The aborted stores of an STM -/

/-- The bytes of word number k, whose store aborts, are without a value at the end: the later words are elsewhere. -/
theorem storeBlock_get?_of_abort {is : List RegNum} (start : Word) {b : Bool × State} {k a : Nat} (hlen : is.length ≤ 16)
    (hk : k < is.length) (habort : b.2.aborts.getD k false = true) (hlo : (wordAddr start k).toNat ≤ a)
    (hhi : a < (wordAddr start k).toNat + 4) : (storeBlock is start b).2.mem.get? a = none := by
  have hlenk : (is.take k).length = k := List.length_take_of_le hk.le
  have hnow : (storeBlock (is.take k) start b).2.abortNow = true := by rw [storeBlock_abortNow, hlenk, habort]
  rw [getElem?_append_split (List.getElem?_eq_getElem hk), storeBlock_append, hlenk, storeBlock, wordAddr_add_four,
    storeBlock_get?_outside, storeOne_of_abort hnow, forgetBytes_get?, if_pos ⟨hlo, hhi⟩]
  intro j hj
  have hdisj := wordAddr_disjoint start (j := k) (k := k + 1 + j) (by omega)
    (by rw [List.length_drop] at hj; omega) (by omega)
  have hnext : wordAddr (wordAddr start (k + 1)) j = wordAddr start (k + 1 + j) := by
    rw [wordAddr, wordAddr, wordAddr, BitVec.add_assoc, BitVec.ofNat_add_ofNat, ← Nat.mul_add]
  rw [hnext]
  omega

/-- Settles O27: the loop goes over every register, and the write-back and the data abort leave memory as it made it. -/
theorem stmAbort : Obligations.StmAbort := by
  intro c p u w rn list s hc hx h15 n at_ hq
  obtain ⟨hregs, hst, -⟩ := stmLoop_frame (p := p) (u := u) (rn := rn) (list := list) (s := s)
  have hget {q : PhysReg} (wb : Option Word) :
      ((stmLoop p u rn list s).2.writeBack rn wb).regs.get q = (s.writeBack rn wb).regs.get q := by
    rw [writeBack_regs_congr hregs hst.1]
  have hmem : (dataAbort ((stmLoop p u rn list s).2.writeBack rn (writtenBack p u w rn list s))).mem =
      (stmLoop p u rn list s).2.mem := State.writeBack_mem ..
  refine ⟨_, exec_stm_of_abort hc hx h15 hq, entered_of_stm_abort hx _, fun k i hi hok => ?stored,
    fun k a hk habort hlo hhi => ?aborted, fun a ha => ?outside, fun hw h14 => ?base, fun q h15 h14 hqn => ?kept⟩
  case stored => exact hmem ▸ storeBlock_wordAt? _ _ (length_regsOf_le list) hi hok
  case aborted => exact hmem ▸ storeBlock_get?_of_abort _ (length_regsOf_le list) hk habort hlo hhi
  case outside => exact hmem ▸ storeBlock_get?_outside _ _ _ ha
  case base =>
    subst hw
    exact dataAbort_get_base hx.1 h14 (hget _)
  case kept =>
    rw [dataAbort_get h15 h14, hget, writeBack_get_of_ne]
    rwa [writtenBack_isSome]

/-! ## Reads of what holds no value -/

/-- A load that is answered ok, whatever its bytes hold. -/
theorem exec_load_found {i : Instr} {x : Transfer} {s : State} {addr : Word} {wb : Option Word} (hi : loadForm i = some x)
    (hc : s.passes x.cond) (hx : x.legal s addr wb) (hs : s.abortNow = false) (hadv : s.canAdvance 4) :
    exec i s =
      .next ((({ s.answered with draws := s.draws + valueless s.mem addr.toNat x.size.bytes }.setReg x.rd
        (found s.cfg.bigEndian x.size s.mem addr.toNat s.draws)).writeBack x.rn wb).setPc (s.pc + 4#32)) := by
  rw [exec_load_of_passes hi hc, load_of_legal hx (memRead_found hs ..)]
  exact advance_eq_of_pc_eq (loaded_pc hx ..) hadv

theorem found_byte_of_none {m : Memory} {a : Nat} (h : m.get? a = none) (be : Bool) (d : Nat) :
    found be .byte m a d = (Config.freeByte d).setWidth 32 := by
  simp [found, foundByte, valueless, h]

theorem valueless_byte_of_none {m : Memory} {a : Nat} (h : m.get? a = none) : valueless m a 1 = 1 := by
  simp [valueless, h]

/-- A register without a value reads as the free one of its number and of its place among the registers read. -/
theorem reg_of_unspecified {s : State} {i : RegNum} (h : s.regIn s.cpsr.mode i = .unspecified) :
    s.reg i = Config.freeRegister s.draws i false ∧ s.second i = Config.freeRegister s.draws i true := by
  rw [State.reg, State.second, h]
  exact ⟨rfl, rfl⟩

/-- A field without a value reads as the field of the free word. -/
theorem read_of_unspecified {α : Type} {h : Held α} (hh : h = .unspecified) (d : α) : h.read d = d := by
  rw [hh]
  rfl

theorem flags_read_of_unspecified (w : Word) :
    (⟨.unspecified, .unspecified, .unspecified, .unspecified⟩ : HeldFlags).read w = flagsIn w := rfl

/-- What an LDM that is answered ok leaves, whatever its words hold. -/
theorem ldm_found {c : Cond} {p u w : Bool} {rn : RegNum} {list : BitVec 16} {s : State} (hc : s.passes c)
    (hx : s.blockLegal w rn list) (hq : s.quiet (regsOf list).length)
    (hjump : list.getLsbD 15 = true → (ldmWord p u rn list s ((regsOf list).length - 1)).toNat % 4 = 0)
    (hadv : list.getLsbD 15 = false → s.canAdvance 4) :
    exec (.ldm c p u false w rn list) s =
      .next (((ldmLoop p u rn list s).state.writeBack rn (writtenBack p u w rn list s)).setPc
        (if list.getLsbD 15 then ldmWord p u rn list s ((regsOf list).length - 1) else s.pc + 4#32)) := by
  cases h15 : list.getLsbD 15 with
  | true => rw [exec_ldm_jump hc hx hq h15, jumpArm_aligned (hjump h15), if_pos rfl]
  | false =>
    rw [exec_ldm_advance hc hx hq h15, if_neg Bool.false_ne_true]
    exact advance_eq_of_pc_eq (ldmLoop_writeBack_pc hx _) (hadv h15)

/-- Settles O18: `memRead` answers with `found` whatever memory holds, so the rules of the transfers hold with it in place of the
value. -/
theorem loadOfValuelessByteIsFree : Obligations.LoadOfValuelessByteIsFree := by
  refine ⟨fun i x s addr wb => exec_load_found, fun c p u w rn rd off s addr wb hc hx hs hadv hnone => ?byte,
    fun c p u w rn list s hc hx => ?block, fun i c size rn rd rm s hi hc hx hq hadv => ?swap,
    fun s i => ⟨fun v => State.reg_of_value, reg_of_unspecified⟩, fun s fl hfl => ?flags,
    fun s => ⟨?_, ?_, ?_, ?_⟩, fun p w => Psr.held_read p w, fun h w => ⟨?psrFlags, ?_, ?_, ?_, ?_⟩, fun s t => draws_of_step⟩
  case byte =>
    have hload := exec_load_found (i := .ldrb c p u w rn rd off) rfl hc hx hs hadv
    rwa [found_byte_of_none hnone, Size.bytes, valueless_byte_of_none hnone] at hload
  case block =>
    intro n at_ word hq
    refine ⟨fun h15 hmis => ?misaligned, fun hjump hadv => ?completed⟩
    case misaligned => exact (exec_ldm_jump hc hx hq h15).trans (jumpArm_misaligned hmis _)
    case completed =>
      obtain ⟨hheld, hbase, hkept, hmem, hmod, hst, hdr, hab⟩ := ldm_completed (p := p) (u := u) hx hq
        (if list.getLsbD 15 then word (n - 1) else s.pc + 4#32)
      exact ⟨_, ldm_found hc hx hq hjump hadv, hheld, hbase, rfl, hkept, hmem, hmod, hst, hdr, hab⟩
  case swap =>
    intro a
    obtain ⟨v, hu, hvu, hout, hregs, hst, hdr, hab⟩ := swap_of_quiet hx hq (memRead_found (quiet_two.1 hq).1 ..)
    obtain ⟨hmem, -, hst', hdr', hab'⟩ :=
      writeBack_setPc_frame v rd (some (found s.cfg.bigEndian size s.mem a s.draws)) (s.pc + 4#32)
    refine ⟨_, (exec_swap_of_passes hi hc).trans (hu.trans (advance_eq_of_pc_eq (exchanged_pc hx hregs _) hadv)), hmem ▸ hvu,
      fun a ha => hmem ▸ hout a ha, ?_, sameStatus_trans hst hst', hdr'.trans hdr, hab'.trans hab⟩
    rw [State.setPc_regs, State.setPc_regs, State.setReg_regs, State.setReg_regs, hregs, hst.1]
  case flags => rw [State.flags, hfl, Flags.held_read]
  case psrFlags =>
    intro hfl
    rw [HeldPsr.read, hfl, flags_read_of_unspecified]
  all_goals exact fun hh => read_of_unspecified hh _

end Sys2Proof.Proofs.Valueless
end
